-- ==== Sys2Proof/Word.lean ====
section
/-! DEFINITION. The word types of the block and the per-endpoint register bank (spec/10_state.md R36, R37; spec/30_encoding.md R101). -/

namespace Sys2Proof

/-- A 32-bit word of the command port (R101, R103). -/
abbrev Word := BitVec 32

/-- A byte is 8 bits (R10). -/
abbrev Byte := BitVec 8

/-- An endpoint number: 4 bits (R10, R37). -/
abbrev EpNum := Fin 16

/-- One value for each of the 16 endpoint numbers. Registers of numbers at or above `NEP` do not exist in the
hardware; their places in a bank are never read by an operation on a present endpoint (log 17). -/
abbrev Bank (α : Type) := Vector α 16

/-- The value a bank holds for endpoint number `n`. -/
def Bank.get {α : Type} (b : Bank α) (n : EpNum) : α := b[n.val]

/-- The bank with the value for `n` replaced. -/
def Bank.put {α : Type} (b : Bank α) (n : EpNum) (v : α) : Bank α := b.set n.val v

/-- The bank that holds `v` for every endpoint number. -/
def Bank.all {α : Type} (v : α) : Bank α := Vector.replicate 16 v

end Sys2Proof
end

