-- ==== Sys2Proof/Syntax.lean ====
section
/-! DEFINITION. The operations and notifications of the block, one constructor per row of spec/opcode_table.json (spec/30_encoding.md R104). -/

namespace Sys2Proof

/-- A direction, seen from the host (R21): OUT is host to device, IN is device to host. -/
inductive Dir where
  | OUT
  | IN
  deriving DecidableEq, Repr

/-- The 23 operations of R104, with the operands of R102 and R103. -/
inductive Instr where
  | init                                                   -- INIT, R170
  | shutdown                                               -- SHUTDOWN, R171
  | send (ep : EpNum) (buf len : Word)                     -- SEND, R172
  | recv (ep : EpNum) (buf len : Word)                     -- RECV, R173
  | cancelall                                              -- CANCELALL, R175
  | stall (ep : EpNum) (dir : Dir) (st : Bool)             -- STALL, R176
  | isstalled (ep : EpNum) (dir : Dir)                     -- ISSTALLED, R177
  | portspeed                                              -- PORTSPEED, R178
  | connected                                              -- CONNECTED, R179
  | irq                                                    -- IRQ, R160
  | ctrlh                                                  -- CTRLH, R140
  | inh (ep : EpNum)                                       -- INH, R150
  | outh (ep : EpNum)                                      -- OUTH, R151
  | reseth                                                 -- RESETH, R161
  | select (ep : EpNum)                                    -- SELECT, R130
  | drain (ep : EpNum) (size : Word)                       -- DRAIN, R131
  | fill (ep : EpNum) (size : Word)                        -- FILL, R132
  | flush (ep : EpNum) (dir : Dir)                         -- FLUSH, R133
  | ep0send                                                -- EP0SEND, R141
  | onctrlreq (count : BitVec 7) (data : Vector Byte 64)   -- ONCTRLREQ, R210
  | onxferdone (status : BitVec 8) (dir : Dir) (ep : EpNum) (bytes : Word)  -- ONXFERDONE, R211
  | onbusreset                                             -- ONBUSRESET, R212
  | logev (kind : BitVec 2)                                -- LOGEV, R213
  deriving DecidableEq, Repr

/-- Who may cause an operation (R105). -/
inductive OpClass where
  | command
  | interrupt
  | internal
  | notification
  deriving DecidableEq, Repr

/-- The formats of R102. -/
inductive Format where
  | Z | E | ED | EDS | EBL | EL | VC | VX | VL
  deriving DecidableEq, Repr

end Sys2Proof
end

