-- ==== Sys2Proof/Config.lean ====
section
/-! DEFINITION. The configuration record `Cfg` and the value the spec fixes for this hardware (spec/00_scope.md R6; spec/70_reset_and_hazards.md R254), and the default register map (spec/10_state.md R40). -/

namespace Sys2Proof

/-- The type of an endpoint (R22). -/
inductive EpType where
  | control
  | bulk
  | interrupt
  deriving DecidableEq, Repr

/-- One entry of the Endpoint Table as it is fixed at build time: its key and its immutable fields (R21, R22). -/
structure EntryCfg where
  n       : EpNum
  d       : Dir
  etype   : EpType
  usesDma : Bool
  deriving DecidableEq, Repr

/-- Bit positions of the flags in the registers (R40, from general knowledge; no rule reads one). -/
structure RegBits where
  faddr         : Nat   -- FADDR: bit 0 of the device address
  suspendEnable : Nat   -- POWER
  suspendMode   : Nat
  powerResume   : Nat
  powerReset    : Nat
  hsMode        : Nat
  hsEnable      : Nat
  softConn      : Nat
  endpoint0     : Nat   -- INTRIN, INTROUT, INTRINE, INTROUTE: the flag of endpoint 0; that of n stands n places above
  suspend       : Nat   -- INTRUSB, INTRUSBE
  resume        : Nat
  reset         : Nat
  index         : Nat   -- INDEX: bit 0 of the endpoint number
  dataAvail     : Nat   -- CSR0
  inPktRdy0     : Nat
  sentStall0    : Nat
  dataEnd       : Nat
  setupEnd      : Nat
  sendStall0    : Nat
  ackDataAvail  : Nat   -- CSR0, write 1 to clear
  ackSetupEnd   : Nat
  inPktRdy      : Nat   -- INCSR
  fifoNotEmpty  : Nat
  inFlush       : Nat
  inSendStall   : Nat
  inSentStall   : Nat
  outPktRdy     : Nat   -- OUTCSR
  outFlush      : Nat
  outSendStall  : Nat
  outSentStall  : Nat
  deriving DecidableEq, Repr

/-- Offsets of the Register Interface from `USB_BASE`, and its bit positions (R40, from general knowledge; no rule reads
one). -/
structure RegMap where
  base     : Nat
  faddr    : Nat
  power    : Nat
  intrIn   : Nat
  intrOut  : Nat
  intrInE  : Nat
  intrOutE : Nat
  intrUsb  : Nat
  intrUsbE : Nat
  index    : Nat
  testMode : Nat
  csr      : Nat   -- CSR0 at INDEX = 0, INCSR at INDEX = n
  outCsr   : Nat
  count    : Nat
  fifo     : Nat   -- FIFO[n] at fifo + 4 * n
  dmaIntr  : Nat
  dmaCntl  : Nat   -- DMA_CNTL[c] at dmaCntl + 0x10 * c
  bits     : RegBits
  deriving DecidableEq, Repr

/-- The implementation parameters of R6: the argument of every operation whose rule names one of them. -/
structure Cfg where
  nep       : Nat
  entries   : List EntryCfg
  capCtrl   : Nat
  capBulkHs : Nat
  capBulkFs : Nat
  capInt    : Nat
  ctrlBufSize : Nat
  maxPkt    : Nat
  aw        : Nat
  lw        : Nat
  ndma      : Nat
  regMap    : RegMap
  deriving DecidableEq, Repr

/-- The build-time entry of key `(n, d)`, if there is one (R21). -/
def Cfg.entryAt (c : Cfg) (n : EpNum) (d : Dir) : Option EntryCfg :=
  c.entries.find? (fun e => e.n == n && e.d == d)

/-- `PRESENT(n, d)` (R6). -/
def Cfg.present (c : Cfg) (n : EpNum) (d : Dir) : Bool := (c.entryAt n d).isSome

/-- A capacity parameter is in `1 .. MAX_PKT` (R254). -/
def Cfg.capOk (c : Cfg) (k : Nat) : Bool := decide (1 ≤ k) && decide (k ≤ c.maxPkt)

/-- Well-formedness of a configuration (R254; the constraints under R6). R254 gives `CTRL_BUF_SIZE` and `MAX_PKT` one value
each. -/
def Cfg.wf (c : Cfg) : Bool :=
  decide (1 ≤ c.nep) && decide (c.nep ≤ 16)
    && c.present 0 .OUT && c.present 0 .IN
    && c.entries.all (fun e => decide (e.n.val < c.nep) && (decide (e.etype = .control) == decide (e.n = 0)))
    && decide ((c.entries.map (fun e => (e.n, e.d))).Nodup)
    && c.entries.all (fun e => c.entries.all (fun f => !decide (e.n = f.n) || decide (e.etype = f.etype)))
    && decide (c.ctrlBufSize = 64) && decide (c.maxPkt = 512)
    && c.capOk c.capCtrl && c.capOk c.capBulkHs && c.capOk c.capBulkFs && c.capOk c.capInt
    && decide (c.capCtrl ≤ c.ctrlBufSize) && decide (16 ≤ c.aw) && decide (16 ≤ c.lw)

/-- The default bit positions of R40 (PRESUMED by the spec itself: "from general knowledge, not in source"). -/
def Config.regBits : RegBits :=
  { faddr := 0
    suspendEnable := 0, suspendMode := 1, powerResume := 2, powerReset := 3, hsMode := 4, hsEnable := 5, softConn := 6
    endpoint0 := 0
    suspend := 0, resume := 1, reset := 2
    index := 0
    dataAvail := 0, inPktRdy0 := 1, sentStall0 := 2, dataEnd := 3, setupEnd := 4, sendStall0 := 5
    ackDataAvail := 6, ackSetupEnd := 7
    inPktRdy := 0, fifoNotEmpty := 1, inFlush := 3, inSendStall := 4, inSentStall := 5
    outPktRdy := 0, outFlush := 4, outSendStall := 5, outSentStall := 6 }

/-- The default `RegMap` of R40 (PRESUMED by the spec itself: "from general knowledge, not in source"). -/
def Config.regMap : RegMap :=
  { base := 0x13040000, faddr := 0x00, power := 0x01, intrIn := 0x02, intrOut := 0x04, intrInE := 0x06,
    intrOutE := 0x08, intrUsb := 0x0A, intrUsbE := 0x0B, index := 0x0E, testMode := 0x0F, csr := 0x12,
    outCsr := 0x16, count := 0x18, fifo := 0x20, dmaIntr := 0x200, dmaCntl := 0x204
    bits := Config.regBits }

/-- The configuration of this hardware: the column "default" of R6 (log 16). -/
def Config.cfg : Cfg :=
  { nep := 3
    entries := [⟨0, .OUT, .control, false⟩, ⟨0, .IN, .control, false⟩, ⟨1, .OUT, .bulk, false⟩,
      ⟨1, .IN, .bulk, false⟩, ⟨2, .IN, .interrupt, false⟩]
    capCtrl := 64, capBulkHs := 512, capBulkFs := 64, capInt := 64, ctrlBufSize := 64, maxPkt := 512
    aw := 32, lw := 32, ndma := 2, regMap := Config.regMap }

end Sys2Proof
end

