-- ==== Sys2Proof/WellFormed.lean ====
section
/-! DEFINITION. Which terms of `Instr` are operations the spec gives operands for: the "Operands" paragraph of each rule. -/

namespace Sys2Proof

/-- The operand ranges of the spec, in a configuration `c`. A command is well formed for every operand: an endpoint it
names that does not exist is refused at the port (R106), which is a behaviour of the block. An internal operation names
an endpoint with the entry its rule asks for (R130 to R133, R150, R151); a notification carries values the block can
produce (R109, R210 to R213). -/
def Instr.wf (c : Cfg) (i : Instr) : Bool :=
  match i with
  | .init => true
  | .shutdown => true
  | .send _ _ _ => true
  | .recv _ _ _ => true
  | .cancelall => true
  | .stall _ _ _ => true
  | .isstalled _ _ => true
  | .portspeed => true
  | .connected => true
  | .irq => true
  | .ctrlh => true
  | .inh ep => decide (ep ≠ 0) && c.present ep .IN
  | .outh ep => decide (ep ≠ 0) && c.present ep .OUT
  | .reseth => true
  | .select ep => decide (ep.val < c.nep)
  | .drain ep _ => c.present ep .OUT
  | .fill ep _ => c.present ep .IN
  | .flush ep dir => c.present ep dir
  | .ep0send => true
  | .onctrlreq count _ => decide (count.toNat ≤ c.ctrlBufSize)
  | .onxferdone status dir ep _ => decide (status = 0) && decide (ep ≠ 0) && c.present ep dir
  | .onbusreset => true
  | .logev kind => decide (kind = 1) || decide (kind = 2)

end Sys2Proof
end

