-- ==== Sys2Proof/Decode.lean ====
section
/-! DEFINITION. The decoder and the encoder of operations, from the tables of spec/30_encoding.md (R101 to R109). -/

namespace Sys2Proof

/-! ### Byte order (R71, R103): the byte of lowest index in bits [7:0]. -/

/-- The word made of four bytes, the first in bits [7:0] (R71). -/
def leWord (b0 b1 b2 b3 : Byte) : Word := b3 ++ b2 ++ b1 ++ b0

/-- Byte `k` of a word, byte 0 being bits [7:0] (R71). -/
def leByte (w : Word) (k : Nat) : Byte := w.extractLsb' (8 * k) 8

/-- The 16 data words of format `VC` (R103): four bytes of `ctrl_buf` per word. -/
def dataWords (data : Vector Byte 64) : List Word :=
  (List.finRange 16).map (fun k =>
    leWord (data[4 * k.val]) (data[4 * k.val + 1]) (data[4 * k.val + 2]) (data[4 * k.val + 3]))

/-- The 64 bytes carried by the data words of format `VC` (R103). -/
def dataBytes (ws : List Word) : Vector Byte 64 :=
  Vector.ofFn (fun k => leByte (ws.getD (k.val / 4) 0) (k.val % 4))

/-! ### Fields of the head word (R101). -/

def opField (h : Word) : BitVec 8 := h.extractLsb' 24 8
def statusField (h : Word) : BitVec 8 := h.extractLsb' 16 8
def stField (h : Word) : Bool := h.getLsbD 9
def dirField (h : Word) : Dir := if h.getLsbD 8 then .IN else .OUT
def epField (h : Word) : EpNum := (h.extractLsb' 0 4).toFin
def countField (h : Word) : BitVec 7 := h.extractLsb' 0 7
def kindField (h : Word) : BitVec 2 := h.extractLsb' 0 2

/-- The bit of a direction: 0 = OUT, 1 = IN (R101). -/
def Dir.bit : Dir → Bool
  | .OUT => false
  | .IN => true

/-! ### Formats (R102). -/

/-- The mask of a format: the head-word bits that must equal the row's `match` value. -/
def Format.mask : Format → Word
  | .Z => 0xFFFFFFFF#32
  | .E => 0xFFFFFFF0#32
  | .ED => 0xFFFFFEF0#32
  | .EDS => 0xFFFFFCF0#32
  | .EBL => 0xFFFFFFF0#32
  | .EL => 0xFFFFFFF0#32
  | .VC => 0xFFFFFF80#32
  | .VX => 0xFF00FEF0#32
  | .VL => 0xFFFFFFFC#32

/-- How many operand words follow the head word (R102, R107). -/
def Format.operandWords : Format → Nat
  | .Z => 0
  | .E => 0
  | .ED => 0
  | .EDS => 0
  | .EBL => 2
  | .EL => 1
  | .VC => 16
  | .VX => 1
  | .VL => 0

/-! ### The opcode map (R104). -/

/-- One row of the opcode map: its opcode, mnemonic, format and class, and the operation its words name. -/
structure OpRow where
  op       : BitVec 8
  mnemonic : String
  format   : Format
  cls      : OpClass
  build    : Word → List Word → Instr

/-- The `match` value of a row: its opcode in bits [31:24], zero elsewhere (R102, R104). -/
def OpRow.matchWord (r : OpRow) : Word := r.op ++ 0#24

/-- The opcode map of R104, in its order. -/
def opcodeTable : List OpRow :=
  [ ⟨0x01#8, "INIT", .Z, .command, fun _ _ => .init⟩,
    ⟨0x02#8, "SHUTDOWN", .Z, .command, fun _ _ => .shutdown⟩,
    ⟨0x03#8, "SEND", .EBL, .command, fun h ws => .send (epField h) (ws.getD 0 0) (ws.getD 1 0)⟩,
    ⟨0x04#8, "RECV", .EBL, .command, fun h ws => .recv (epField h) (ws.getD 0 0) (ws.getD 1 0)⟩,
    ⟨0x05#8, "CANCELALL", .Z, .command, fun _ _ => .cancelall⟩,
    ⟨0x06#8, "STALL", .EDS, .command, fun h _ => .stall (epField h) (dirField h) (stField h)⟩,
    ⟨0x07#8, "ISSTALLED", .ED, .command, fun h _ => .isstalled (epField h) (dirField h)⟩,
    ⟨0x08#8, "PORTSPEED", .Z, .command, fun _ _ => .portspeed⟩,
    ⟨0x09#8, "CONNECTED", .Z, .command, fun _ _ => .connected⟩,
    ⟨0x10#8, "IRQ", .Z, .interrupt, fun _ _ => .irq⟩,
    ⟨0x11#8, "CTRLH", .Z, .internal, fun _ _ => .ctrlh⟩,
    ⟨0x12#8, "INH", .E, .internal, fun h _ => .inh (epField h)⟩,
    ⟨0x13#8, "OUTH", .E, .internal, fun h _ => .outh (epField h)⟩,
    ⟨0x14#8, "RESETH", .Z, .internal, fun _ _ => .reseth⟩,
    ⟨0x20#8, "SELECT", .E, .internal, fun h _ => .select (epField h)⟩,
    ⟨0x21#8, "DRAIN", .EL, .internal, fun h ws => .drain (epField h) (ws.getD 0 0)⟩,
    ⟨0x22#8, "FILL", .EL, .internal, fun h ws => .fill (epField h) (ws.getD 0 0)⟩,
    ⟨0x23#8, "FLUSH", .ED, .internal, fun h _ => .flush (epField h) (dirField h)⟩,
    ⟨0x24#8, "EP0SEND", .Z, .internal, fun _ _ => .ep0send⟩,
    ⟨0x30#8, "ONCTRLREQ", .VC, .notification, fun h ws => .onctrlreq (countField h) (dataBytes ws)⟩,
    ⟨0x31#8, "ONXFERDONE", .VX, .notification,
      fun h ws => .onxferdone (statusField h) (dirField h) (epField h) (ws.getD 0 0)⟩,
    ⟨0x32#8, "ONBUSRESET", .Z, .notification, fun _ _ => .onbusreset⟩,
    ⟨0x33#8, "LOGEV", .VL, .notification, fun h _ => .logev (kindField h)⟩ ]

/-- The row of an opcode; `none` for the reserved opcodes of R106. -/
def rowOf (op : BitVec 8) : Option OpRow := opcodeTable.find? (fun r => r.op == op)

/-- The length in words of the operation whose head word is `h`, a function of `OP` alone; 1 for an unknown opcode (R107). -/
def lengthOf (h : Word) : Nat :=
  match rowOf (opField h) with
  | none => 1
  | some r => r.format.operandWords + 1

/-- Why the decoder refuses words (R106). -/
inductive DecodeReject where
  | unknownOpcode
  | reservedBits
  deriving DecidableEq, Repr

/-- What the decoder makes of a stream of words: an operation, a rejection by name (both with the words that are left,
R107), or nothing yet because the operation's words have not all arrived (log 15). -/
inductive Decoded where
  | op (i : Instr) (rest : List Word)
  | rejected (why : DecodeReject) (rest : List Word)
  | incomplete
  deriving DecidableEq, Repr

/-- The decoder: total on every list of words (R101 to R107). -/
def decode (ws : List Word) : Decoded :=
  match ws with
  | [] => .incomplete
  | h :: t =>
    match rowOf (opField h) with
    | none => .rejected .unknownOpcode t
    | some r =>
      if t.length < r.format.operandWords then .incomplete
      else if h &&& r.format.mask ≠ r.matchWord then .rejected .reservedBits (t.drop r.format.operandWords)
      else .op (r.build h (t.take r.format.operandWords)) (t.drop r.format.operandWords)

/-- The class of an operation (R104, R105). -/
def Instr.cls : Instr → OpClass
  | .init => .command
  | .shutdown => .command
  | .send _ _ _ => .command
  | .recv _ _ _ => .command
  | .cancelall => .command
  | .stall _ _ _ => .command
  | .isstalled _ _ => .command
  | .portspeed => .command
  | .connected => .command
  | .irq => .interrupt
  | .ctrlh => .internal
  | .inh _ => .internal
  | .outh _ => .internal
  | .reseth => .internal
  | .select _ => .internal
  | .drain _ _ => .internal
  | .fill _ _ => .internal
  | .flush _ _ => .internal
  | .ep0send => .internal
  | .onctrlreq _ _ => .notification
  | .onxferdone _ _ _ _ => .notification
  | .onbusreset => .notification
  | .logev _ => .notification

/-! ### The encoder, from the same tables. -/

/-- A head word from its fields, every other bit 0 (R101). -/
def headWord (op status : BitVec 8) (st : Bool) (dir : Dir) (ep : EpNum) : Word :=
  op ++ status ++ 0#6 ++ BitVec.ofBool st ++ BitVec.ofBool dir.bit ++ 0#4 ++ BitVec.ofNat 4 ep.val

/-- The words of an operation (R101 to R104, R109). -/
def encode : Instr → List Word
  | .init => [headWord 0x01#8 0 false .OUT 0]
  | .shutdown => [headWord 0x02#8 0 false .OUT 0]
  | .send ep buf len => [headWord 0x03#8 0 false .OUT ep, buf, len]
  | .recv ep buf len => [headWord 0x04#8 0 false .OUT ep, buf, len]
  | .cancelall => [headWord 0x05#8 0 false .OUT 0]
  | .stall ep dir st => [headWord 0x06#8 0 st dir ep]
  | .isstalled ep dir => [headWord 0x07#8 0 false dir ep]
  | .portspeed => [headWord 0x08#8 0 false .OUT 0]
  | .connected => [headWord 0x09#8 0 false .OUT 0]
  | .irq => [headWord 0x10#8 0 false .OUT 0]
  | .ctrlh => [headWord 0x11#8 0 false .OUT 0]
  | .inh ep => [headWord 0x12#8 0 false .OUT ep]
  | .outh ep => [headWord 0x13#8 0 false .OUT ep]
  | .reseth => [headWord 0x14#8 0 false .OUT 0]
  | .select ep => [headWord 0x20#8 0 false .OUT ep]
  | .drain ep size => [headWord 0x21#8 0 false .OUT ep, size]
  | .fill ep size => [headWord 0x22#8 0 false .OUT ep, size]
  | .flush ep dir => [headWord 0x23#8 0 false dir ep]
  | .ep0send => [headWord 0x24#8 0 false .OUT 0]
  | .onctrlreq count data => (0x30#8 ++ 0#17 ++ count : Word) :: dataWords data
  | .onxferdone status dir ep bytes => [headWord 0x31#8 status false dir ep, bytes]
  | .onbusreset => [headWord 0x32#8 0 false .OUT 0]
  | .logev kind => [(0x33#8 ++ 0#22 ++ kind : Word)]

/-! ### The host's numbering of an instruction's bits. -/

/-- Words `0 .. 16` of an operation whose bits are `w`: word `k` is bits `32 * k + 31 .. 32 * k`, and the bits at or above
`nbits` are 0. Seventeen words hold the longest operation (R107). -/
def tableWords (nbits w : Nat) : List Word :=
  (List.range 17).map (fun k => BitVec.ofNat 32 ((w % 2 ^ nbits) >>> (32 * k)))

/-- The operation this decoder reads from an operation's bits, numbered as spec/opcode_table.json numbers them. -/
def decodeTableWord (nbits w : Nat) : Option Instr :=
  match decode (tableWords nbits w) with
  | .op i _ => some i
  | .rejected _ _ => none
  | .incomplete => none

end Sys2Proof
end

