-- ==== Sys2Proof/Machine/State.lean ====
section
/-! DEFINITION. The state record `S` (spec/10_state.md R20 to R52), the reasons a step can stop (spec/00_scope.md R9; spec/60_exceptions.md R222), and the power-on state. -/

namespace Sys2Proof.Machine

/-! ### The Endpoint Table -/

/-- A buffer reference (R24): the null reference, the fixed control buffer, or a caller's region at an address. -/
inductive Buf where
  | none
  | ctrl
  | mem (a : Nat)
  deriving DecidableEq, Repr

/-- One entry of the Endpoint Table (R22 to R26). `etype` and `usesDma` are immutable, `cap` is written by the reset
sequence only, `buf`, `len`, `prog` are the per-transfer fields. -/
structure Entry where
  etype   : EpType
  usesDma : Bool
  cap     : Nat
  buf     : Buf
  len     : Nat
  prog    : Nat
  deriving DecidableEq, Repr

/-- `ep0state` (R30). -/
inductive Ep0State where
  | Idle
  | Transmitting
  | Receiving
  deriving DecidableEq, Repr

/-! ### The Register Interface -/

/-- The flags of `CSR0` (R38). -/
structure Csr0 where
  dataAvail : Bool
  inPktRdy  : Bool
  dataEnd   : Bool
  sentStall : Bool
  setupEnd  : Bool
  sendStall : Bool
  deriving DecidableEq, Repr

/-- The stored flags of `INCSR[n]` (R39); `FIFO_NOT_EMPTY` is derived and `FLUSH` is an action that reads 0. -/
structure InCsr where
  inPktRdy  : Bool
  sendStall : Bool
  sentStall : Bool
  deriving DecidableEq, Repr

/-- The stored flags of `OUTCSR[n]` (R39). -/
structure OutCsr where
  outPktRdy : Bool
  sendStall : Bool
  sentStall : Bool
  deriving DecidableEq, Repr

/-- The flags of `INTRUSB` and of `INTRUSBE` (R41, R42). -/
structure UsbFlags where
  suspend : Bool
  resume  : Bool
  reset   : Bool
  deriving DecidableEq, Repr

/-- `Off` or `On` (R46). -/
inductive Phase where
  | Off
  | On
  deriving DecidableEq, Repr

/-! ### Logs and marks -/

/-- The kinds of a `Log` element (R213). -/
inductive LogKind where
  | suspend
  | resume
  deriving DecidableEq, Repr

/-- An element of `up_log` (R48, R210 to R213). -/
inductive Notification where
  | onControlRequest (data : Vector Byte 64) (count : Nat)
  | onTransferComplete (n : EpNum) (d : Dir) (status : BitVec 8) (bytes : Nat)
  | onBusReset
  | log (kind : LogKind)
  deriving DecidableEq, Repr

/-- A record of `tx_log` (R49). -/
structure TxRecord where
  n       : EpNum
  bytes   : List Byte
  dataEnd : Bool
  deriving DecidableEq, Repr

/-- The fault reasons of R222, a closed list. -/
inductive FaultReason where
  | DrainNoBuffer
  | FifoUnderrun
  | CtrlOverrun
  | FillNoBuffer
  | FifoBusy
  | FifoOverrun
  | NoPacket
  | BufferOverrun
  deriving DecidableEq, Repr

/-- The refusal reasons of R222, a closed list. -/
inductive RefusalReason where
  | UnknownOpcode
  | ReservedBits
  | NoSuchEndpoint
  | NotACommand
  | NotInitialised
  | AlreadyInitialised
  | Busy
  | NullBufferWithLength
  | BadRegion
  | ControlReceiveUnsupported
  deriving DecidableEq, Repr

/-! ### Memory -/

/-- A stretch of addresses the platform's memory holds (R172 `Admit`, R253). -/
structure MemRegion where
  base : Nat
  size : Nat
  deriving DecidableEq, Repr

/-! ### The steps of the other agents, and the program -/

/-- The moves of the bus agent (R191 to R199). -/
inductive BusMove where
  | setup (bytes : List Byte)              -- B_SETUP, R191
  | ep0Taken                               -- B_EP0_TAKEN, R192
  | out (n : EpNum) (bytes : List Byte)    -- B_OUT, R193
  | inTaken (n : EpNum)                    -- B_IN_TAKEN, R194
  | stallSent (n : EpNum) (d : Dir)        -- B_STALL_SENT, R195
  | setupEnd                               -- B_SETUP_END, R196
  | ep0Irq                                 -- B_EP0_IRQ, R197
  | busReset (hs : Bool)                   -- B_BUS_RESET, R198
  | suspend                                -- B_SUSPEND, R199
  | resume                                 -- B_RESUME, R199
  deriving DecidableEq, Repr

/-- A top-level step of R112: words at the command port, the line `IRQ`, a bus-agent move, the platform move `P_VBUS`;
and `invoke`, the direct invocation of one operation by its words, with which the model exposes every operation as a
function of the state (R105; log 9). `P_SPURIOUS` is an `irq` step taken while the line is low (R200). DESIGN CHOICE
(log 26): R78 and R112 give no step in which a caller changes the bytes of its buffer (R81, R262) and the model gives none;
such a change between two steps is another state to go on from, and a statement about every state covers it. -/
inductive TopStep where
  | port (ws : List Word)
  | irq
  | bus (m : BusMove)
  | vbus (b : Bool)
  | invoke (ws : List Word)
  deriving DecidableEq, Repr

/-- The state record (R20), and the two fields `result` and `program` that are the model's own (logs 1, 8). -/
structure State where
  /-- The OUT entries `ep[n][OUT]`; `none` where there is no entry (R21). -/
  epOut       : Bank (Option Entry)
  /-- The IN entries `ep[n][IN]`. -/
  epIn        : Bank (Option Entry)
  ep0state    : Ep0State
  ctrlBuf     : Vector Byte 64
  tx          : Bank (List Byte)
  rx          : Bank (List Byte)
  index       : EpNum
  csr0        : Csr0
  inCsr       : Bank InCsr
  outCsr      : Bank OutCsr
  intrUsb     : UsbFlags
  intrIn      : Bank Bool
  intrOut     : Bank Bool
  dmaIntr     : BitVec 8
  intrUsbE    : UsbFlags
  intrInE     : Bank Bool
  intrOutE    : Bank Bool
  /-- `POWER.HS_MODE` (R43). -/
  hsMode      : Bool
  faddr       : BitVec 7
  testMode    : BitVec 8
  dmaCntl     : List (BitVec 16)
  irqMasked   : Bool
  phase       : Phase
  domainPower : Bool
  /-- `bus_connect`, whose register form is `POWER.SOFT_CONN` (R43, R46; log 19). -/
  busConnect  : Bool
  vbusSense   : Bool
  upLog       : List Notification
  txLog       : List TxRecord
  fault       : Option FaultReason
  refused     : Option RefusalReason
  /-- The bytes of `Mem`, in the canonical form `Memory.wf` (R51; log 5). -/
  mem         : List Host.Cell
  /-- The addresses `Mem` holds, regions in ascending order (R253; log 6). -/
  memMap      : List MemRegion
  /-- The result word last returned to the issuer of a query (R108; log 8). -/
  result      : Option Word
  /-- The top-level steps still to come (R112; log 1). -/
  program     : List TopStep
  deriving DecidableEq, Repr

/-! ### How a step can stop -/

/-- Why the machine stops with a fault. -/
inductive Fault where
  /-- Raised by `step` on a state whose field `fault` is set: "no step is enabled once `fault` is set" (R50, R256).
  The step that reaches `raise Fault(r)` itself answers the next state that R9 describes (log 2). Safe. -/
  | halted (r : FaultReason)
  /-- Raised by a read or write of caller memory at an address the memory does not hold. Only a hand-made state or a
  hand-issued DRAIN or FILL reaches it: an admitted region is held (R77, R253; log 7). Safe: the model stops. -/
  | outsideMemory
  deriving DecidableEq, Repr

/-- Why a step has no meaning. None of these is a refusal of R222: those are next states (R9; log 3). -/
inductive Refusal where
  /-- Raised by `exec` for an instruction that has no meaning yet. Safe. No arm raises it now. -/
  | notModelled (mnemonic : String)
  /-- Raised by DRAIN, FILL, FLUSH, EP0SEND and CTRLH when the entry they work on does not exist: their operands exclude it
  (R131 to R133), and EP0's entries exist in every configuration (R254). Safe (log 11). -/
  | noSuchEntry
  /-- Raised by LOGEV with a kind that is "never produced" (R109): there is no such element. Safe (log 13). -/
  | neverProduced
  /-- Raised by `step` when the program asks for a bus-agent move whose precondition does not hold (R190). Safe (log 14). -/
  | moveNotEnabled
  /-- Raised by `step` when the program asks for the IRQ step, by its line or by its words, while it is not enabled (R160).
  Safe (log 14). -/
  | irqNotEnabled
  /-- Raised by `step` when the words sent end inside an operation (R107 gives its length). Safe (log 15). -/
  | incompleteOperation
  /-- Raised by `step` when the words of a direct invocation are no operation. Safe (log 9). -/
  | notAnOperation
  deriving DecidableEq, Repr

/-! ### Power-on -/

/-- The capacity of an entry at power-on, the "capacity defaults" of R52. -/
def powerOnCap (c : Cfg) (t : EpType) : Nat :=
  match t with
  | .control => c.capCtrl
  | .interrupt => c.capInt
  | .bulk => c.capBulkFs

/-- The entry of key `(n, d)` at power-on (R52): the empty state of R28. -/
def powerOnEntry (c : Cfg) (n : EpNum) (d : Dir) : Option Entry :=
  (c.entryAt n d).map (fun e =>
    { etype := e.etype, usesDma := e.usesDma, cap := powerOnCap c e.etype
      buf := if n = 0 ∧ d = .OUT then .ctrl else .none
      len := 0, prog := 0 })

/-- `CSR0` with every flag 0. -/
def Csr0.zero : Csr0 := ⟨false, false, false, false, false, false⟩

/-- `INCSR[n]` with every flag 0. -/
def InCsr.zero : InCsr := ⟨false, false, false⟩

/-- `OUTCSR[n]` with every flag 0. -/
def OutCsr.zero : OutCsr := ⟨false, false, false⟩

/-- `INTRUSB` or `INTRUSBE` with every flag 0. -/
def UsbFlags.zero : UsbFlags := ⟨false, false, false⟩

/-- The power-on state of a configuration (R52, column "At power-on"). What the spec leaves unspecified is zero or empty
here (logs 4, 5, 6, 20): DESIGN CHOICE. -/
def State.powerOn (c : Cfg) : State :=
  { epOut := Vector.ofFn (fun n => powerOnEntry c n .OUT)
    epIn := Vector.ofFn (fun n => powerOnEntry c n .IN)
    ep0state := .Idle
    ctrlBuf := Vector.replicate 64 0
    tx := Bank.all []
    rx := Bank.all []
    index := 0
    csr0 := Csr0.zero
    inCsr := Bank.all InCsr.zero
    outCsr := Bank.all OutCsr.zero
    intrUsb := UsbFlags.zero
    intrIn := Bank.all false
    intrOut := Bank.all false
    dmaIntr := 0
    intrUsbE := UsbFlags.zero
    intrInE := Bank.all false
    intrOutE := Bank.all false
    hsMode := false
    faddr := 0
    testMode := 0
    dmaCntl := List.replicate c.ndma 0
    irqMasked := false
    phase := .Off
    domainPower := false
    busConnect := false
    vbusSense := false
    upLog := []
    txLog := []
    fault := none
    refused := none
    mem := []
    memMap := [⟨0, 2 ^ c.aw⟩]
    result := none
    program := [] }

/-- The machine right after reset: the power-on state of this hardware. -/
def State.reset : State := State.powerOn Config.cfg

end Sys2Proof.Machine
end

