-- ==== Sys2Proof/Machine/Ops.lean ====
section
/-! DEFINITION. The named operations over memory, the Endpoint Table, the registers and the logs, and the two abnormal outcomes (spec/00_scope.md R9, R11; spec/10_state.md R28; spec/20_memory.md R71, R77). -/

namespace Sys2Proof.Machine

/-! ### How a meaning ends (R9) -/

/-- What ends an operation before its rule's pseudocode does: `raise Fault(reason)`, `refuse(reason)`, or one of the two
stops that are the model's own (logs 7, 11). -/
inductive Stop where
  | fault (r : FaultReason)
  | refuse (r : RefusalReason)
  | noSuchEntry
  | outsideMemory
  deriving DecidableEq, Repr

/-- The outcome of a rule: the state it leaves, or why it ended early. -/
abbrev Result := Except Stop State

/-- The fault outcome (R9, R50): the field `fault` is set, and of the step nothing else is kept. It is written once, and
a value already there stays (log 23). -/
def State.markFault (s : State) (r : FaultReason) : State := { s with fault := s.fault.or (some r) }

/-- The refusal outcome (R9, R50): the state is unchanged but for the sticky mark `refused`, which keeps the first reason. -/
def State.markRefused (s : State) (r : RefusalReason) : State := { s with refused := s.refused.or (some r) }

/-- Ends an atomic step that started in `s` (R8, R9): this is where a fault or a refusal is TAKEN. A fault and a refusal
are next states made from `s`, so nothing else the step did is kept (logs 2, 3). -/
def conclude (s : State) (r : Result) : Host.Outcome State Fault Refusal :=
  match r with
  | .ok t => .next t
  | .error (.fault f) => .next (s.markFault f)
  | .error (.refuse f) => .next (s.markRefused f)
  | .error .noSuchEntry => .refused .noSuchEntry
  | .error .outsideMemory => .fault .outsideMemory

/-- Runs `f` on the state a rule has reached, if it has reached one. -/
def andThen (r : Result) (f : State → Result) : Result :=
  match r with
  | .ok s => f s
  | .error e => .error e

/-! ### The Endpoint Table (R21) -/

/-- The entry `ep[n][d]`, `none` where there is none (`PRESENT`, R21). -/
def State.entry (s : State) (n : EpNum) (d : Dir) : Option Entry :=
  match d with
  | .OUT => s.epOut.get n
  | .IN => s.epIn.get n

/-- `ep[n][d]` replaced. -/
def State.putEntry (s : State) (n : EpNum) (d : Dir) (e : Entry) : State :=
  match d with
  | .OUT => { s with epOut := s.epOut.put n (some e) }
  | .IN => { s with epIn := s.epIn.put n (some e) }

/-- `PRESENT(n, d)`, read from the table. -/
def State.present (s : State) (n : EpNum) (d : Dir) : Bool := (s.entry n d).isSome

/-- Every key `(n, d)` in table order: ascending `2 * n + d`, OUT before IN (R21). -/
def tableOrder : List (EpNum × Dir) := (List.finRange 16).flatMap (fun n => [(n, .OUT), (n, .IN)])

/-- The data endpoint numbers in ascending order (R160, R250). -/
def dataNumbers : List EpNum := (List.finRange 16).filter (fun n => decide (n ≠ 0))

/-- The empty state of an entry of key `(n, d)` (R28). -/
def Entry.clear (e : Entry) (n : EpNum) (d : Dir) : Entry :=
  { e with len := 0, prog := 0, buf := if n = 0 ∧ d = .OUT then .ctrl else .none }

/-- `clear(ep[n][d])`, in one indivisible action (R28, R80). -/
def clearEntry (n : EpNum) (d : Dir) (s : State) : State :=
  match s.entry n d with
  | none => s
  | some e => s.putEntry n d (e.clear n d)

/-! ### The Register Interface -/

/-- SELECT (R130): make `ep` the active endpoint. -/
def selectEp (ep : EpNum) (s : State) : State := { s with index := ep }

/-! ### The logs (R11, R48, R49) -/

/-- `emit`: append a notification to `up_log`. -/
def emit (x : Notification) (s : State) : State := { s with upLog := s.upLog ++ [x] }

/-- `commit(n, tx[n], data_end)`: append the packet in the transmit FIFO to `tx_log`. -/
def commitPacket (n : EpNum) (dataEnd : Bool) (s : State) : State :=
  { s with txLog := s.txLog ++ [⟨n, s.tx.get n, dataEnd⟩] }

/-! ### EP0 returns to Idle (R142) -/

/-- `ep0_to_idle`. -/
def ep0ToIdle (s : State) : State := clearEntry 0 .IN { s with ep0state := .Idle }

/-! ### Caller memory (R51, R77) -/

/-- What a held byte that is not listed reads as (log 5): DESIGN CHOICE, unsafe. -/
def unlistedByte : Byte := 0

/-- The byte listed for address `a`. -/
def Memory.lookup (m : List Host.Cell) (a : Nat) : Byte :=
  match m with
  | [] => unlistedByte
  | (x, b) :: t => if x = a then b else Memory.lookup t a

/-- Byte `b` stored at address `a`, keeping the canonical form. -/
def Memory.store (m : List Host.Cell) (a : Nat) (b : Byte) : List Host.Cell :=
  match m with
  | [] => if b = unlistedByte then [] else [(a, b)]
  | (x, c) :: t =>
    if a < x then (if b = unlistedByte then (x, c) :: t else (a, b) :: (x, c) :: t)
    else if a = x then (if b = unlistedByte then t else (a, b) :: t)
    else (x, c) :: Memory.store t a b

/-- Every address of the list is above `a`, the addresses rise, and no listed byte is the unlisted one. -/
def Memory.wfAbove (a : Nat) (m : List Host.Cell) : Bool :=
  match m with
  | [] => true
  | (x, b) :: t => decide (a < x) && decide (b ≠ unlistedByte) && Memory.wfAbove x t

/-- The canonical form of a memory list: addresses strictly rising, no entry equal to the unlisted byte. -/
def Memory.wf (m : List Host.Cell) : Bool :=
  match m with
  | [] => true
  | (x, b) :: t => decide (b ≠ unlistedByte) && Memory.wfAbove x t

/-- The memory holds address `a` (R172). -/
def State.holds (s : State) (a : Nat) : Bool :=
  s.memMap.any (fun r => decide (r.base ≤ a) && decide (a < r.base + r.size))

/-- `MemRead(a, 1)`; `none` at an address the memory does not hold. -/
def State.readByte (s : State) (a : Nat) : Option Byte :=
  if s.holds a then some (Memory.lookup s.mem a) else none

/-- `MemWrite(a, 1, [b])`; `none` at an address the memory does not hold. -/
def State.writeByte (s : State) (a : Nat) (b : Byte) : Option State :=
  if s.holds a then some { s with mem := Memory.store s.mem a b } else none

/-- `MemRead(a, n)`: the bytes at `a .. a+n-1`, ascending (R11). -/
def State.readBytes (s : State) (a : Nat) (n : Nat) : Option (List Byte) :=
  match n with
  | 0 => some []
  | k + 1 =>
    match s.readByte a, s.readBytes (a + 1) k with
    | some b, some bs => some (b :: bs)
    | _, _ => none

/-- `MemWrite(a, |bs|, bs)`: ascending (R11). -/
def State.writeBytes (s : State) (a : Nat) (bs : List Byte) : Option State :=
  match bs with
  | [] => some s
  | b :: t =>
    match s.writeByte a b with
    | some s' => s'.writeBytes (a + 1) t
    | none => none

/-! ### The control buffer (R33) -/

/-- Bytes `bs` stored at indices `i ..` of the control buffer, ascending. -/
def writeCtrl (cb : Vector Byte 64) (i : Nat) (bs : List Byte) : Vector Byte 64 :=
  match bs with
  | [] => cb
  | b :: t => writeCtrl (cb.setIfInBounds i b) (i + 1) t

/-! ### The word-wide access pattern (R71, R72)

FILL and DRAIN below move byte by byte, as R72 allows. The 32-bit accesses are defined beside them, so that their
equality with the byte-wise move (R71, R134) is a statement about the model. -/

/-- A 32-bit read of `Mem` at `a`: little-endian (R71; log 24). -/
def State.readWord (s : State) (a : Nat) : Option Word :=
  match s.readByte a, s.readByte (a + 1), s.readByte (a + 2), s.readByte (a + 3) with
  | some b0, some b1, some b2, some b3 => some (leWord b0 b1 b2 b3)
  | _, _, _, _ => none

/-- A 32-bit write of `w` to a FIFO port appends its four bytes, bits [7:0] first (R71). -/
def portPushWord (fifo : List Byte) (w : Word) : List Byte :=
  fifo ++ [leByte w 0, leByte w 1, leByte w 2, leByte w 3]

/-- The bytes FILL moves when it makes `k` word accesses from `a` and then `n` byte accesses ("unaligned tails"). -/
def State.pushWordsThenBytes (s : State) (fifo : List Byte) (a k n : Nat) : Option (List Byte) :=
  match k with
  | 0 =>
    match s.readBytes a n with
    | some bs => some (fifo ++ bs)
    | none => none
  | k + 1 =>
    match s.readWord a with
    | some w => s.pushWordsThenBytes (portPushWord fifo w) (a + 4) k n
    | none => none

/-- The access pattern of R72 for `size` bytes from address `a` into a FIFO: words and a byte tail when the address is
4-byte aligned, bytes otherwise. -/
def State.pushByPattern (s : State) (fifo : List Byte) (a size : Nat) : Option (List Byte) :=
  if a % 4 = 0 then s.pushWordsThenBytes fifo a (size / 4) (size % 4)
  else s.pushWordsThenBytes fifo a 0 size

/-- A 32-bit read of a FIFO port pops four bytes and yields them, the oldest in bits [7:0] (R71). -/
def portPopWord (fifo : List Byte) : Option (Word × List Byte) :=
  match fifo with
  | b0 :: b1 :: b2 :: b3 :: t => some (leWord b0 b1 b2 b3, t)
  | _ => none

/-- A 32-bit write of `Mem` at `a`: little-endian (R71). -/
def State.writeWord (s : State) (a : Nat) (w : Word) : Option State :=
  s.writeBytes a [leByte w 0, leByte w 1, leByte w 2, leByte w 3]

/-- What DRAIN does to memory and to the FIFO when it makes `k` word accesses at `a` and then moves `n` single bytes. -/
def State.popWordsThenBytes (s : State) (fifo : List Byte) (a k n : Nat) : Option (State × List Byte) :=
  match k with
  | 0 =>
    match s.writeBytes a (fifo.take n) with
    | some s' => some (s', fifo.drop n)
    | none => none
  | k + 1 =>
    match portPopWord fifo with
    | none => none
    | some (w, rest) =>
      match s.writeWord a w with
      | some s' => s'.popWordsThenBytes rest (a + 4) k n
      | none => none

/-! ### Sequencing over the table -/

/-- A loop of R175 or R250: `f` for each key of the list, in order. -/
def forKeys (ks : List (EpNum × Dir)) (f : EpNum → Dir → State → State) (s : State) : State :=
  match ks with
  | [] => s
  | (n, d) :: t => forKeys t f (f n d s)

/-- A loop of R160: `f` for each number of the list, in order, ended by the first stop. -/
def forNumbers (ns : List EpNum) (f : EpNum → State → Result) (s : State) : Result :=
  match ns with
  | [] => .ok s
  | n :: t => andThen (f n s) (forNumbers t f)

end Sys2Proof.Machine
end

