-- ==== Sys2Proof/Machine/Flags.lean ====
section
/-! DEFINITION. The flags of the Register Interface as operations read and write them, and the derived signals (spec/10_state.md R35, R38, R39, R45; spec/20_memory.md R85). -/

namespace Sys2Proof.Machine

/-! ### Derived quantities -/

/-- The received-byte count, `COUNT0` or `OUTCOUNT[n]` (R35). -/
def State.rxCount (s : State) (n : EpNum) : Nat := (s.rx.get n).length

/-- `INCSR[n].FIFO_NOT_EMPTY` (R35). -/
def State.fifoNotEmpty (s : State) (n : EpNum) : Bool := decide (0 < (s.tx.get n).length)

/-- `POWER.SOFT_CONN`, the register form of `bus_connect` (R43). -/
def State.softConn (s : State) : Bool := s.busConnect

/-- Some flag of `INTRUSB` is set and enabled. -/
def UsbFlags.anyAnd (f e : UsbFlags) : Bool :=
  (f.suspend && e.suspend) || (f.resume && e.resume) || (f.reset && e.reset)

/-- No flag is set. -/
def UsbFlags.isZero (f : UsbFlags) : Bool := !f.suspend && !f.resume && !f.reset

/-- Some flag of a bank is set and enabled. -/
def bankAnyAnd (f e : Bank Bool) : Bool := (List.finRange 16).any (fun n => f.get n && e.get n)

/-- No flag of a bank is set. -/
def bankIsZero (f : Bank Bool) : Bool := (List.finRange 16).all (fun n => !f.get n)

/-- `irq_line` (R45). -/
def State.irqLine (s : State) : Bool :=
  decide (s.phase = .On) && !s.irqMasked
    && (s.intrUsb.anyAnd s.intrUsbE || bankAnyAnd s.intrIn s.intrInE || bankAnyAnd s.intrOut s.intrOutE
        || decide (s.dmaIntr ≠ 0))

/-- When the IRQ step is enabled (R160). -/
def State.irqEnabled (s : State) : Bool := decide (s.phase = .On) && !s.irqMasked

/-- No flag of the four status registers is set. -/
def State.noPending (s : State) : Bool :=
  s.intrUsb.isZero && bankIsZero s.intrIn && bankIsZero s.intrOut && decide (s.dmaIntr = 0)

/-! ### `CSR0` -/

def clearSentStall0 (s : State) : State := { s with csr0 := { s.csr0 with sentStall := false } }
def clearSetupEnd (s : State) : State := { s with csr0 := { s.csr0 with setupEnd := false } }
def clearDataAvail (s : State) : State := { s with csr0 := { s.csr0 with dataAvail := false } }

/-- EP0 signals packet-ready, with or without data-end (R141). -/
def signalEp0 (dataEnd : Bool) (s : State) : State :=
  { s with csr0 := { s.csr0 with inPktRdy := true, dataEnd := s.csr0.dataEnd || dataEnd } }

/-! ### `INCSR[n]`, `OUTCSR[n]` -/

def setInPktRdy (n : EpNum) (b : Bool) (s : State) : State :=
  { s with inCsr := s.inCsr.put n { s.inCsr.get n with inPktRdy := b } }

def setOutPktRdy (n : EpNum) (b : Bool) (s : State) : State :=
  { s with outCsr := s.outCsr.put n { s.outCsr.get n with outPktRdy := b } }

def clearSentStallIn (n : EpNum) (s : State) : State :=
  { s with inCsr := s.inCsr.put n { s.inCsr.get n with sentStall := false } }

def clearSentStallOut (n : EpNum) (s : State) : State :=
  { s with outCsr := s.outCsr.put n { s.outCsr.get n with sentStall := false } }

/-- `PR` of R132: packet-ready on the IN side of endpoint `n`. -/
def State.inPktRdy (s : State) (n : EpNum) : Bool :=
  if n = 0 then s.csr0.inPktRdy else (s.inCsr.get n).inPktRdy

/-! ### The stall request (R176, R177) -/

/-- The stall-request flag of endpoint `n`, direction `d`; endpoint 0 has one, in `CSR0`. -/
def State.sendStall (s : State) (n : EpNum) (d : Dir) : Bool :=
  if n = 0 then s.csr0.sendStall
  else match d with
    | .IN => (s.inCsr.get n).sendStall
    | .OUT => (s.outCsr.get n).sendStall

/-- The stall-request flag written. -/
def putSendStall (n : EpNum) (d : Dir) (st : Bool) (s : State) : State :=
  if n = 0 then { s with csr0 := { s.csr0 with sendStall := st } }
  else match d with
    | .IN => { s with inCsr := s.inCsr.put n { s.inCsr.get n with sendStall := st } }
    | .OUT => { s with outCsr := s.outCsr.put n { s.outCsr.get n with sendStall := st } }

/-! ### Chunks (R85) -/

/-- `remaining(E)` (R84). -/
def Entry.remaining (e : Entry) : Nat := e.len - e.prog

/-- `chunk = min(remaining(E), E.cap)` (R85). -/
def Entry.chunk (e : Entry) : Nat := min e.remaining e.cap

end Sys2Proof.Machine
end

