-- ==== Sys2Proof/Machine/Operands.lean ====
section
/-! DEFINITION. Operand forms: buffer references, admission of a region, and the checks every command shares (spec/30_encoding.md R103, R106; spec/44_driver_api.md R172). -/

namespace Sys2Proof.Machine

/-- A buffer address word: 0 is the null buffer, every other value `a` is `mem(a)` (R103). -/
def bufOfWord (w : Word) : Buf := if w = 0 then .none else .mem w.toNat

/-- Every address of `[a, a + len)` lies in one of the regions, which are in ascending order. -/
def coveredBy (rs : List MemRegion) (a len : Nat) : Bool :=
  match rs with
  | [] => decide (len = 0)
  | r :: t =>
    if r.base ≤ a ∧ a < r.base + r.size then coveredBy t (r.base + r.size) (len - (r.base + r.size - a))
    else coveredBy t a len

/-- `Admit(a, len)` (R172, R253): `a ≠ 0`, `a + len ≤ 2^AW`, and the memory holds every address of the region. -/
def admits (c : Cfg) (s : State) (a len : Nat) : Bool :=
  decide (a ≠ 0) && decide (a + len ≤ 2 ^ c.aw) && coveredBy s.memMap a len

/-- The checks that every command but INIT shares, in the order of R106: `phase`, then the entry or entries it names. -/
def commandCheck (s : State) (found : Bool) (f : State → Result) : Result :=
  if s.phase = .Off then .error (.refuse .NotInitialised)
  else if found = false then .error (.refuse .NoSuchEndpoint)
  else f s

/-- The kind of a `LogEV` word: 1 = suspend, 2 = resume; 0 and 3 are never produced (R109). -/
def logKindOf (kind : BitVec 2) : Option LogKind :=
  if kind = 1 then some .suspend
  else if kind = 2 then some .resume
  else none

/-- The bits of a log kind (R109). -/
def logKindBits (k : LogKind) : BitVec 2 :=
  match k with
  | .suspend => 1
  | .resume => 2

end Sys2Proof.Machine
end

