-- ==== Sys2Proof/Machine/Fifo.lean ====
section
/-! DEFINITION. The FIFO Transfer Engine: SELECT, DRAIN, FILL, FLUSH (spec/40_fifo_engine.md R130 to R134). -/

namespace Sys2Proof.Machine

/-- Where DRAIN stores: `bs` into the buffer of `e` at its progress offset (R77, R131). -/
def storeDrained (e : Entry) (bs : List Byte) (s : State) : Result :=
  match e.buf with
  | .none => .error (.fault .DrainNoBuffer)
  | .ctrl => .ok { s with ctrlBuf := writeCtrl s.ctrlBuf e.prog bs }
  | .mem a =>
    match s.writeBytes (a + e.prog) bs with
    | some s' => .ok s'
    | none => .error .outsideMemory

/-- DRAIN `ep, size` (R131): the oldest `size` bytes of `rx[ep]` leave it, and go to the buffer of `ep[ep][OUT]`. -/
def drain (c : Cfg) (ep : EpNum) (size : Nat) (s : State) : Result :=
  match s.entry ep .OUT with
  | none => .error .noSuchEntry
  | some e =>
    if e.buf = .none then .error (.fault .DrainNoBuffer)
    else if (s.rx.get ep).length < size then .error (.fault .FifoUnderrun)
    else if e.buf = .ctrl ∧ c.ctrlBufSize < e.prog + size then .error (.fault .CtrlOverrun)
    else storeDrained e ((s.rx.get ep).take size) { s with rx := s.rx.put ep ((s.rx.get ep).drop size) }

/-- The bytes FILL moves: `size` bytes of the buffer of `e` from its progress offset (R77, R132). The IN side never has
the control buffer; a state made by hand that says so faults (log 12). -/
def fetchFill (e : Entry) (size : Nat) (s : State) : Except Stop (List Byte) :=
  match e.buf with
  | .none => .error (.fault .FillNoBuffer)
  | .ctrl => .error (.fault .FillNoBuffer)
  | .mem a =>
    match s.readBytes (a + e.prog) size with
    | some bs => .ok bs
    | none => .error .outsideMemory

/-- FILL `ep, size` (R132): `size` bytes of the buffer of `ep[ep][IN]` are appended to `tx[ep]`. -/
def fill (ep : EpNum) (size : Nat) (s : State) : Result :=
  match s.entry ep .IN with
  | none => .error .noSuchEntry
  | some e =>
    if size = 0 then .ok s
    else if e.buf = .none then .error (.fault .FillNoBuffer)
    else if s.inPktRdy ep then .error (.fault .FifoBusy)
    else if e.cap < (s.tx.get ep).length + size then .error (.fault .FifoOverrun)
    else
      match fetchFill e size s with
      | .ok bs => .ok { s with tx := s.tx.put ep (s.tx.get ep ++ bs) }
      | .error st => .error st

/-- The action of writing 1 to the `FLUSH` flag of a data endpoint (R39, R133). -/
def flushAction (ep : EpNum) (d : Dir) (s : State) : State :=
  match d with
  | .IN => setInPktRdy ep false { s with tx := s.tx.put ep [] }
  | .OUT => setOutPktRdy ep false { s with rx := s.rx.put ep [] }

/-- FLUSH `ep, dir` (R133): nothing for a control entry; otherwise the packet in progress is discarded. -/
def flush (ep : EpNum) (d : Dir) (s : State) : State :=
  match s.entry ep d with
  | none => s
  | some e => if e.etype = .control then s else flushAction ep d (selectEp ep s)

/-! ### The instructions -/

/-- SELECT (R130). -/
def execSelect (ep : EpNum) (s : State) : Host.Outcome State Fault Refusal := conclude s (.ok (selectEp ep s))

/-- DRAIN (R131), in any configuration. -/
def execDrainIn (c : Cfg) (ep : EpNum) (size : Word) (s : State) : Host.Outcome State Fault Refusal :=
  conclude s (drain c ep size.toNat s)

/-- DRAIN (R131). -/
def execDrain (ep : EpNum) (size : Word) (s : State) : Host.Outcome State Fault Refusal :=
  execDrainIn Config.cfg ep size s

/-- FILL (R132). -/
def execFill (ep : EpNum) (size : Word) (s : State) : Host.Outcome State Fault Refusal :=
  conclude s (fill ep size.toNat s)

/-- FLUSH (R133); its operands name a present entry. -/
def execFlush (ep : EpNum) (d : Dir) (s : State) : Host.Outcome State Fault Refusal :=
  conclude s (if s.present ep d then .ok (flush ep d s) else .error .noSuchEntry)

end Sys2Proof.Machine
end

