-- ==== Sys2Proof/Machine/Control.lean ====
section
/-! DEFINITION. The control-endpoint state machine: CTRLH, EP0SEND (spec/41_control_endpoint.md R140 to R142). -/

namespace Sys2Proof.Machine

/-- EP0 makes the packet in `tx[0]` ready, with data-end, and returns to Idle (R141). -/
def ep0Last (s : State) : State := ep0ToIdle (commitPacket 0 true (signalEp0 true s))

/-- EP0 makes the packet in `tx[0]` ready and stays Transmitting (R141). -/
def ep0More (s : State) : State := commitPacket 0 false (signalEp0 false s)

/-- EP0SEND (R141): the response-chunking algorithm on `ep[0][IN]`. -/
def ep0send (s : State) : Result :=
  match s.entry 0 .IN with
  | none => .error .noSuchEntry
  | some e =>
    if e.len = 0 then .ok (ep0Last (selectEp 0 s))
    else
      andThen (fill 0 e.chunk (selectEp 0 s)) (fun s1 =>
        let s2 := s1.putEntry 0 .IN { e with prog := e.prog + e.chunk }
        if e.len ≤ e.prog + e.chunk then .ok (ep0Last s2) else .ok (ep0More s2))

/-- CTRLH step 3 (R140): a control packet is drained into the control buffer, acknowledged and handed upstream. -/
def receiveSetup (c : Cfg) (s : State) : Result :=
  andThen (drain c 0 (s.rxCount 0) s) (fun s1 =>
    let s2 := clearDataAvail s1
    .ok (emit (.onControlRequest s2.ctrlBuf (s.rxCount 0)) s2))

/-- CTRLH (R140): one read of `CSR0` and of `ep0state`, and exactly one of the four steps. -/
def ctrlh (c : Cfg) (s0 : State) : Result :=
  let s := selectEp 0 s0
  if s.csr0.sentStall then .ok (ep0ToIdle (clearSentStall0 s))
  else if s.csr0.setupEnd then .ok (ep0ToIdle (clearSetupEnd s))
  else
    match s.ep0state with
    | .Idle => if s.csr0.dataAvail then receiveSetup c s else .ok s
    | .Transmitting => ep0send s
    | .Receiving => .ok s

/-! ### The instructions -/

/-- CTRLH (R140), in any configuration. -/
def execCtrlhIn (c : Cfg) (s : State) : Host.Outcome State Fault Refusal := conclude s (ctrlh c s)

/-- CTRLH (R140). -/
def execCtrlh (s : State) : Host.Outcome State Fault Refusal := execCtrlhIn Config.cfg s

/-- EP0SEND (R141). -/
def execEp0send (s : State) : Host.Outcome State Fault Refusal := conclude s (ep0send s)

end Sys2Proof.Machine
end

