-- ==== Sys2Proof/Machine/DataEndpoint.lean ====
section
/-! DEFINITION. The data-endpoint handlers: INH, OUTH (spec/42_data_endpoint_handlers.md R150 to R152). -/

namespace Sys2Proof.Machine

/-- The missing-transfer guard of both handlers (R150, R151, R152): no transfer queued, or the reserved DMA path. -/
def Entry.guarded (e : Entry) : Bool := decide (e.buf = .none) || e.usesDma

/-- The entry of a data endpoint in direction `d`; `none` for endpoint 0, which is no data endpoint (R152 d; log 10). -/
def State.dataEntry (s : State) (ep : EpNum) (d : Dir) : Option Entry := if ep = 0 then none else s.entry ep d

/-- What INH does after FILL has moved the chunk (R150): packet-ready, commit, progress, completion. -/
def inhAfterFill (ep : EpNum) (e : Entry) (s : State) : State :=
  let s1 := commitPacket ep false (setInPktRdy ep true s)
  let s2 := s1.putEntry ep .IN { e with prog := e.prog + e.chunk }
  if e.len ≤ e.prog + e.chunk then clearEntry ep .IN (emit (.onTransferComplete ep .IN 0 (e.prog + e.chunk)) s2)
  else s2

/-- INH `ep` (R150). -/
def inh (ep : EpNum) (s0 : State) : Result :=
  match s0.dataEntry ep .IN with
  | none => .ok s0
  | some e =>
    if e.guarded then .ok s0
    else
      let s := selectEp ep s0
      if (s.inCsr.get ep).sentStall then .ok (clearSentStallIn ep s)
      else if s.fifoNotEmpty ep then .ok s
      else andThen (fill ep e.chunk s) (fun s1 => .ok (inhAfterFill ep e s1))

/-- What OUTH does after DRAIN has moved `cnt` bytes (R151): progress, acknowledgement, completion. -/
def outhAfterDrain (ep : EpNum) (e : Entry) (cnt : Nat) (s : State) : State :=
  let s1 := s.putEntry ep .OUT { e with prog := e.prog + cnt }
  let s2 := setOutPktRdy ep false s1
  if cnt < e.cap ∨ e.len ≤ e.prog + cnt then
    clearEntry ep .OUT (emit (.onTransferComplete ep .OUT 0 (e.prog + cnt)) s2)
  else s2

/-- OUTH `ep` (R151). -/
def outh (c : Cfg) (ep : EpNum) (s0 : State) : Result :=
  match s0.dataEntry ep .OUT with
  | none => .ok s0
  | some e =>
    if e.guarded then .ok s0
    else
      let s := selectEp ep s0
      if (s.outCsr.get ep).sentStall then .ok (clearSentStallOut ep s)
      else if (s.outCsr.get ep).outPktRdy = false then .error (.fault .NoPacket)
      else if e.remaining < s.rxCount ep then .error (.fault .BufferOverrun)
      else andThen (drain c ep (s.rxCount ep) s) (fun s1 => .ok (outhAfterDrain ep e (s.rxCount ep) s1))

/-! ### The instructions -/

/-- INH (R150). -/
def execInh (ep : EpNum) (s : State) : Host.Outcome State Fault Refusal := conclude s (inh ep s)

/-- OUTH (R151), in any configuration. -/
def execOuthIn (c : Cfg) (ep : EpNum) (s : State) : Host.Outcome State Fault Refusal := conclude s (outh c ep s)

/-- OUTH (R151). -/
def execOuth (ep : EpNum) (s : State) : Host.Outcome State Fault Refusal := execOuthIn Config.cfg ep s

end Sys2Proof.Machine
end

