-- ==== Sys2Proof/Machine/Interrupt.lean ====
section
/-! DEFINITION. The reset sequence (spec/70_reset_and_hazards.md R250) and the interrupt dispatcher: IRQ, RESETH (spec/43_interrupt_dispatcher.md R160 to R162). -/

namespace Sys2Proof.Machine

/-- The capacity the reset sequence gives an entry of type `t` at link speed `hs` (R23, R250). -/
def resetCap (c : Cfg) (hs : Bool) (t : EpType) : Nat :=
  match t with
  | .control => c.capCtrl
  | .interrupt => c.capInt
  | .bulk => if hs then c.capBulkHs else c.capBulkFs

/-- The entry `ep[n][d]` with its capacity re-derived (R250). -/
def rederiveCap (c : Cfg) (n : EpNum) (d : Dir) (s : State) : State :=
  match s.entry n d with
  | none => s
  | some e => s.putEntry n d { e with cap := resetCap c s.hsMode e.etype }

/-- The body of the reset sequence's loop, for one key (R250): capacity, flush, clear. -/
def resetEntry (c : Cfg) (n : EpNum) (d : Dir) (s : State) : State :=
  clearEntry n d (flush n d (rederiveCap c n d s))

/-- The interrupt enables of the data endpoints that have an entry, set; the others as they are (R250). -/
def enableData (s : State) : State :=
  { s with
    intrInE := Vector.ofFn (fun n : EpNum => if n ≠ 0 ∧ s.present n .IN then true else s.intrInE.get n)
    intrOutE := Vector.ofFn (fun n : EpNum => if n ≠ 0 ∧ s.present n .OUT then true else s.intrOutE.get n) }

/-- `reset_sequence` (R250). -/
def resetSequence (c : Cfg) (s : State) : State :=
  let s1 := forKeys tableOrder (resetEntry c) { s with faddr := 0 }
  enableData { s1 with ep0state := .Idle }

/-- RESETH (R161): the reset sequence, then `OnBusReset`. -/
def reseth (c : Cfg) (s : State) : State := emit .onBusReset (resetSequence c s)

/-- The snapshot's clearing read of the four status registers (R41, R160). -/
def clearPending (s : State) : State :=
  { s with intrUsb := UsbFlags.zero, intrIn := Bank.all false, intrOut := Bank.all false, dmaIntr := 0 }

/-- A handler called when its bit of the snapshot is set and its entry is present (R160). -/
def ifBit (bits : Bank Bool) (h : EpNum → State → Result) (n : EpNum) (s : State) : Result :=
  if bits.get n then h n s else .ok s

/-- The last three tests of R160: bus reset, suspend, resume. -/
def usbEvents (c : Cfg) (u : UsbFlags) (s : State) : State :=
  let s1 := if u.reset then reseth c s else s
  let s2 := if u.suspend then emit (.log .suspend) s1 else s1
  if u.resume then emit (.log .resume) s2 else s2

/-- The routing of R160 for the snapshot in `snap`, run on the state with the registers cleared: control, IN ascending,
OUT ascending, bus reset, suspend, resume. INH and OUTH do nothing for a number with no entry (R152 d). -/
def route (c : Cfg) (snap : State) (s : State) : Result :=
  andThen (if snap.intrIn.get 0 then ctrlh c s else .ok s) (fun s1 =>
  andThen (forNumbers dataNumbers (ifBit snap.intrIn inh) s1) (fun s2 =>
  andThen (forNumbers dataNumbers (ifBit snap.intrOut (outh c)) s2) (fun s3 =>
    .ok (usbEvents c snap.intrUsb s3))))

/-- IRQ (R160): one invocation of the dispatcher. -/
def irq (c : Cfg) (s : State) : Result :=
  if s.noPending then .ok (clearPending s) else route c s (clearPending s)

/-! ### The instructions -/

/-- IRQ (R160), in any configuration. -/
def execIrqIn (c : Cfg) (s : State) : Host.Outcome State Fault Refusal := conclude s (irq c s)

/-- IRQ (R160). When the step is enabled (`phase = On`, not masked) is `State.irqEnabled`; every way `step` comes to an
IRQ step asks it first, the direct invocation included (log 14). -/
def execIrq (s : State) : Host.Outcome State Fault Refusal := execIrqIn Config.cfg s

/-- RESETH (R161), in any configuration. -/
def execResethIn (c : Cfg) (s : State) : Host.Outcome State Fault Refusal := conclude s (.ok (reseth c s))

/-- RESETH (R161). -/
def execReseth (s : State) : Host.Outcome State Fault Refusal := execResethIn Config.cfg s

end Sys2Proof.Machine
end

