-- ==== Sys2Proof/Machine/DriverApi.lean ====
section
/-! DEFINITION. The Driver API: INIT, SHUTDOWN, SEND, RECV, CANCELALL, STALL, ISSTALLED, PORTSPEED, CONNECTED (spec/44_driver_api.md R170 to R179), with the refusals of spec/30_encoding.md R106. -/

namespace Sys2Proof.Machine

/-! ### INIT and SHUTDOWN -/

/-- Power-up of the domain: every flag and field of R37 to R43 is 0 and every FIFO is empty (R170). -/
def powerUp (c : Cfg) (s : State) : State :=
  { s with
    domainPower := true
    index := 0, csr0 := Csr0.zero, inCsr := Bank.all InCsr.zero, outCsr := Bank.all OutCsr.zero
    intrUsb := UsbFlags.zero, intrIn := Bank.all false, intrOut := Bank.all false, dmaIntr := 0
    intrUsbE := UsbFlags.zero, intrInE := Bank.all false, intrOutE := Bank.all false
    hsMode := false, busConnect := false, faddr := 0, testMode := 0, dmaCntl := List.replicate c.ndma 0
    tx := Bank.all [], rx := Bank.all [] }

/-- The two enables of INIT and the attachment to the bus (R170). -/
def attach (s : State) : State :=
  { s with
    intrInE := s.intrInE.put 0 true
    intrUsbE := { s.intrUsbE with reset := true }
    busConnect := true }

/-- INIT (R170). -/
def init (c : Cfg) (s : State) : Result :=
  if s.phase = .On then .error (.refuse .AlreadyInitialised)
  else .ok (attach (resetSequence c { powerUp c s with phase := .On }))

/-- SHUTDOWN (R171). -/
def shutdown (c : Cfg) (s : State) : State :=
  { s with
    intrInE := Bank.all false, intrOutE := Bank.all false, intrUsbE := UsbFlags.zero
    dmaCntl := List.replicate c.ndma 0
    busConnect := false
    domainPower := false
    phase := .Off }

/-! ### SEND and RECV -/

/-- The interrupt mask of the critical section (R44, R79). -/
def setMask (b : Bool) (s : State) : State := { s with irqMasked := b }

/-- The three per-transfer fields written as one update (R172, R173, R174 c). -/
def Entry.accept (e : Entry) (buf len : Word) : Entry := { e with buf := bufOfWord buf, len := len.toNat, prog := 0 }

/-- The refusals SEND and RECV share, in the order of their pseudocode; `busy` is their own last test (R172, R173). -/
def transferCheck (c : Cfg) (s : State) (buf len : Word) (busy : Bool) (f : State → Result) : Result :=
  if buf = 0 ∧ len ≠ 0 then .error (.refuse .NullBufferWithLength)
  else if buf ≠ 0 ∧ admits c s buf.toNat len.toNat = false then .error (.refuse .BadRegion)
  else if busy then .error (.refuse .Busy)
  else f s

/-- SEND's critical section (R172): the descriptor is recorded and the handler is kicked once. -/
def sendKick (ep : EpNum) (e : Entry) (buf len : Word) (s : State) : Result :=
  let s1 := (setMask true s).putEntry ep .IN (e.accept buf len)
  andThen (if ep = 0 then ep0send { s1 with ep0state := .Transmitting } else inh ep s1)
    (fun s2 => .ok (setMask false s2))

/-- SEND `ep, buf, len` on the present entry `e` (R172). -/
def send (c : Cfg) (ep : EpNum) (e : Entry) (buf len : Word) (s : State) : Result :=
  if ep = 0 ∧ buf = 0 ∧ len = 0 then .ok s
  else
    transferCheck c s buf len (decide (e.buf ≠ .none) || (decide (ep = 0) && decide (s.ep0state ≠ .Idle)))
      (sendKick ep e buf len)

/-- RECV's critical section (R173): the descriptor is recorded, nothing is kicked. -/
def recvRecord (ep : EpNum) (e : Entry) (buf len : Word) (s : State) : Result :=
  .ok (setMask false ((setMask true s).putEntry ep .OUT (e.accept buf len)))

/-- RECV `ep, buf, len` on the present entry `e` (R173). -/
def recv (c : Cfg) (ep : EpNum) (e : Entry) (buf len : Word) (s : State) : Result :=
  if ep = 0 then
    if buf = 0 ∧ len = 0 then .ok s else .error (.refuse .ControlReceiveUnsupported)
  else transferCheck c s buf len (decide (e.buf ≠ .none)) (recvRecord ep e buf len)

/-- Runs `f` on the entry a command names, or refuses `NoSuchEndpoint` (R106). -/
def withEntry (s : State) (ep : EpNum) (d : Dir) (f : Entry → State → Result) : Result :=
  commandCheck s (s.present ep d) (fun s =>
    match s.entry ep d with
    | some e => f e s
    | none => .error (.refuse .NoSuchEndpoint))

/-! ### CANCELALL -/

/-- The body of CANCELALL's loop (R175). -/
def cancelEntry (n : EpNum) (d : Dir) (s : State) : State := clearEntry n d (flush n d s)

/-- CANCELALL (R175). -/
def cancelAll (s : State) : State :=
  setMask false { forKeys tableOrder cancelEntry (setMask true s) with ep0state := .Idle }

/-! ### The queries -/

/-- One 32-bit result word, 1 or 0 (R108). -/
def boolWord (b : Bool) : Word := if b then 1 else 0

/-- The result word returned to the issuer (R108; log 8). -/
def answer (b : Bool) (s : State) : State := { s with result := some (boolWord b) }

/-! ### The instructions -/

/-- INIT (R170), in any configuration. -/
def execInitIn (c : Cfg) (s : State) : Host.Outcome State Fault Refusal := conclude s (init c s)

/-- INIT (R170). -/
def execInit (s : State) : Host.Outcome State Fault Refusal := execInitIn Config.cfg s

/-- SHUTDOWN (R171), in any configuration. -/
def execShutdownIn (c : Cfg) (s : State) : Host.Outcome State Fault Refusal :=
  conclude s (commandCheck s true (fun s => .ok (shutdown c s)))

/-- SHUTDOWN (R171). -/
def execShutdown (s : State) : Host.Outcome State Fault Refusal := execShutdownIn Config.cfg s

/-- SEND (R172), in any configuration. -/
def execSendIn (c : Cfg) (ep : EpNum) (buf len : Word) (s : State) : Host.Outcome State Fault Refusal :=
  conclude s (withEntry s ep .IN (fun e s => send c ep e buf len s))

/-- SEND (R172). -/
def execSend (ep : EpNum) (buf len : Word) (s : State) : Host.Outcome State Fault Refusal :=
  execSendIn Config.cfg ep buf len s

/-- RECV (R173), in any configuration. -/
def execRecvIn (c : Cfg) (ep : EpNum) (buf len : Word) (s : State) : Host.Outcome State Fault Refusal :=
  conclude s (withEntry s ep .OUT (fun e s => recv c ep e buf len s))

/-- RECV (R173). -/
def execRecv (ep : EpNum) (buf len : Word) (s : State) : Host.Outcome State Fault Refusal :=
  execRecvIn Config.cfg ep buf len s

/-- CANCELALL (R175). -/
def execCancelall (s : State) : Host.Outcome State Fault Refusal :=
  conclude s (commandCheck s true (fun s => .ok (cancelAll s)))

/-- STALL (R176). -/
def execStall (ep : EpNum) (dir : Dir) (st : Bool) (s : State) : Host.Outcome State Fault Refusal :=
  conclude s (commandCheck s (s.present ep dir) (fun s => .ok (putSendStall ep dir st (selectEp ep s))))

/-- ISSTALLED (R177): the request, not whether a stall has been sent. -/
def execIsstalled (ep : EpNum) (dir : Dir) (s : State) : Host.Outcome State Fault Refusal :=
  conclude s (commandCheck s (s.present ep dir) (fun s => .ok (answer (s.sendStall ep dir) (selectEp ep s))))

/-- PORTSPEED (R178). -/
def execPortspeed (s : State) : Host.Outcome State Fault Refusal :=
  conclude s (commandCheck s true (fun s => .ok (answer s.hsMode s)))

/-- CONNECTED (R179). -/
def execConnected (s : State) : Host.Outcome State Fault Refusal :=
  conclude s (commandCheck s true (fun s => .ok (answer s.vbusSense s)))

end Sys2Proof.Machine
end

