-- ==== Sys2Proof/Machine/Notify.lean ====
section
/-! DEFINITION. The notifications to the upstream USB core: ONCTRLREQ, ONXFERDONE, ONBUSRESET, LOGEV (spec/46_upstream_events.md R210 to R214), and their words (spec/30_encoding.md R109). -/

namespace Sys2Proof.Machine

/-- The operation whose words a notification is sent as (R109). -/
def Notification.toInstr (x : Notification) : Instr :=
  match x with
  | .onControlRequest data count => .onctrlreq (BitVec.ofNat 7 count) data
  | .onTransferComplete n d status bytes => .onxferdone status d n (BitVec.ofNat 32 bytes)
  | .onBusReset => .onbusreset
  | .log kind => .logev (logKindBits kind)

/-- The words of a notification (R109). -/
def Notification.words (x : Notification) : List Word := encode x.toInstr

/-! ### The instructions: each is an element appended to `up_log` by `emit` (logs 9, 13) -/

/-- ONCTRLREQ (R210). -/
def execOnctrlreq (count : BitVec 7) (data : Vector Byte 64) (s : State) : Host.Outcome State Fault Refusal :=
  conclude s (.ok (emit (.onControlRequest data count.toNat) s))

/-- ONXFERDONE (R211). -/
def execOnxferdone (status : BitVec 8) (dir : Dir) (ep : EpNum) (bytes : Word) (s : State) :
    Host.Outcome State Fault Refusal :=
  conclude s (.ok (emit (.onTransferComplete ep dir status bytes.toNat) s))

/-- ONBUSRESET (R212). -/
def execOnbusreset (s : State) : Host.Outcome State Fault Refusal := conclude s (.ok (emit .onBusReset s))

/-- LOGEV (R213); the kinds 0 and 3 are never produced (R109). -/
def execLogev (kind : BitVec 2) (s : State) : Host.Outcome State Fault Refusal :=
  match logKindOf kind with
  | some k => conclude s (.ok (emit (.log k) s))
  | none => .refused .neverProduced

end Sys2Proof.Machine
end

