-- ==== Sys2Proof/Machine/BusAgent.lean ====
section
/-! DEFINITION. The bus agent and the platform: the moves of spec/45_bus_agent.md R190 to R200, each with its precondition and its effect. -/

namespace Sys2Proof.Machine

/-- The bus agent moves only when `phase = On` and `bus_connect = 1` (R190). -/
def State.busUp (s : State) : Bool := decide (s.phase = .On) && s.busConnect

/-- A pending-interrupt flag of the IN side set. -/
def raiseIn (n : EpNum) (s : State) : State := { s with intrIn := s.intrIn.put n true }

/-- A pending-interrupt flag of the OUT side set. -/
def raiseOut (n : EpNum) (s : State) : State := { s with intrOut := s.intrOut.put n true }

/-- The packet of endpoint 0 leaves the transmit FIFO, with its two flags (R192, R195, R196). -/
def dropEp0Packet (s : State) : State :=
  { s with tx := s.tx.put 0 [], csr0 := { s.csr0 with inPktRdy := false, dataEnd := false } }

/-- The precondition of a move, beyond R190. -/
def BusMove.pre (m : BusMove) (c : Cfg) (s : State) : Bool :=
  match m with
  | .setup bytes => !s.csr0.dataAvail && decide (bytes.length ≤ c.capCtrl)
  | .ep0Taken => s.csr0.inPktRdy
  | .out n bytes =>
    match s.dataEntry n .OUT with
    | none => false
    | some e => !(s.outCsr.get n).outPktRdy && !(s.outCsr.get n).sendStall && decide (bytes.length ≤ e.cap)
  | .inTaken n => decide (n ≠ 0) && (s.inCsr.get n).inPktRdy && !(s.inCsr.get n).sendStall
  | .stallSent n d => s.sendStall n d
  | .setupEnd => true
  | .ep0Irq => true
  | .busReset _ => true
  | .suspend => true
  | .resume => true

/-- B_STALL_SENT (R195): endpoint 0's request clears itself, a data endpoint's stays. -/
def stallSentMove (n : EpNum) (d : Dir) (s : State) : State :=
  if n = 0 then
    raiseIn 0 (dropEp0Packet { s with csr0 := { s.csr0 with sentStall := true, sendStall := false } })
  else match d with
    | .IN => raiseIn n { s with inCsr := s.inCsr.put n { s.inCsr.get n with sentStall := true } }
    | .OUT => raiseOut n { s with outCsr := s.outCsr.put n { s.outCsr.get n with sentStall := true } }

/-- B_BUS_RESET (R198). -/
def busResetMove (hs : Bool) (s : State) : State :=
  { s with
    intrUsb := { s.intrUsb with reset := true }
    hsMode := hs
    faddr := 0
    csr0 := Csr0.zero
    inCsr := Bank.all InCsr.zero
    outCsr := Bank.all OutCsr.zero
    tx := Bank.all []
    rx := Bank.all [] }

/-- The effect of a move (R191 to R199). -/
def BusMove.apply (m : BusMove) (s : State) : State :=
  match m with
  | .setup bytes => raiseIn 0 { s with rx := s.rx.put 0 bytes, csr0 := { s.csr0 with dataAvail := true } }
  | .ep0Taken => raiseIn 0 (dropEp0Packet s)
  | .out n bytes => raiseOut n (setOutPktRdy n true { s with rx := s.rx.put n bytes })
  | .inTaken n => raiseIn n (setInPktRdy n false { s with tx := s.tx.put n [] })
  | .stallSent n d => stallSentMove n d s
  | .setupEnd => raiseIn 0 (dropEp0Packet { s with csr0 := { s.csr0 with setupEnd := true } })
  | .ep0Irq => raiseIn 0 s
  | .busReset hs => busResetMove hs s
  | .suspend => { s with intrUsb := { s.intrUsb with suspend := true } }
  | .resume => { s with intrUsb := { s.intrUsb with resume := true } }

/-- A step of the bus agent: its effect when it is enabled (R190). -/
def busStep (c : Cfg) (m : BusMove) (s : State) : Host.Outcome State Fault Refusal :=
  if s.busUp && m.pre c s then .next (m.apply s) else .refused .moveNotEnabled

/-- P_VBUS (R200): allowed between any two steps, in any phase. -/
def vbusStep (b : Bool) (s : State) : Host.Outcome State Fault Refusal := .next { s with vbusSense := b }

end Sys2Proof.Machine
end

