-- ==== Sys2Proof/Machine/Dispatch.lean ====
section
/-! DEFINITION. The dispatch of the operations: one arm per constructor of Instr, each one call of its meaning. -/

namespace Sys2Proof.Machine

def exec (i : Instr) (s : State) : Host.Outcome State Fault Refusal :=
  match i with
  | .init => Sys2Proof.Machine.execInit s
  | .shutdown => Sys2Proof.Machine.execShutdown s
  | .send ep buf len => Sys2Proof.Machine.execSend ep buf len s
  | .recv ep buf len => Sys2Proof.Machine.execRecv ep buf len s
  | .cancelall => Sys2Proof.Machine.execCancelall s
  | .stall ep dir st => Sys2Proof.Machine.execStall ep dir st s
  | .isstalled ep dir => Sys2Proof.Machine.execIsstalled ep dir s
  | .portspeed => Sys2Proof.Machine.execPortspeed s
  | .connected => Sys2Proof.Machine.execConnected s
  | .irq => Sys2Proof.Machine.execIrq s
  | .ctrlh => Sys2Proof.Machine.execCtrlh s
  | .inh ep => Sys2Proof.Machine.execInh ep s
  | .outh ep => Sys2Proof.Machine.execOuth ep s
  | .reseth => Sys2Proof.Machine.execReseth s
  | .select ep => Sys2Proof.Machine.execSelect ep s
  | .drain ep size => Sys2Proof.Machine.execDrain ep size s
  | .fill ep size => Sys2Proof.Machine.execFill ep size s
  | .flush ep dir => Sys2Proof.Machine.execFlush ep dir s
  | .ep0send => Sys2Proof.Machine.execEp0send s
  | .onctrlreq count data => Sys2Proof.Machine.execOnctrlreq count data s
  | .onxferdone status dir ep bytes => Sys2Proof.Machine.execOnxferdone status dir ep bytes s
  | .onbusreset => Sys2Proof.Machine.execOnbusreset s
  | .logev kind => Sys2Proof.Machine.execLogev kind s

end Sys2Proof.Machine
end

