-- ==== Sys2Proof/Machine/Fetch.lean ====
section
/-! DEFINITION. What the next top-level step is (spec/30_encoding.md R105 to R107, R112; spec/70_reset_and_hazards.md R256, R257): taking it from the program, the command port, and the direct invocation of an operation. -/

namespace Sys2Proof.Machine

/-- What a step does: run an operation on a state, or end with an outcome that needs no operation. -/
inductive Fetched where
  | run (i : Instr) (s : State)
  | done (o : Host.Outcome State Fault Refusal)
  deriving Repr

/-- The refusal reason of R222 for a rejection of the decoder (R106). -/
def reasonOf (w : DecodeReject) : RefusalReason :=
  match w with
  | .unknownOpcode => .UnknownOpcode
  | .reservedBits => .ReservedBits

/-- The program from which an operation has been taken: the words that are left stay at the command port (R107). -/
def State.leavePort (s : State) (rest : List Word) (p : List TopStep) : State :=
  { s with program := if rest = [] then p else .port rest :: p }

/-- The command port (R105, R106): the reasons in the order `UnknownOpcode`, `NotACommand`, `ReservedBits`; then the
command runs, with the refusals of its own. `p` is the rest of the program. -/
def portFetch (ws : List Word) (p : List TopStep) (s : State) : Fetched :=
  match ws with
  | [] => .done (.refused .incompleteOperation)
  | h :: t =>
    match rowOf (opField h) with
    | none => .done (.next ((s.leavePort t p).markRefused .UnknownOpcode))
    | some r =>
      if t.length < r.format.operandWords then .done (.refused .incompleteOperation)
      else if r.cls ≠ .command then
        .done (.next ((s.leavePort (t.drop r.format.operandWords) p).markRefused .NotACommand))
      else
        match decode ws with
        | .op i rest => .run i (s.leavePort rest p)
        | .rejected why rest => .done (.next ((s.leavePort rest p).markRefused (reasonOf why)))
        | .incomplete => .done (.refused .incompleteOperation)

/-- The IRQ step, when it is enabled: `phase = On` and not masked (R45, R160; log 14). -/
def irqFetch (p : List TopStep) (s : State) : Fetched :=
  if s.irqEnabled then .run .irq { s with program := p } else .done (.refused .irqNotEnabled)

/-- A direct invocation (R105; log 9): the words are exactly one operation, of any class. IRQ given by its words is the IRQ
step and is held to its enabling (R160; log 14). DESIGN CHOICE (log 9): no other operation invoked directly is held to
`phase` or `irq_masked` here; CTRLH, INH, OUTH and RESETH run in `phase = Off` and while masked too, as functions of the
state, where the spec's own agents call them inside an IRQ step or a command only. -/
def invokeFetch (ws : List Word) (p : List TopStep) (s : State) : Fetched :=
  match decode ws with
  | .op i [] => if i = .irq then irqFetch p s else .run i { s with program := p }
  | .op _ (_ :: _) => .done (.refused .notAnOperation)
  | .rejected _ _ => .done (.refused .notAnOperation)
  | .incomplete => .done (.refused .incompleteOperation)

/-- The next step of a state that is not faulted. With no top-level step to come, the interrupt line is served if it is
raised (R257), and otherwise the block waits: "nothing advances by itself" (R32; log 1). -/
def nextStep (c : Cfg) (s : State) : Fetched :=
  match s.program with
  | [] => if s.irqLine then .run .irq s else .done (.next s)
  | .port ws :: p => portFetch ws p s
  | .irq :: p => irqFetch p s
  | .bus m :: p => .done (busStep c m { s with program := p })
  | .vbus b :: p => .done (vbusStep b { s with program := p })
  | .invoke ws :: p => invokeFetch ws p s

/-- "No step is enabled once `fault` is set" (R50, R256). -/
def fetch (c : Cfg) (s : State) : Fetched :=
  match s.fault with
  | some r => .done (.fault (.halted r))
  | none => nextStep c s

/-- The top-level step that issues the operation with these words: a command goes to the command port, IRQ is the line
`IRQ` of R112, every other operation is invoked directly (R105). -/
def issue (ws : List Word) : TopStep :=
  match decode ws with
  | .op i _ => if i.cls = .command then .port ws else if i = .irq then .irq else .invoke ws
  | .rejected _ _ => .port ws
  | .incomplete => .port ws

/-- The words of one operation whose bits are `w`: as many as its opcode says (R107). -/
def operationWords (nbits w : Nat) : List Word :=
  let ws := tableWords nbits w
  ws.take (lengthOf (ws.headD 0))

/-- What a top-level step needs of the state before it can be the next one: the IRQ step needs `phase = On` and no mask
(R160); the others need nothing (log 14). -/
def enableFor (m : TopStep) (s : State) : State :=
  if m = .irq then { s with phase := .On, irqMasked := false } else s

/-- That operation issued first, and what its step needs (log 1). -/
def placeFirst (nbits w : Nat) (s : State) : State :=
  let m := issue (operationWords nbits w)
  enableFor m { s with program := m :: s.program }

end Sys2Proof.Machine
end

