-- ==== Sys2Proof/Machine/Step.lean ====
section
/-! DEFINITION. One step of the machine: the next top-level step of the program (spec/00_scope.md R8, R9; spec/30_encoding.md R112). -/

namespace Sys2Proof.Machine

/-- One step of the hardware of R1: what `fetch` says comes next, run by `exec` where it is an operation. It is `stepIn` of
Machine/Instance.lean at the default configuration. -/
def step (s : State) : Host.Outcome State Fault Refusal :=
  match fetch Config.cfg s with
  | .run i t => exec i t
  | .done o => o

/-- `s` with one operation placed as the next top-level step (log 1): its words at the command port if it is a command,
as the IRQ step, which it enables, if it is IRQ, and as a direct invocation if it is of another class (R105). -/
def State.withFetchWord (s : State) (nbits w : Nat) : State := placeFirst nbits w s

end Sys2Proof.Machine
end

