-- ==== Sys2Proof/Machine/Instance.lean ====
section
/-! DEFINITION. The machine with the configuration as an argument (spec/00_scope.md R6; spec/10_state.md R20: "a parameter of every step"; spec/60_exceptions.md R232). `exec` and `step` are its values at the default, the hardware of R1 (log 16). -/

namespace Sys2Proof.Machine

/-- One operation in the configuration `c` (R6). The operations without a `c` name no parameter. -/
def execIn (c : Cfg) (i : Instr) (s : State) : Host.Outcome State Fault Refusal :=
  match i with
  | .init => execInitIn c s
  | .shutdown => execShutdownIn c s
  | .send ep buf len => execSendIn c ep buf len s
  | .recv ep buf len => execRecvIn c ep buf len s
  | .cancelall => execCancelall s
  | .stall ep dir st => execStall ep dir st s
  | .isstalled ep dir => execIsstalled ep dir s
  | .portspeed => execPortspeed s
  | .connected => execConnected s
  | .irq => execIrqIn c s
  | .ctrlh => execCtrlhIn c s
  | .inh ep => execInh ep s
  | .outh ep => execOuthIn c ep s
  | .reseth => execResethIn c s
  | .select ep => execSelect ep s
  | .drain ep size => execDrainIn c ep size s
  | .fill ep size => execFill ep size s
  | .flush ep dir => execFlush ep dir s
  | .ep0send => execEp0send s
  | .onctrlreq count data => execOnctrlreq count data s
  | .onxferdone status dir ep bytes => execOnxferdone status dir ep bytes s
  | .onbusreset => execOnbusreset s
  | .logev kind => execLogev kind s

/-- One step in the configuration `c`. -/
def stepIn (c : Cfg) (s : State) : Host.Outcome State Fault Refusal :=
  match fetch c s with
  | .run i t => execIn c i t
  | .done o => o

/-- The machine of a configuration (R6). Two instances are two values and share nothing (R232). -/
def machine (c : Cfg) : Host.Core :=
  { State := State, Fault := Fault, Refusal := Refusal, step := stepIn c, reset := State.powerOn c }

end Sys2Proof.Machine
end

