-- ==== Sys2Proof/Safety.lean ====
section
/-! DEFINITION. What counts as a good state and a finished run: the invariants the spec states (spec/10_state.md R22, R23, R24, R27, R30, R34, R44, R46, R51) and the three endings of spec/70_reset_and_hazards.md R256. -/

namespace Sys2Proof.Machine

/-! ### The invariants -/

/-- The table has exactly the build-time entries, with their immutable fields (R21, R22). -/
abbrev TableShape (c : Cfg) (s : State) : Prop :=
  ∀ n : EpNum,
    (s.entry n .OUT).map (fun e => (e.etype, e.usesDma)) = (c.entryAt n .OUT).map (fun k => (k.etype, k.usesDma))
      ∧ (s.entry n .IN).map (fun e => (e.etype, e.usesDma)) = (c.entryAt n .IN).map (fun k => (k.etype, k.usesDma))

/-- A capacity is one the reset sequence can derive (R23, R250). -/
def CapDerived (c : Cfg) (e : Entry) : Prop := e.cap = resetCap c true e.etype ∨ e.cap = resetCap c false e.etype

/-- The buffer reference of an entry (R24, R27, R28): the control buffer is held by (0,OUT) and by no other entry, an
entry without a buffer is empty, and a caller's region was admitted. -/
def BufOk (c : Cfg) (s : State) (n : EpNum) (d : Dir) (e : Entry) : Prop :=
  match e.buf with
  | .none => (n, d) ≠ (0, .OUT) ∧ e.len = 0 ∧ e.prog = 0
  | .ctrl => (n, d) = (0, .OUT) ∧ e.len = 0 ∧ e.prog = 0
  | .mem a => (n, d) ≠ (0, .OUT) ∧ admits c s a e.len = true

/-- The invariants of every entry (R23, R25, R26, R27). -/
def EntryOk (c : Cfg) (s : State) (n : EpNum) (d : Dir) (e : Entry) : Prop :=
  e.prog ≤ e.len ∧ e.len < 2 ^ c.lw ∧ CapDerived c e ∧ BufOk c s n d e

/-- Every entry of the table meets its invariants. -/
def EntriesOk (c : Cfg) (s : State) : Prop := ∀ n d e, s.entry n d = some e → EntryOk c s n d e

/-- `Receiving` is never reached, and Transmitting is the state in which a response is in flight (R27, R30, R31). -/
def Ep0Ok (s : State) : Prop :=
  s.ep0state ≠ .Receiving
    ∧ (s.ep0state = .Transmitting ↔ ∃ e, s.entry 0 .IN = some e ∧ e.buf ≠ .none)

/-- The capacity of `ep[n][d]`; 0 where there is no entry. -/
def State.capOf (s : State) (n : EpNum) (d : Dir) : Nat :=
  match s.entry n d with
  | some e => e.cap
  | none => 0

/-- No FIFO holds more than the capacity of its entry (R34). -/
def FifosOk (s : State) : Prop :=
  ∀ n, (s.tx.get n).length ≤ s.capOf n .IN ∧ (s.rx.get n).length ≤ s.capOf n .OUT

/-- The memory list is canonical, and lists no address the memory does not hold (R51). -/
def MemoryOk (s : State) : Prop :=
  Memory.wf s.mem = true ∧ ∀ a b, (a, b) ∈ s.mem → s.holds a = true

/-- The lifecycle signals go with `phase` (R46). -/
def LifecycleOk (s : State) : Prop :=
  (s.phase = .On ↔ s.domainPower = true) ∧ (s.phase = .On ↔ s.busConnect = true)

/-- The invariant of the machine. -/
structure Inv (c : Cfg) (s : State) : Prop where
  shape     : TableShape c s
  entries   : EntriesOk c s
  ep0       : Ep0Ok s
  fifos     : FifosOk s
  memory    : MemoryOk s
  lifecycle : LifecycleOk s
  unmasked  : s.irqMasked = false
  dma       : s.dmaCntl.length = c.ndma

/-! ### A transfer seen round by round (R86) -/

/-- One round on an IN data endpoint: the handler runs, and the host takes the packet it made ready, where it may take it
(R150, R190, R194). `none` where the handler stops or the host may not. -/
def inRound (c : Cfg) (ep : EpNum) (s : State) : Option State :=
  match inh ep s with
  | .error _ => none
  | .ok t =>
    match busStep c (.inTaken ep) t with
    | .next u => some u
    | .fault _ => none
    | .refused _ => none

/-- `k` rounds. -/
def inRounds (c : Cfg) (ep : EpNum) (k : Nat) (s : State) : Option State :=
  match k with
  | 0 => some s
  | k + 1 =>
    match inRound c ep s with
    | none => none
    | some t => inRounds c ep k t

/-! ### How a run ends (R256) -/

/-- Faulted: `fault` is set. -/
def Faulted (s : State) : Prop := s.fault ≠ none

/-- `t` is reached from `s` by steps of the machine of `c`. -/
inductive Reaches (c : Cfg) (s : State) : State → Prop where
  | refl : Reaches c s s
  | step {t u : State} (h : Reaches c s t) (k : stepIn c t = .next u) : Reaches c s u

/-- The step from `u` to `v` is a SHUTDOWN that is not refused (R171). -/
def ShutsDown (c : Cfg) (u v : State) : Prop :=
  u.phase = .On ∧ (∃ t, fetch c u = .run .shutdown t) ∧ stepIn c u = .next v

/-- The top-level step issues a command: words at the command port, or a direct invocation of one. -/
def TopStep.isCommand (m : TopStep) : Bool :=
  match m with
  | .port _ => true
  | .irq => false
  | .bus _ => false
  | .vbus _ => false
  | .invoke ws =>
    match decode ws with
    | .op i _ => decide (i.cls = .command)
    | .rejected _ _ => false
    | .incomplete => false

/-- Shut down: the run from `s₀` has come to `s` with `phase = Off` after a SHUTDOWN, and no command is to come. -/
def ShutDown (c : Cfg) (s₀ s : State) : Prop :=
  s.phase = .Off ∧ (∀ m ∈ s.program, m.isCommand = false)
    ∧ ∃ u v, Reaches c s₀ u ∧ ShutsDown c u v ∧ Reaches c v s

/-- Quiescent: no status flag pending, every data entry empty, EP0 Idle, `IN_PKT_RDY = 0` on every endpoint. -/
def Quiescent (s : State) : Prop :=
  s.phase = .On ∧ s.irqLine = false ∧ s.noPending = true ∧ s.ep0state = .Idle
    ∧ (∀ n d e, n ≠ 0 → s.entry n d = some e → e.buf = .none)
    ∧ ∀ n, s.inPktRdy n = false

/-- What a claim observes of a finished run (R256): the logs, the memory, the table, `ep0state`, and the marks. -/
structure Observation where
  upLog    : List Notification
  txLog    : List TxRecord
  mem      : List Host.Cell
  epOut    : Bank (Option Entry)
  epIn     : Bank (Option Entry)
  ep0state : Ep0State
  fault    : Option FaultReason
  refused  : Option RefusalReason
  deriving DecidableEq, Repr

/-- The observation of a state. -/
def State.observe (s : State) : Observation :=
  ⟨s.upLog, s.txLog, s.mem, s.epOut, s.epIn, s.ep0state, s.fault, s.refused⟩

end Sys2Proof.Machine
end

