-- ==== Sys2Proof/Certificates/Slice0/Obligations.lean ====
section
/-! DEFINITION. The statements for the provers, from the numbered rules of spec/. Each docstring names the rules. -/

open Sys2Proof Sys2Proof.Machine

/-! ### Encoding (spec/30_encoding.md) -/

/-- R101 to R104, R109: decoding the words of an operation gives it back, with every operand at every value its field
admits, whatever words follow. -/
def Obligations.DecodeEncodeRoundTrip : Prop :=
  ∀ (i : Instr) (rest : List Word), decode (encode i ++ rest) = .op i rest

/-- R102, R104: no head word belongs to two rows of the opcode map: where the masked bits equal a row's `match` value, that
row is the only one. -/
def Obligations.HeadWordNamesOneRow : Prop :=
  ∀ (h : Word) (q r : OpRow), q ∈ opcodeTable → r ∈ opcodeTable →
    h &&& q.format.mask = q.matchWord → h &&& r.format.mask = r.matchWord → q = r

/-- R106: an opcode has a row exactly when it is outside the reserved ranges the rule lists. -/
def Obligations.ReservedOpcodesHaveNoRow : Prop :=
  ∀ op : BitVec 8, rowOf op = none ↔
    (op.toNat = 0x00 ∨ (0x0A ≤ op.toNat ∧ op.toNat ≤ 0x0F) ∨ (0x15 ≤ op.toNat ∧ op.toNat ≤ 0x1F)
      ∨ (0x25 ≤ op.toNat ∧ op.toNat ≤ 0x2F) ∨ (0x34 ≤ op.toNat ∧ op.toNat ≤ 0xFF))

/-- R107: the length in words is a function of `OP` alone, with the values the rule lists; an unknown opcode takes one word,
which the decoder consumes, refuses, and resumes at the next word. -/
def Obligations.LengthIsAFunctionOfOpcode : Prop :=
  (∀ g h : Word, opField g = opField h → lengthOf g = lengthOf h)
  ∧ (∀ h : Word, lengthOf h =
      if opField h = 0x03#8 ∨ opField h = 0x04#8 then 3
      else if opField h = 0x21#8 ∨ opField h = 0x22#8 ∨ opField h = 0x31#8 then 2
      else if opField h = 0x30#8 then 17
      else 1)
  ∧ (∀ (h : Word) (t : List Word), rowOf (opField h) = none → decode (h :: t) = .rejected .unknownOpcode t)
  ∧ ∀ (i : Instr) (h : Word) (t rest : List Word), decode (h :: t) = .op i rest →
      (h :: t).length = lengthOf h + rest.length ∧ rest = (h :: t).drop (lengthOf h)

/-- Words of spec/95_test_vectors.md section 2.7 and of the examples of R140 to R177, decoded. -/
def Obligations.WordsDecodeAsTheSpecWritesThem : Prop :=
  decode [0x01000000#32] = .op .init []
  ∧ decode [0x03000000#32, 0x00001000#32, 0x00000012#32] = .op (.send 0 0x1000 18) []
  ∧ decode [0x06000301#32] = .op (.stall 1 .IN true) []
  ∧ decode [0x10000000#32] = .op .irq []
  ∧ decode [0x13000001#32] = .op (.outh 1) []
  ∧ decode [0x21000001#32, 0x00000003#32] = .op (.drain 1 3) []
  ∧ decode [0x31000001#32, 0x0000052C#32] = .op (.onxferdone 0 .OUT 1 1324) []
  ∧ decode [0x01000001#32] = .rejected .reservedBits []

/-! ### The step (spec/30_encoding.md R105, R106, R112; spec/70_reset_and_hazards.md R256) -/

/-- R105: words at the command port that decode to a command are run by `exec`, on the state whose program has only those
words taken from it (log 1). -/
def Obligations.StepRunsTheCommandAtThePort : Prop :=
  ∀ (s : State) (ws rest : List Word) (p : List TopStep) (i : Instr),
    s.fault = none → s.program = .port ws :: p → decode ws = .op i rest → i.cls = .command →
      step s = exec i { s with program := if rest = [] then p else .port rest :: p }

/-- R105, R6, R20: words invoked directly that decode to an operation are run, in any configuration, on the state whose
program has only that invocation taken from it (log 9); IRQ invoked so is held to its enabling like any IRQ step (R160;
log 14). `step` and `exec` are the step and the operations of the default configuration (log 16). -/
def Obligations.StepRunsTheInvokedOperation : Prop :=
  (∀ (c : Cfg) (s : State) (ws : List Word) (p : List TopStep) (i : Instr),
    s.fault = none → s.program = .invoke ws :: p → decode ws = .op i [] →
      stepIn c s = if i = .irq ∧ ¬(s.phase = .On ∧ s.irqMasked = false) then .refused .irqNotEnabled
        else execIn c i { s with program := p })
  ∧ (∀ s : State, step s = stepIn Config.cfg s)
  ∧ ∀ (i : Instr) (s : State), exec i s = execIn Config.cfg i s

/-- R45, R160, R256: the IRQ step is taken when it is enabled; with no top-level step to come it is taken exactly when the
line is raised (`phase = On`, not masked, and a status flag set with its enable, or `DMA_INTR` not 0), and otherwise nothing
happens (the model's choice, log 1); asked for while it is not enabled, the model stops
by name (log 14); and once `fault` is set the model stops with it (log 2). -/
def Obligations.StepServesTheLineOrHalts : Prop :=
  (∀ (s : State) (p : List TopStep), s.fault = none → s.program = .irq :: p →
    step s = if s.phase = .On ∧ s.irqMasked = false then exec .irq { s with program := p } else .refused .irqNotEnabled)
  ∧ (∀ s : State, s.fault = none → s.program = [] →
      let line : Prop := s.phase = .On ∧ s.irqMasked = false
        ∧ ((s.intrUsb.suspend = true ∧ s.intrUsbE.suspend = true) ∨ (s.intrUsb.resume = true ∧ s.intrUsbE.resume = true)
          ∨ (s.intrUsb.reset = true ∧ s.intrUsbE.reset = true)
          ∨ (∃ n, s.intrIn.get n = true ∧ s.intrInE.get n = true) ∨ (∃ n, s.intrOut.get n = true ∧ s.intrOutE.get n = true)
          ∨ s.dmaIntr ≠ 0)
      (s.irqLine = true ↔ line) ∧ (line → step s = exec .irq s) ∧ (¬line → step s = .next s))
  ∧ ∀ (s : State) (r : FaultReason), s.fault = some r → step s = .fault (.halted r)

/-- R105, R106, R107: what the command port refuses before any command runs, in the order of the rule: an unknown opcode
(one word consumed), an operation that is no command, and a command with a reserved bit set (the opcode's words consumed).
A refusal is a next state with the mark (log 3), otherwise unchanged. -/
def Obligations.PortRefusesInOrder : Prop :=
  ∀ (s : State) (h : Word) (t : List Word) (p : List TopStep),
    s.fault = none → s.program = .port (h :: t) :: p →
    (rowOf (opField h) = none →
      step s = .next ({ s with program := if t = [] then p else .port t :: p }.markRefused .UnknownOpcode))
    ∧ ∀ r, rowOf (opField h) = some r → r.format.operandWords ≤ t.length →
        let u := t.drop r.format.operandWords
        (r.cls ≠ .command →
          step s = .next ({ s with program := if u = [] then p else .port u :: p }.markRefused .NotACommand))
        ∧ (r.cls = .command → h &&& r.format.mask ≠ r.matchWord →
          step s = .next ({ s with program := if u = [] then p else .port u :: p }.markRefused .ReservedBits))

/-- R50: both marks start `none`; nothing ever clears one, so `refused` keeps the reason of the first refusal; and no step
is enabled once `fault` is set. That an operation run by `exec` on a state already faulted keeps the first reason is the
model's choice (log 23). -/
def Obligations.MarksAreSticky : Prop :=
  State.reset.fault = none ∧ State.reset.refused = none
  ∧ (∀ (s t : State) (r : RefusalReason), step s = .next t → s.refused = some r → t.refused = some r)
  ∧ (∀ (s t : State), step s = .next t → s.fault = none)
  ∧ ∀ (i : Instr) (s t : State) (r : FaultReason), exec i s = .next t → s.fault = some r → t.fault = some r

/-! ### INIT and SHUTDOWN -/

/-- R170, R250, R52 (default configuration): INIT in `phase = Off`, whatever the registers and FIFOs held. Everything not
named in the next state is unchanged: the control buffer, the logs, the marks, the memory, the platform input. -/
def Obligations.InitFromOff : Prop :=
  ∀ s : State, TableShape Config.cfg s → s.phase = .Off →
    exec .init s = .next { s with
      phase := .On, domainPower := true, busConnect := true
      epOut := Vector.ofFn (fun n : EpNum => (s.epOut.get n).map (fun e =>
        { e with cap := resetCap Config.cfg false e.etype, len := 0, prog := 0, buf := if n = 0 then .ctrl else .none }))
      epIn := Vector.ofFn (fun n : EpNum => (s.epIn.get n).map (fun e =>
        { e with cap := resetCap Config.cfg false e.etype, len := 0, prog := 0, buf := .none }))
      ep0state := .Idle
      tx := Bank.all [], rx := Bank.all []
      index := 2, csr0 := Csr0.zero, inCsr := Bank.all InCsr.zero, outCsr := Bank.all OutCsr.zero
      intrUsb := UsbFlags.zero, intrIn := Bank.all false, intrOut := Bank.all false, dmaIntr := 0
      intrUsbE := ⟨false, false, true⟩
      intrInE := Vector.ofFn (fun n : EpNum => decide (n.val ≤ 2))
      intrOutE := Vector.ofFn (fun n : EpNum => decide (n.val = 1))
      hsMode := false, faddr := 0, testMode := 0, dmaCntl := [0, 0] }

/-- R171: SHUTDOWN, and its frame: the table, `ep0state`, the FIFOs, the logs and every other register stay. -/
def Obligations.ShutdownResult : Prop :=
  ∀ s : State, s.phase = .On →
    exec .shutdown s = .next { s with
      intrInE := Bank.all false, intrOutE := Bank.all false, intrUsbE := ⟨false, false, false⟩
      dmaCntl := [0, 0], busConnect := false, domainPower := false, phase := .Off }

/-! ### Refusals of the commands (spec/30_encoding.md R106; spec/60_exceptions.md R222) -/

/-- R106, R46, R170: in `phase = Off` every command but INIT is refused, and in `phase = On` INIT is; a refusal is
a next state with the mark and no other change (log 3). -/
def Obligations.CommandsRefusedByPhase : Prop :=
  (∀ (i : Instr) (s : State), i.cls = .command → i ≠ .init → s.phase = .Off →
    exec i s = .next (s.markRefused .NotInitialised))
  ∧ ∀ s : State, s.phase = .On → exec .init s = .next (s.markRefused .AlreadyInitialised)

/-- R106: in `phase = On` a command that names an endpoint without the entry it needs is refused, and changes nothing else
(log 3). -/
def Obligations.AbsentEndpointRefused : Prop :=
  ∀ (s : State) (ep : EpNum) (d : Dir) (buf len : Word) (st : Bool), s.phase = .On →
    (s.entry ep .IN = none → exec (.send ep buf len) s = .next (s.markRefused .NoSuchEndpoint))
    ∧ (s.entry ep .OUT = none → exec (.recv ep buf len) s = .next (s.markRefused .NoSuchEndpoint))
    ∧ (s.entry ep d = none →
        exec (.stall ep d st) s = .next (s.markRefused .NoSuchEndpoint)
        ∧ exec (.isstalled ep d) s = .next (s.markRefused .NoSuchEndpoint))

/-- R172: SEND's own refusals, each on the first test of the pseudocode that holds; nothing else changes (log 3). -/
def Obligations.SendRefusals : Prop :=
  ∀ (s : State) (ep : EpNum) (e : Entry) (buf len : Word), s.phase = .On → s.entry ep .IN = some e →
    (buf = 0 → len ≠ 0 → exec (.send ep buf len) s = .next (s.markRefused .NullBufferWithLength))
    ∧ (buf ≠ 0 → admits Config.cfg s buf.toNat len.toNat = false →
        exec (.send ep buf len) s = .next (s.markRefused .BadRegion))
    ∧ (buf ≠ 0 → admits Config.cfg s buf.toNat len.toNat = true → (e.buf ≠ .none ∨ (ep = 0 ∧ s.ep0state ≠ .Idle)) →
        exec (.send ep buf len) s = .next (s.markRefused .Busy))
    ∧ (buf = 0 → len = 0 → ep ≠ 0 → e.buf ≠ .none → exec (.send ep buf len) s = .next (s.markRefused .Busy))

/-- R173: RECV's own refusals, in the order of the pseudocode; nothing else changes (log 3). -/
def Obligations.RecvRefusals : Prop :=
  ∀ (s : State) (ep : EpNum) (e : Entry) (buf len : Word), s.phase = .On → s.entry ep .OUT = some e →
    (ep = 0 → (buf ≠ 0 ∨ len ≠ 0) →
        exec (.recv ep buf len) s = .next (s.markRefused .ControlReceiveUnsupported))
    ∧ (ep ≠ 0 → buf = 0 → len ≠ 0 → exec (.recv ep buf len) s = .next (s.markRefused .NullBufferWithLength))
    ∧ (ep ≠ 0 → buf ≠ 0 → admits Config.cfg s buf.toNat len.toNat = false →
        exec (.recv ep buf len) s = .next (s.markRefused .BadRegion))
    ∧ (ep ≠ 0 → buf ≠ 0 → admits Config.cfg s buf.toNat len.toNat = true → e.buf ≠ .none →
        exec (.recv ep buf len) s = .next (s.markRefused .Busy))
    ∧ (ep ≠ 0 → buf = 0 → len = 0 → e.buf ≠ .none → exec (.recv ep buf len) s = .next (s.markRefused .Busy))

/-- R172, R253: what `Admit` answers when the memory's regions stand in ascending order without overlap: the region does
not start at 0, does not pass the top of the address space, and every address of it is held. -/
def Obligations.AdmitMeansHeld : Prop :=
  ∀ (s : State) (a len : Nat),
    s.memMap.Pairwise (fun q r => q.base + q.size ≤ r.base) →
      (admits Config.cfg s a len = true ↔
        a ≠ 0 ∧ a + len ≤ 2 ^ 32 ∧ ∀ x, a ≤ x → x < a + len → s.holds x = true)

/-! ### SEND and RECV -/

/-- R172, R173, R111 (ACKIN, ACKOUT): the null acknowledgements of endpoint 0 change nothing at all. -/
def Obligations.NullAcknowledgementsDoNothing : Prop :=
  ∀ s : State, s.phase = .On →
    (s.present 0 .IN = true → exec (.send 0 0 0) s = .next s)
    ∧ (s.present 0 .OUT = true → exec (.recv 0 0 0) s = .next s)

/-- R172 corner case a, R141: a handshake (a non-null buffer and length 0) is sent at once; EP0 ends Idle with its entry
cleared. -/
def Obligations.SendHandshake : Prop :=
  ∀ (s : State) (e : Entry) (buf : Word), s.phase = .On → s.entry 0 .IN = some e → e.buf = .none →
    s.ep0state = .Idle → buf ≠ 0 → admits Config.cfg s buf.toNat 0 = true →
      exec (.send 0 buf 0) s = .next { s with
        epIn := s.epIn.put 0 (some { e with buf := .none, len := 0, prog := 0 })
        csr0 := { s.csr0 with inPktRdy := true, dataEnd := true }
        txLog := s.txLog ++ [⟨0, s.tx.get 0, true⟩]
        index := 0, irqMasked := false }

/-- R172, R141, R85: a response on endpoint 0: the first `min(len, cap)` bytes are pushed inside SEND; if that is all of
it, data-end is signalled and EP0 is Idle again, and otherwise it is Transmitting with the progress recorded. -/
def Obligations.SendControlResponse : Prop :=
  ∀ (s : State) (e : Entry) (buf len : Word) (bs : List Byte), s.phase = .On → s.entry 0 .IN = some e → e.buf = .none →
    s.ep0state = .Idle → buf ≠ 0 → len ≠ 0 → admits Config.cfg s buf.toNat len.toNat = true →
    s.csr0.inPktRdy = false → s.tx.get 0 = [] → s.readBytes buf.toNat (min len.toNat e.cap) = some bs →
      exec (.send 0 buf len) s = .next
        (if len.toNat ≤ e.cap then
          { s with
            epIn := s.epIn.put 0 (some { e with buf := .none, len := 0, prog := 0 })
            tx := s.tx.put 0 bs
            csr0 := { s.csr0 with inPktRdy := true, dataEnd := true }
            txLog := s.txLog ++ [⟨0, bs, true⟩]
            index := 0, irqMasked := false }
        else
          { s with
            epIn := s.epIn.put 0 (some { e with buf := .mem buf.toNat, len := len.toNat, prog := e.cap })
            ep0state := .Transmitting
            tx := s.tx.put 0 bs
            csr0 := { s.csr0 with inPktRdy := true }
            txLog := s.txLog ++ [⟨0, bs, false⟩]
            index := 0, irqMasked := false })

/-- R172, R150, R85: SEND on a data endpoint whose FIFO is free: the first `min(len, cap)` bytes are pushed inside SEND, and
a transfer of at most `cap` bytes completes there (corner case d; corner case c for length 0). -/
def Obligations.SendDataFirstChunk : Prop :=
  ∀ (s : State) (ep : EpNum) (e : Entry) (buf len : Word) (bs : List Byte), s.phase = .On → ep ≠ 0 →
    s.entry ep .IN = some e → e.buf = .none → e.usesDma = false → buf ≠ 0 →
    admits Config.cfg s buf.toNat len.toNat = true → (s.inCsr.get ep).sentStall = false → s.tx.get ep = [] →
    (len = 0 ∨ (s.inCsr.get ep).inPktRdy = false) → s.readBytes buf.toNat (min len.toNat e.cap) = some bs →
      exec (.send ep buf len) s = .next
        (if len.toNat ≤ e.cap then
          { s with
            epIn := s.epIn.put ep (some { e with buf := .none, len := 0, prog := 0 })
            tx := s.tx.put ep bs
            inCsr := s.inCsr.put ep { s.inCsr.get ep with inPktRdy := true }
            txLog := s.txLog ++ [⟨ep, bs, false⟩]
            upLog := s.upLog ++ [.onTransferComplete ep .IN 0 len.toNat]
            index := ep, irqMasked := false }
        else
          { s with
            epIn := s.epIn.put ep (some { e with buf := .mem buf.toNat, len := len.toNat, prog := e.cap })
            tx := s.tx.put ep bs
            inCsr := s.inCsr.put ep { s.inCsr.get ep with inPktRdy := true }
            txLog := s.txLog ++ [⟨ep, bs, false⟩]
            index := ep, irqMasked := false })

/-- R172 corner cases b, e, f and R268: SEND on a data endpoint whose kick sends nothing: the descriptor is recorded, and
beyond that (b) a null buffer or a `uses_dma` entry changes nothing, (f) a pending sent stall is acknowledged, (e) a FIFO
that still holds a packet only selects the endpoint. -/
def Obligations.SendDataWaits : Prop :=
  ∀ (s : State) (ep : EpNum) (e : Entry) (buf len : Word), s.phase = .On → ep ≠ 0 →
    s.entry ep .IN = some e → e.buf = .none → (buf = 0 → len = 0) →
    (buf ≠ 0 → admits Config.cfg s buf.toNat len.toNat = true) →
    let queued : State := { s with
      epIn := s.epIn.put ep (some { e with buf := if buf = 0 then .none else .mem buf.toNat, len := len.toNat, prog := 0 })
      irqMasked := false }
    ((buf = 0 ∨ e.usesDma = true) → exec (.send ep buf len) s = .next queued)
    ∧ (buf ≠ 0 → e.usesDma = false → (s.inCsr.get ep).sentStall = true →
        exec (.send ep buf len) s = .next { queued with
          inCsr := s.inCsr.put ep { s.inCsr.get ep with sentStall := false }, index := ep })
    ∧ (buf ≠ 0 → e.usesDma = false → (s.inCsr.get ep).sentStall = false → s.tx.get ep ≠ [] →
        exec (.send ep buf len) s = .next { queued with index := ep })

/-- R173: RECV on a data endpoint records the descriptor and touches nothing else, no register and no FIFO. -/
def Obligations.RecvRecordsTheTransfer : Prop :=
  ∀ (s : State) (ep : EpNum) (e : Entry) (buf len : Word), s.phase = .On → ep ≠ 0 →
    s.entry ep .OUT = some e → e.buf = .none → (buf = 0 → len = 0) →
    (buf ≠ 0 → admits Config.cfg s buf.toNat len.toNat = true) →
      exec (.recv ep buf len) s = .next { s with
        epOut := s.epOut.put ep
          (some { e with buf := if buf = 0 then .none else .mem buf.toNat, len := len.toNat, prog := 0 })
        irqMasked := false }

/-! ### CANCELALL, STALL, the queries -/

/-- R175, R133, R28 (default configuration): every entry is empty, the FIFOs of the data endpoints are flushed, EP0 is Idle;
nothing is added to a log, and the packet of endpoint 0, the pending and stall flags, the enables and the capacities stay. -/
def Obligations.CancelAllResult : Prop :=
  ∀ s : State, TableShape Config.cfg s → s.phase = .On →
    exec .cancelall s = .next { s with
      epOut := Vector.ofFn (fun n : EpNum => (s.epOut.get n).map (fun e =>
        { e with len := 0, prog := 0, buf := if n = 0 then .ctrl else .none }))
      epIn := Vector.ofFn (fun n : EpNum => (s.epIn.get n).map (fun e => { e with len := 0, prog := 0, buf := .none }))
      ep0state := .Idle
      tx := (s.tx.put 1 []).put 2 []
      rx := s.rx.put 1 []
      inCsr := (s.inCsr.put 1 { s.inCsr.get 1 with inPktRdy := false }).put 2 { s.inCsr.get 2 with inPktRdy := false }
      outCsr := s.outCsr.put 1 { s.outCsr.get 1 with outPktRdy := false }
      index := 2, irqMasked := false }

/-- R176: STALL writes one stall-request flag and `INDEX`; for endpoint 0 both directions name the flag of `CSR0`. -/
def Obligations.StallWritesTheRequest : Prop :=
  ∀ (s : State) (ep : EpNum) (d : Dir) (st : Bool), s.phase = .On → s.present ep d = true →
    exec (.stall ep d st) s = .next
      (if ep = 0 then { s with csr0 := { s.csr0 with sendStall := st }, index := ep }
       else match d with
        | .IN => { s with inCsr := s.inCsr.put ep { s.inCsr.get ep with sendStall := st }, index := ep }
        | .OUT => { s with outCsr := s.outCsr.put ep { s.outCsr.get ep with sendStall := st }, index := ep })

/-- R108, R177, R178, R179: the three commands that return a value return these words, ISSTALLED also selecting its endpoint
and nothing else changing; and no other command returns a value (the result word stays as it was; log 8). -/
def Obligations.QueriesReturnTheirWord : Prop :=
  (∀ (s : State) (ep : EpNum) (d : Dir), s.phase = .On → s.present ep d = true →
    exec (.isstalled ep d) s = .next { s with
      index := ep
      result := some (if (if ep = 0 then s.csr0.sendStall
        else match d with
          | .IN => (s.inCsr.get ep).sendStall
          | .OUT => (s.outCsr.get ep).sendStall) then 1#32 else 0#32) })
  ∧ (∀ s : State, s.phase = .On →
      exec .portspeed s = .next { s with result := some (if s.hsMode then 1#32 else 0#32) }
      ∧ exec .connected s = .next { s with result := some (if s.vbusSense then 1#32 else 0#32) })
  ∧ ∀ (i : Instr) (s t : State), i.cls = .command → (∀ ep d, i ≠ .isstalled ep d) → i ≠ .portspeed → i ≠ .connected →
      exec i s = .next t → t.result = s.result

/-! ### The dispatcher (spec/43_interrupt_dispatcher.md) -/

/-- R160, R162 (default configuration): with something pending, the four registers are cleared and the handlers whose bit is
set run in the fixed order CTRLH, INH 1, INH 2, OUTH 1, then the bus events; bits for other numbers, for (2,OUT) and for
`INTROUT[0]` call nothing (corner case d), and the enables are not asked (corner case b). -/
def Obligations.IrqCallsHandlersInOrder : Prop :=
  ∀ s s1 s2 s3 s4 : State, TableShape Config.cfg s → s.noPending = false →
    (if s.intrIn.get 0 then ctrlh Config.cfg (clearPending s) else .ok (clearPending s)) = .ok s1 →
    (if s.intrIn.get 1 then inh 1 s1 else .ok s1) = .ok s2 →
    (if s.intrIn.get 2 then inh 2 s2 else .ok s2) = .ok s3 →
    (if s.intrOut.get 1 then outh Config.cfg 1 s3 else .ok s3) = .ok s4 →
      exec .irq s = .next (usbEvents Config.cfg s.intrUsb s4)

/-- R160: with no endpoint flag and no bus reset pending, IRQ clears the four registers and logs suspend, then resume;
a DMA status byte causes no call (corner cases c, f). With all four registers zero, the spurious invocation, nothing
changes. -/
def Obligations.IrqWithoutHandlers : Prop :=
  ∀ s : State, (∀ n, s.intrIn.get n = false) → (∀ n, s.intrOut.get n = false) → s.intrUsb.reset = false →
    exec .irq s = .next { s with
      intrUsb := ⟨false, false, false⟩, intrIn := Bank.all false, intrOut := Bank.all false, dmaIntr := 0
      upLog := s.upLog ++ (if s.intrUsb.suspend then [.log .suspend] else [])
        ++ (if s.intrUsb.resume then [.log .resume] else []) }
    ∧ (s.intrUsb = ⟨false, false, false⟩ → s.dmaIntr = 0 → exec .irq s = .next s)

/-- R160, R224: after an IRQ step that does not fault (log 2) no interrupt is pending: the snapshot cleared all four registers and
no handler sets a flag of them. -/
def Obligations.IrqLeavesNothingPending : Prop :=
  ∀ s t : State, exec .irq s = .next t → (∃ r, t = s.markFault r) ∨ t.noPending = true

/-- R161, R162: an IRQ step that carries a bus reset and does not fault (log 2) leaves every entry empty and EP0 Idle, whatever the
handlers of the same snapshot did before, and `OnBusReset` stands in the log with only suspend and resume after it. -/
def Obligations.IrqWithResetLeavesTheTableEmpty : Prop :=
  ∀ s t : State, s.intrUsb.reset = true → exec .irq s = .next t →
    (∃ r, t = s.markFault r)
    ∨ (t.ep0state = .Idle
        ∧ (∀ n d e, t.entry n d = some e →
            e.len = 0 ∧ e.prog = 0 ∧ e.buf = if n = 0 ∧ d = .OUT then .ctrl else .none)
        ∧ ∃ l, t.upLog = l ++ [.onBusReset] ++ (if s.intrUsb.suspend then [.log .suspend] else [])
            ++ (if s.intrUsb.resume then [.log .resume] else []))

/-- R161, R250 (default configuration): the bus-reset handler. The flags of `CSR0`, the stall flags, `tx[0]`, `rx[0]`, the
status registers, `INTRINE[0]`, `INTRUSBE` and everything else not named stay. -/
def Obligations.BusResetHandler : Prop :=
  ∀ s : State, TableShape Config.cfg s →
    exec .reseth s = .next { s with
      faddr := 0
      epOut := Vector.ofFn (fun n : EpNum => (s.epOut.get n).map (fun e =>
        { e with cap := resetCap Config.cfg s.hsMode e.etype, len := 0, prog := 0, buf := if n = 0 then .ctrl else .none }))
      epIn := Vector.ofFn (fun n : EpNum => (s.epIn.get n).map (fun e =>
        { e with cap := resetCap Config.cfg s.hsMode e.etype, len := 0, prog := 0, buf := .none }))
      ep0state := .Idle
      tx := (s.tx.put 1 []).put 2 []
      rx := s.rx.put 1 []
      inCsr := (s.inCsr.put 1 { s.inCsr.get 1 with inPktRdy := false }).put 2 { s.inCsr.get 2 with inPktRdy := false }
      outCsr := s.outCsr.put 1 { s.outCsr.get 1 with outPktRdy := false }
      intrInE := (s.intrInE.put 1 true).put 2 true
      intrOutE := s.intrOutE.put 1 true
      index := 2
      upLog := s.upLog ++ [.onBusReset] }

/-! ### The control endpoint (spec/41_control_endpoint.md) -/

/-- R28: `clear(E)` empties the per-transfer fields of its entry, keeps `ctrl` in (0,OUT), and touches no other entry. -/
def Obligations.ClearEmptiesTheEntry : Prop :=
  ∀ (s : State) (n m : EpNum) (d c : Dir),
    (clearEntry n d s).entry m c =
      if n = m ∧ d = c then
        (s.entry m c).map (fun e => { e with len := 0, prog := 0, buf := if n = 0 ∧ d = .OUT then .ctrl else .none })
      else s.entry m c

/-- R140 steps 1 and 2, R142: a sent stall is acknowledged first, and a premature end when no stall was sent; EP0 is Idle
and the response is discarded. `SEND_STALL`, `DATA_AVAIL`, the FIFOs and the logs stay. -/
def Obligations.CtrlhReturnsToIdle : Prop :=
  ∀ (s : State) (e : Entry), s.entry 0 .IN = some e →
    (s.csr0.sentStall = true →
      exec .ctrlh s = .next { s with
        csr0 := { s.csr0 with sentStall := false }, index := 0, ep0state := .Idle
        epIn := s.epIn.put 0 (some { e with len := 0, prog := 0, buf := .none }) })
    ∧ (s.csr0.sentStall = false → s.csr0.setupEnd = true →
      exec .ctrlh s = .next { s with
        csr0 := { s.csr0 with setupEnd := false }, index := 0, ep0state := .Idle
        epIn := s.epIn.put 0 (some { e with len := 0, prog := 0, buf := .none }) })

/-- R140 step 3, R210: a control packet of at most 64 bytes goes to the control buffer from index 0, the bytes above it
stay, the packet is acknowledged, and one `OnControlRequest` with the whole buffer and the count is emitted. -/
def Obligations.CtrlhReceivesSetup : Prop :=
  ∀ (s : State) (e : Entry), s.csr0.sentStall = false → s.csr0.setupEnd = false → s.ep0state = .Idle →
    s.csr0.dataAvail = true → s.entry 0 .OUT = some e → e.buf = .ctrl → e.prog = 0 → (s.rx.get 0).length ≤ 64 →
      ∃ cb : Vector Byte 64,
        (∀ k : Fin 64, cb[k] = if h : k.val < (s.rx.get 0).length then (s.rx.get 0)[k.val] else s.ctrlBuf[k])
        ∧ exec .ctrlh s = .next { s with
            index := 0, rx := s.rx.put 0 [], ctrlBuf := cb
            csr0 := { s.csr0 with dataAvail := false }
            upLog := s.upLog ++ [.onControlRequest cb (s.rx.get 0).length] }

/-- R140 corner case d and last lines, R30: with nothing reported in Idle, and in Receiving whatever `DATA_AVAIL` is, only
`INDEX` changes; in Transmitting CTRLH does what EP0SEND does (step 4), `DATA_AVAIL` unread (corner case e). -/
def Obligations.CtrlhOtherwise : Prop :=
  ∀ s : State, s.csr0.sentStall = false → s.csr0.setupEnd = false →
    (s.ep0state = .Idle → s.csr0.dataAvail = false → exec .ctrlh s = .next { s with index := 0 })
    ∧ (s.ep0state = .Receiving → exec .ctrlh s = .next { s with index := 0 })
    ∧ (s.ep0state = .Transmitting → exec .ctrlh s = exec .ep0send s)

/-- R141, R85: EP0SEND. A length of 0 signals a pure handshake; otherwise `chunk = min(len - prog, cap)` bytes are pushed
from `buf + prog` into an empty FIFO whose last packet has been taken, with data-end exactly on the last. -/
def Obligations.Ep0sendSendsTheNextPacket : Prop :=
  ∀ (s : State) (e : Entry), s.entry 0 .IN = some e →
    (e.len = 0 →
      exec .ep0send s = .next { s with
        epIn := s.epIn.put 0 (some { e with buf := .none, len := 0, prog := 0 })
        ep0state := .Idle
        csr0 := { s.csr0 with inPktRdy := true, dataEnd := true }
        txLog := s.txLog ++ [⟨0, s.tx.get 0, true⟩], index := 0 })
    ∧ ∀ (a : Nat) (bs : List Byte), e.len ≠ 0 → e.buf = .mem a → s.csr0.inPktRdy = false → s.tx.get 0 = [] →
        s.readBytes (a + e.prog) (min (e.len - e.prog) e.cap) = some bs →
          exec .ep0send s = .next
            (if e.len ≤ e.prog + min (e.len - e.prog) e.cap then
              { s with
                epIn := s.epIn.put 0 (some { e with buf := .none, len := 0, prog := 0 })
                ep0state := .Idle
                tx := s.tx.put 0 bs
                csr0 := { s.csr0 with inPktRdy := true, dataEnd := true }
                txLog := s.txLog ++ [⟨0, bs, true⟩], index := 0 }
            else
              { s with
                epIn := s.epIn.put 0 (some { e with prog := e.prog + min (e.len - e.prog) e.cap })
                tx := s.tx.put 0 bs
                csr0 := { s.csr0 with inPktRdy := true }
                txLog := s.txLog ++ [⟨0, bs, false⟩], index := 0 })

/-! ### The data-endpoint handlers (spec/42_data_endpoint_handlers.md) -/

/-- R150, R151, R152: with no entry, no transfer queued, or a `uses_dma` entry, a handler of a data endpoint is a no-op in
the strict sense, `INDEX` included. -/
def Obligations.HandlersGuardFirst : Prop :=
  ∀ (s : State) (ep : EpNum), ep ≠ 0 →
    ((∀ e, s.entry ep .IN = some e → e.buf = .none ∨ e.usesDma = true) → exec (.inh ep) s = .next s)
    ∧ ((∀ e, s.entry ep .OUT = some e → e.buf = .none ∨ e.usesDma = true) → exec (.outh ep) s = .next s)

/-- R150, R151, R220 (E1): with a transfer queued and a stall sent, a handler clears `SENT_STALL`, selects its endpoint, and
moves no data; the request and the transfer stay. INH with unsent data in the FIFO defers: only `INDEX` changes. -/
def Obligations.HandlersAcknowledgeOrDefer : Prop :=
  ∀ (s : State) (ep : EpNum) (e : Entry), ep ≠ 0 → e.buf ≠ .none → e.usesDma = false →
    (s.entry ep .IN = some e → (s.inCsr.get ep).sentStall = true →
      exec (.inh ep) s = .next { s with
        inCsr := s.inCsr.put ep { s.inCsr.get ep with sentStall := false }, index := ep })
    ∧ (s.entry ep .IN = some e → (s.inCsr.get ep).sentStall = false → s.tx.get ep ≠ [] →
      exec (.inh ep) s = .next { s with index := ep })
    ∧ (s.entry ep .OUT = some e → (s.outCsr.get ep).sentStall = true →
      exec (.outh ep) s = .next { s with
        outCsr := s.outCsr.put ep { s.outCsr.get ep with sentStall := false }, index := ep })

/-- R150, R85, R211: INH on a free FIFO pushes `min(len - prog, cap)` bytes from `buf + prog` and signals packet-ready;
when the length is reached it reports completion once, with the length, and empties the entry. -/
def Obligations.InhSendsTheNextPacket : Prop :=
  ∀ (s : State) (ep : EpNum) (e : Entry) (a : Nat) (bs : List Byte), ep ≠ 0 → s.entry ep .IN = some e →
    e.buf = .mem a → e.usesDma = false → (s.inCsr.get ep).sentStall = false → s.tx.get ep = [] →
    (min (e.len - e.prog) e.cap = 0 ∨ (s.inCsr.get ep).inPktRdy = false) →
    s.readBytes (a + e.prog) (min (e.len - e.prog) e.cap) = some bs →
      exec (.inh ep) s = .next
        (if e.len ≤ e.prog + min (e.len - e.prog) e.cap then
          { s with
            epIn := s.epIn.put ep (some { e with buf := .none, len := 0, prog := 0 })
            tx := s.tx.put ep bs
            inCsr := s.inCsr.put ep { s.inCsr.get ep with inPktRdy := true }
            txLog := s.txLog ++ [⟨ep, bs, false⟩]
            upLog := s.upLog ++ [.onTransferComplete ep .IN 0 (e.prog + min (e.len - e.prog) e.cap)]
            index := ep }
        else
          { s with
            epIn := s.epIn.put ep (some { e with prog := e.prog + min (e.len - e.prog) e.cap })
            tx := s.tx.put ep bs
            inCsr := s.inCsr.put ep { s.inCsr.get ep with inPktRdy := true }
            txLog := s.txLog ++ [⟨ep, bs, false⟩]
            index := ep })

/-- R151, R77, R83: OUTH with a packet ready that fits: the packet goes to `buf + prog`, every other address reads as before,
`OUT_PKT_RDY` falls, and completion is reported exactly when the packet is short or the length is reached. -/
def Obligations.OuthReceivesThePacket : Prop :=
  ∀ (s : State) (ep : EpNum) (e : Entry) (a : Nat), ep ≠ 0 → s.entry ep .OUT = some e → e.buf = .mem a →
    e.usesDma = false → (s.outCsr.get ep).sentStall = false → (s.outCsr.get ep).outPktRdy = true →
    (s.rx.get ep).length ≤ e.len - e.prog → Memory.wf s.mem = true →
    (∀ x, a + e.prog ≤ x → x < a + e.prog + (s.rx.get ep).length → s.holds x = true) →
      ∃ m : List Host.Cell,
        let cnt := (s.rx.get ep).length
        let moved : State := { s with
          mem := m
          rx := s.rx.put ep []
          outCsr := s.outCsr.put ep { s.outCsr.get ep with outPktRdy := false }
          index := ep }
        (∀ x, moved.readByte x =
          if h : a + e.prog ≤ x ∧ x < a + e.prog + cnt then
            some ((s.rx.get ep)[x - (a + e.prog)]'(by show x - (a + e.prog) < cnt; omega))
          else s.readByte x)
        ∧ exec (.outh ep) s = .next
            (if cnt < e.cap ∨ e.len ≤ e.prog + cnt then
              { moved with
                epOut := s.epOut.put ep (some { e with buf := .none, len := 0, prog := 0 })
                upLog := s.upLog ++ [.onTransferComplete ep .OUT 0 (e.prog + cnt)] }
            else
              { moved with epOut := s.epOut.put ep (some { e with prog := e.prog + cnt }) })

/-- R150, R151, R132, R140, R141, R172, R267, R160, R9, R222: where an operation that calls FILL or DRAIN faults, in a next
state with the mark (log 2) and nothing else the step did, the descriptor of a SEND included. INH and EP0SEND fault on a
packet that has not been taken, OUTH on a missing packet and on one that does not fit, CTRLH on a packet above the control
buffer; SEND faults where the packet of an earlier one is still pending behind an empty FIFO; an IRQ step (default table)
faults with the reason of the first of its handlers that faults, in the order CTRLH, INH 1, INH 2, OUTH 1. -/
def Obligations.HandlersFault : Prop :=
  ∀ s : State, s.fault = none →
    (∀ (ep : EpNum) (e : Entry), ep ≠ 0 → e.buf ≠ .none → e.usesDma = false →
      (s.entry ep .IN = some e → (s.inCsr.get ep).sentStall = false → s.tx.get ep = [] →
        min (e.len - e.prog) e.cap ≠ 0 → (s.inCsr.get ep).inPktRdy = true →
          exec (.inh ep) s = .next { s with fault := some .FifoBusy })
      ∧ (s.entry ep .OUT = some e → (s.outCsr.get ep).sentStall = false → (s.outCsr.get ep).outPktRdy = false →
          exec (.outh ep) s = .next { s with fault := some .NoPacket })
      ∧ (s.entry ep .OUT = some e → (s.outCsr.get ep).sentStall = false → (s.outCsr.get ep).outPktRdy = true →
          e.len - e.prog < (s.rx.get ep).length →
          exec (.outh ep) s = .next { s with fault := some .BufferOverrun }))
    ∧ (∀ e : Entry, s.entry 0 .IN = some e → e.buf ≠ .none → min (e.len - e.prog) e.cap ≠ 0 → s.csr0.inPktRdy = true →
        exec .ep0send s = .next { s with fault := some .FifoBusy })
    ∧ (∀ e : Entry, s.entry 0 .OUT = some e → e.buf = .ctrl → s.csr0.sentStall = false → s.csr0.setupEnd = false →
        s.ep0state = .Idle → s.csr0.dataAvail = true → 64 < e.prog + (s.rx.get 0).length →
        exec .ctrlh s = .next { s with fault := some .CtrlOverrun })
    ∧ (∀ (ep : EpNum) (e : Entry) (buf len : Word), s.phase = .On → s.entry ep .IN = some e → e.buf = .none → e.cap ≠ 0 →
        buf ≠ 0 → len ≠ 0 → admits Config.cfg s buf.toNat len.toNat = true →
        (if ep = 0 then s.ep0state = .Idle ∧ s.csr0.inPktRdy = true
          else e.usesDma = false ∧ (s.inCsr.get ep).sentStall = false ∧ s.tx.get ep = []
            ∧ (s.inCsr.get ep).inPktRdy = true) →
        exec (.send ep buf len) s = .next { s with fault := some .FifoBusy })
    ∧ (TableShape Config.cfg s → ∀ r : FaultReason,
        (s.intrIn.get 0 = true → ctrlh Config.cfg (clearPending s) = .error (.fault r) →
          exec .irq s = .next { s with fault := some r })
        ∧ ∀ s1, (if s.intrIn.get 0 then ctrlh Config.cfg (clearPending s) else .ok (clearPending s)) = .ok s1 →
          (s.intrIn.get 1 = true → inh 1 s1 = .error (.fault r) → exec .irq s = .next { s with fault := some r })
          ∧ ∀ s2, (if s.intrIn.get 1 then inh 1 s1 else .ok s1) = .ok s2 →
            (s.intrIn.get 2 = true → inh 2 s2 = .error (.fault r) → exec .irq s = .next { s with fault := some r })
            ∧ ∀ s3, (if s.intrIn.get 2 then inh 2 s2 else .ok s2) = .ok s3 →
              s.intrOut.get 1 = true → outh Config.cfg 1 s3 = .error (.fault r) →
                exec .irq s = .next { s with fault := some r })

/-! ### The FIFO Transfer Engine (spec/40_fifo_engine.md) -/

/-- R130: SELECT writes `INDEX` and nothing else. Its operand is below `NEP` in the spec; that the numbers at or above `NEP`
are written too is the model's choice (log 17). -/
def Obligations.SelectWritesIndex : Prop :=
  ∀ (s : State) (ep : EpNum), exec (.select ep) s = .next { s with index := ep }

/-- R131, R77: DRAIN into a caller's region: the oldest `size` bytes leave the FIFO and stand at `buf + prog` in the order
received; every other address reads as before, and `prog` and the flags stay. -/
def Obligations.DrainToMemory : Prop :=
  ∀ (s : State) (ep : EpNum) (size : Word) (e : Entry) (a : Nat), s.entry ep .OUT = some e → e.buf = .mem a →
    (h : size.toNat ≤ (s.rx.get ep).length) → Memory.wf s.mem = true →
    (∀ x, a + e.prog ≤ x → x < a + e.prog + size.toNat → s.holds x = true) →
      ∃ m : List Host.Cell,
        let t : State := { s with mem := m, rx := s.rx.put ep ((s.rx.get ep).drop size.toNat) }
        (∀ x, t.readByte x =
          if hx : a + e.prog ≤ x ∧ x < a + e.prog + size.toNat then
            some ((s.rx.get ep)[x - (a + e.prog)]'(by omega))
          else s.readByte x)
        ∧ exec (.drain ep size) s = .next t

/-- R131, R33: DRAIN into the control buffer: indices `prog .. prog + size - 1` take the bytes, the others stay. -/
def Obligations.DrainToControlBuffer : Prop :=
  ∀ (s : State) (ep : EpNum) (size : Word) (e : Entry), s.entry ep .OUT = some e → e.buf = .ctrl →
    (h : size.toNat ≤ (s.rx.get ep).length) → e.prog + size.toNat ≤ 64 →
      ∃ cb : Vector Byte 64,
        (∀ k : Fin 64, cb[k] =
          if hk : e.prog ≤ k.val ∧ k.val < e.prog + size.toNat then (s.rx.get ep)[k.val - e.prog]'(by omega)
          else s.ctrlBuf[k])
        ∧ exec (.drain ep size) s = .next
            { s with ctrlBuf := cb, rx := s.rx.put ep ((s.rx.get ep).drop size.toNat) }

/-- R131, R222: DRAIN's three faults, in the order of the pseudocode; each is a next state with the mark alone (log 2). -/
def Obligations.DrainFaults : Prop :=
  ∀ (s : State) (ep : EpNum) (size : Word) (e : Entry), s.entry ep .OUT = some e → s.fault = none →
    (e.buf = .none → exec (.drain ep size) s = .next { s with fault := some .DrainNoBuffer })
    ∧ (e.buf ≠ .none → (s.rx.get ep).length < size.toNat →
        exec (.drain ep size) s = .next { s with fault := some .FifoUnderrun })
    ∧ (e.buf = .ctrl → size.toNat ≤ (s.rx.get ep).length → 64 < e.prog + size.toNat →
        exec (.drain ep size) s = .next { s with fault := some .CtrlOverrun })

/-- R132: FILL: size 0 changes nothing, whatever the buffer and packet-ready are; otherwise `size` bytes from `buf + prog`
are appended to the FIFO in ascending address order, and nothing else changes. -/
def Obligations.FillAppendsTheBytes : Prop :=
  ∀ (s : State) (ep : EpNum) (size : Word) (e : Entry), s.entry ep .IN = some e →
    (size = 0 → exec (.fill ep size) s = .next s)
    ∧ ∀ (a : Nat) (bs : List Byte), e.buf = .mem a → s.inPktRdy ep = false →
        (s.tx.get ep).length + size.toNat ≤ e.cap → s.readBytes (a + e.prog) size.toNat = some bs →
          exec (.fill ep size) s = .next { s with tx := s.tx.put ep (s.tx.get ep ++ bs) }
          ∧ bs.length = size.toNat ∧ ∀ k (hk : k < bs.length), s.readByte (a + e.prog + k) = some bs[k]

/-- R132, R222: FILL's three faults, in the order of the pseudocode; each is a next state with the mark alone (log 2). -/
def Obligations.FillFaults : Prop :=
  ∀ (s : State) (ep : EpNum) (size : Word) (e : Entry), s.entry ep .IN = some e → size ≠ 0 → s.fault = none →
    (e.buf = .none → exec (.fill ep size) s = .next { s with fault := some .FillNoBuffer })
    ∧ (e.buf ≠ .none → (if ep = 0 then s.csr0.inPktRdy else (s.inCsr.get ep).inPktRdy) = true →
        exec (.fill ep size) s = .next { s with fault := some .FifoBusy })
    ∧ (e.buf ≠ .none → (if ep = 0 then s.csr0.inPktRdy else (s.inCsr.get ep).inPktRdy) = false →
        e.cap < (s.tx.get ep).length + size.toNat →
        exec (.fill ep size) s = .next { s with fault := some .FifoOverrun })

/-- R133, R39: FLUSH: nothing at all for a control entry; for a data entry the FIFO of the direction is emptied, its
packet-ready falls and `INDEX` names the endpoint. -/
def Obligations.FlushDiscardsThePacket : Prop :=
  ∀ (s : State) (ep : EpNum) (d : Dir) (e : Entry), s.entry ep d = some e →
    exec (.flush ep d) s = .next
      (if e.etype = .control then s
       else match d with
        | .IN => { s with
            tx := s.tx.put ep [], inCsr := s.inCsr.put ep { s.inCsr.get ep with inPktRdy := false }, index := ep }
        | .OUT => { s with
            rx := s.rx.put ep [], outCsr := s.outCsr.put ep { s.outCsr.get ep with outPktRdy := false }, index := ep })

/-- R71, R72, R134: moving by 32-bit accesses with a byte tail where the address is 4-byte aligned, or byte by byte, appends
the same bytes to a transmit FIFO; and `k` word accesses and then `n` byte accesses take from a receive FIFO what `4k + n`
byte accesses take and store the same bytes. -/
def Obligations.WordAccessesMoveTheSameBytes : Prop :=
  (∀ (s : State) (fifo : List Byte) (a size : Nat),
    s.pushByPattern fifo a size = (s.readBytes a size).map (fun bs => fifo ++ bs))
  ∧ ∀ (s : State) (fifo : List Byte) (a k n : Nat), 4 * k + n ≤ fifo.length →
      s.popWordsThenBytes fifo a k n =
        (s.writeBytes a (fifo.take (4 * k + n))).map (fun t => (t, fifo.drop (4 * k + n)))

/-! ### Notifications (spec/46_upstream_events.md) -/

/-- R109, R210 to R213: each notification is one element appended to `up_log`, and changes nothing else. The kinds 0 and 3
of a log record are never produced, and the model stops on them; that a count above 64, a status other than 0 and a
completion for endpoint 0 or an absent entry, which the block never produces either, are appended as they are is the model's
choice (log 13). -/
def Obligations.NotificationsAppendOneElement : Prop :=
  (∀ (s : State) (count : BitVec 7) (data : Vector Byte 64),
    exec (.onctrlreq count data) s = .next { s with upLog := s.upLog ++ [.onControlRequest data count.toNat] })
  ∧ (∀ (s : State) (status : BitVec 8) (d : Dir) (n : EpNum) (bytes : Word),
    exec (.onxferdone status d n bytes) s
      = .next { s with upLog := s.upLog ++ [.onTransferComplete n d status bytes.toNat] })
  ∧ (∀ s : State, exec .onbusreset s = .next { s with upLog := s.upLog ++ [.onBusReset] })
  ∧ ∀ s : State,
      exec (.logev 1) s = .next { s with upLog := s.upLog ++ [.log .suspend] }
      ∧ exec (.logev 2) s = .next { s with upLog := s.upLog ++ [.log .resume] }
      ∧ exec (.logev 0) s = .refused .neverProduced ∧ exec (.logev 3) s = .refused .neverProduced

/-- R211, R105: no operation but a notification itself puts into `up_log` a completion for endpoint 0 or with a status
other than 0; and what an operation adds stands at the end. -/
def Obligations.CompletionsAreForDataEndpoints : Prop :=
  ∀ (i : Instr) (s t : State), i.cls ≠ .notification → exec i s = .next t →
    ∃ l, t.upLog = s.upLog ++ l
      ∧ ∀ n d status bytes, Notification.onTransferComplete n d status bytes ∈ l → n ≠ 0 ∧ status = 0

/-! ### The bus agent (spec/45_bus_agent.md) -/

/-- R198: B_BUS_RESET, and its frame: the pending endpoint flags, the enables, the table and `ep0state` stay. Its
precondition is R190's alone. -/
def Obligations.BusResetMoveEffect : Prop :=
  ∀ (s : State) (hs : Bool), s.phase = .On → s.busConnect = true →
    busStep Config.cfg (.busReset hs) s = .next { s with
      intrUsb := { s.intrUsb with reset := true }
      hsMode := hs, faddr := 0
      csr0 := ⟨false, false, false, false, false, false⟩
      inCsr := Bank.all ⟨false, false, false⟩, outCsr := Bank.all ⟨false, false, false⟩
      tx := Bank.all [], rx := Bank.all [] }

/-- R190: a move of the bus agent that the program asks for (log 1) is a step of its own, is taken only when `phase = On` and
`bus_connect = 1`, and touches only what the rule lists. -/
def Obligations.BusMovesTouchOnlyTheBusSide : Prop :=
  ∀ (s : State) (m : BusMove) (p : List TopStep), s.fault = none → s.program = .bus m :: p →
    step s = busStep Config.cfg m { s with program := p }
    ∧ ∀ t, step s = .next t →
        s.phase = .On ∧ s.busConnect = true
        ∧ t = { s with
            program := p
            csr0 := t.csr0, inCsr := t.inCsr, outCsr := t.outCsr, tx := t.tx, rx := t.rx
            intrUsb := t.intrUsb, intrIn := t.intrIn, intrOut := t.intrOut, hsMode := t.hsMode, faddr := t.faddr }

/-! ### The whole machine -/

/-- R52: the reset state meets the invariant of the machine. -/
def Obligations.ResetMeetsTheInvariant : Prop := Inv Config.cfg State.reset

/-- Every step keeps the invariant: the build-time table and its immutable fields (R21, R22), `progress ≤
requested_length` and the buffer rules (R24 to R28), the derived capacities (R23), EP0's states (R30, R31), the FIFO bounds
(R34), the canonical memory (R51), the lifecycle signals (R46), the mask outside a step (R44), and the DMA registers. -/
def Obligations.StepKeepsTheInvariant : Prop :=
  ∀ s t : State, Inv Config.cfg s → step s = .next t → Inv Config.cfg t

/-- Every step keeps the canonical form of the memory, from every state that has it. -/
def Obligations.StepKeepsMemoryCanonical : Prop :=
  ∀ s t : State, Memory.wf s.mem = true → step s = .next t → Memory.wf t.mem = true

/-- R48, R49: a step only extends the two logs; nothing is ever removed from them. -/
def Obligations.LogsOnlyGrow : Prop :=
  ∀ s t : State, step s = .next t → s.upLog <+: t.upLog ∧ s.txLog <+: t.txLog

/-- R22, R41, R42, R43, R46, R47, R33, R51: which operations write which state, over all operations: the platform's input and
the memory's domain never change; the status registers change only by INIT and IRQ; the data-endpoint enables and `FADDR`
only by INIT, SHUTDOWN, RESETH and IRQ; the power, lifecycle, test-mode, DMA and bus-event enable state only by INIT and
SHUTDOWN; and, the buffers of the entries being as `EntriesOk` says, the control buffer only by CTRLH, DRAIN and IRQ, and
caller memory only by OUTH, DRAIN and IRQ. -/
def Obligations.WhichOperationsWriteWhichState : Prop :=
  ∀ (i : Instr) (s t : State), exec i s = .next t →
    t.vbusSense = s.vbusSense ∧ t.memMap = s.memMap ∧ t.program = s.program
    ∧ (i ≠ .init → i ≠ .irq →
        t.intrUsb = s.intrUsb ∧ t.intrIn = s.intrIn ∧ t.intrOut = s.intrOut ∧ t.dmaIntr = s.dmaIntr)
    ∧ (i ≠ .init → i ≠ .shutdown → i ≠ .reseth → i ≠ .irq →
        t.intrInE = s.intrInE ∧ t.intrOutE = s.intrOutE ∧ t.faddr = s.faddr)
    ∧ (i ≠ .init → i ≠ .shutdown →
        t.intrUsbE = s.intrUsbE ∧ t.hsMode = s.hsMode ∧ t.testMode = s.testMode ∧ t.dmaCntl = s.dmaCntl
        ∧ t.phase = s.phase ∧ t.domainPower = s.domainPower ∧ t.busConnect = s.busConnect)
    ∧ (EntriesOk Config.cfg s →
        (i ≠ .ctrlh → i ≠ .irq → (∀ ep size, i ≠ .drain ep size) → t.ctrlBuf = s.ctrlBuf)
        ∧ (i ≠ .irq → (∀ ep, i ≠ .outh ep) → (∀ ep size, i ≠ .drain ep size) → t.mem = s.mem))

/-- R51, R70: from a state that meets the invariant, no operation but a DRAIN issued by hand writes a byte of caller memory
outside the region of an OUT transfer in flight, and none changes which addresses the memory holds. -/
def Obligations.OnlyInFlightRegionsAreWritten : Prop :=
  ∀ (i : Instr) (s t : State), Inv Config.cfg s → (∀ ep size, i ≠ .drain ep size) → exec i s = .next t →
    t.memMap = s.memMap
    ∧ ∀ x, (∀ n e a, s.entry n .OUT = some e → e.buf = .mem a → ¬(a + e.prog ≤ x ∧ x < a + e.len)) →
        t.readByte x = s.readByte x

/-- R86, R150, R194: the packet-count law. A queued IN transfer of `L > 0` bytes on a data endpoint of capacity `F > 0`, the
host taking each packet before the next INH, as it may with the bus up and no stall requested: the rounds commit packets of
exactly `F` bytes but for the last, `⌈L/F⌉` in number, their bytes are the buffer's in order, and exactly one completion is
reported, with `L`, after the last: after every smaller number of rounds none is, and the transfer is in flight. -/
def Obligations.PacketCountLaw : Prop :=
  ∀ (c : Cfg) (s : State) (ep : EpNum) (e : Entry) (a : Nat) (bs : List Byte), ep ≠ 0 → s.entry ep .IN = some e →
    e.buf = .mem a → e.usesDma = false → e.prog = 0 → 0 < e.len → 0 < e.cap →
    (s.inCsr.get ep).sentStall = false → (s.inCsr.get ep).inPktRdy = false → s.tx.get ep = [] →
    s.phase = .On → s.busConnect = true → (s.inCsr.get ep).sendStall = false →
    s.readBytes a e.len = some bs →
      (∀ j, j < (e.len + e.cap - 1) / e.cap →
        ∃ u, inRounds c ep j s = some u ∧ u.upLog = s.upLog ∧ u.entry ep .IN = some { e with prog := j * e.cap })
      ∧ ∃ (t : State) (l : List TxRecord),
        inRounds c ep ((e.len + e.cap - 1) / e.cap) s = some t
        ∧ t.txLog = s.txLog ++ l
        ∧ l.length = (e.len + e.cap - 1) / e.cap
        ∧ (∀ r ∈ l, r.n = ep ∧ r.dataEnd = false)
        ∧ (∀ r ∈ l.dropLast, r.bytes.length = e.cap)
        ∧ (l.map TxRecord.bytes).flatten = bs
        ∧ t.upLog = s.upLog ++ [.onTransferComplete ep .IN 0 e.len]
        ∧ t.entry ep .IN = some { e with buf := .none, len := 0, prog := 0 }
end

