-- ==== Sys2Proof/Laws/Encode.lean ====
section
/-! SUPPORT. The byte order of words, both ways (R71, R103), the data words of format `VC` carried back to their bytes, and the fields of a head word read back. -/

namespace Sys2Proof

theorem leByte_leWord_0 (b0 b1 b2 b3 : Byte) : leByte (leWord b0 b1 b2 b3) 0 = b0 := by
  ext i hi; simp only [leByte, leWord, BitVec.getElem_extractLsb', BitVec.getLsbD_append]; simp [hi]

theorem leByte_leWord_1 (b0 b1 b2 b3 : Byte) : leByte (leWord b0 b1 b2 b3) 1 = b1 := by
  ext i hi; simp only [leByte, leWord, BitVec.getElem_extractLsb', BitVec.getLsbD_append]; simp [hi]

theorem leByte_leWord_2 (b0 b1 b2 b3 : Byte) : leByte (leWord b0 b1 b2 b3) 2 = b2 := by
  ext i hi
  simp only [leByte, leWord, BitVec.getElem_extractLsb', BitVec.getLsbD_append]
  have h1 : ¬(16 + i < 8) := by omega
  have h2 : ¬(16 + i - 8 < 8) := by omega
  have h3 : 16 + i - 8 - 8 = i := by omega
  simp [h1, h2, h3, hi]

theorem leByte_leWord_3 (b0 b1 b2 b3 : Byte) : leByte (leWord b0 b1 b2 b3) 3 = b3 := by
  ext i hi
  simp only [leByte, leWord, BitVec.getElem_extractLsb', BitVec.getLsbD_append]
  have h1 : ¬(24 + i < 8) := by omega
  have h2 : ¬(24 + i - 8 < 8) := by omega
  have h3 : ¬(24 + i - 8 - 8 < 8) := by omega
  have h4 : 24 + i - 8 - 8 - 8 = i := by omega
  simp [h1, h2, h3, h4, hi]

/-- A word is the word of its four bytes. -/
theorem leWord_leByte (w : Word) : leWord (leByte w 0) (leByte w 1) (leByte w 2) (leByte w 3) = w := by
  apply BitVec.eq_of_getLsbD_eq
  intro i hi
  simp only [leByte, leWord, BitVec.getLsbD_append, BitVec.getLsbD_extractLsb']
  by_cases h1 : i < 8
  · simp [h1]
  by_cases h2 : i < 16
  · have a : i - 8 < 8 := by omega
    have b : 8 + (i - 8) = i := by omega
    simp [h1, a, b]
  by_cases h3 : i < 24
  · have a : ¬ i - 8 < 8 := by omega
    have b : i - 8 - 8 < 8 := by omega
    have c : 16 + (i - 8 - 8) = i := by omega
    simp [h1, a, b, c]
  · have a : ¬ i - 8 < 8 := by omega
    have b : ¬ i - 8 - 8 < 8 := by omega
    have c : 24 + (i - 8 - 8 - 8) = i := by omega
    have d : i - 8 - 8 - 8 < 8 := by omega
    simp [h1, a, b, c, d]

@[simp] theorem length_dataWords (data : Vector Byte 64) : (dataWords data).length = 16 := by simp [dataWords]

/-- The bytes carried by the data words of a buffer are that buffer (R103). -/
theorem dataBytes_dataWords (data : Vector Byte 64) : dataBytes (dataWords data) = data := by
  apply Vector.ext
  intro i hi
  have h4 : i / 4 < 16 := by omega
  simp only [dataBytes, dataWords, Vector.getElem_ofFn, List.getD_eq_getElem?_getD, List.getElem?_map]
  rw [List.getElem?_eq_getElem (by simpa using h4)]
  simp only [List.getElem_finRange, Option.map_some, Option.getD_some, Fin.cast_mk]
  have hm : i % 4 = 0 ∨ i % 4 = 1 ∨ i % 4 = 2 ∨ i % 4 = 3 := by omega
  rcases hm with hm | hm | hm | hm <;> rw [hm]
  · rw [leByte_leWord_0]; congr 1; omega
  · rw [leByte_leWord_1]; congr 1; omega
  · rw [leByte_leWord_2]; congr 1; omega
  · rw [leByte_leWord_3]; congr 1; omega

/-! ### The fields of a head word that the encoder made -/

/-- The opcode of a head word is the one it was made with. -/
@[simp] theorem opField_headWord (op status : BitVec 8) (st : Bool) (d : Dir) (ep : EpNum) :
    opField (headWord op status st d ep) = op := by
  apply BitVec.eq_of_getLsbD_eq
  intro i hi
  have h1 : ¬ 24 + i < 4 := by omega
  have h2 : ¬ 24 + i - 4 < 4 := by omega
  have h3 : ¬ 24 + i - 4 - 4 < 1 := by omega
  have h4 : ¬ 24 + i - 4 - 4 - 1 < 1 := by omega
  have h5 : ¬ 24 + i - 4 - 4 - 1 - 1 < 6 := by omega
  have h6 : ¬ 24 + i - 4 - 4 - 1 - 1 - 6 < 8 := by omega
  have h7 : 24 + i - 4 - 4 - 1 - 1 - 6 - 8 = i := by omega
  simp only [opField, headWord, BitVec.getLsbD_extractLsb', BitVec.getLsbD_append]
  simp only [h1, h2, h3, h4, h5, h6, h7, hi, decide_true, if_false, Bool.true_and]

/-- The status byte of a head word is the one it was made with. -/
@[simp] theorem statusField_headWord (op status : BitVec 8) (st : Bool) (d : Dir) (ep : EpNum) :
    statusField (headWord op status st d ep) = status := by
  apply BitVec.eq_of_getLsbD_eq
  intro i hi
  have h1 : ¬ 16 + i < 4 := by omega
  have h2 : ¬ 16 + i - 4 < 4 := by omega
  have h3 : ¬ 16 + i - 4 - 4 < 1 := by omega
  have h4 : ¬ 16 + i - 4 - 4 - 1 < 1 := by omega
  have h5 : ¬ 16 + i - 4 - 4 - 1 - 1 < 6 := by omega
  have h7 : 16 + i - 4 - 4 - 1 - 1 - 6 = i := by omega
  simp only [statusField, headWord, BitVec.getLsbD_extractLsb', BitVec.getLsbD_append]
  simp only [h1, h2, h3, h4, h5, h7, hi, decide_true, if_false, if_true, Bool.true_and]

/-- The stall bit of a head word is the one it was made with. -/
@[simp] theorem stField_headWord (op status : BitVec 8) (st : Bool) (d : Dir) (ep : EpNum) :
    stField (headWord op status st d ep) = st := by
  simp only [stField, headWord, BitVec.getLsbD_append]
  simp

/-- The direction of a head word is the one it was made with. -/
@[simp] theorem dirField_headWord (op status : BitVec 8) (st : Bool) (d : Dir) (ep : EpNum) :
    dirField (headWord op status st d ep) = d := by
  simp only [dirField, headWord, BitVec.getLsbD_append]
  cases d <;> simp [Dir.bit]

/-- The endpoint of a head word is the one it was made with. -/
@[simp] theorem epField_headWord (op status : BitVec 8) (st : Bool) (d : Dir) (ep : EpNum) :
    epField (headWord op status st d ep) = ep := by
  have h : (headWord op status st d ep).extractLsb' 0 4 = BitVec.ofNat 4 ep.val := by
    apply BitVec.eq_of_getLsbD_eq
    intro i hi
    simp only [headWord, BitVec.getLsbD_extractLsb', BitVec.getLsbD_append, Nat.zero_add]
    simp only [hi, decide_true, if_true, Bool.true_and]
  simp only [epField, h]
  apply Fin.ext
  simp

end Sys2Proof
end

