-- ==== Sys2Proof/Laws/State.lean ====
section
/-! SUPPORT. The small lemmas of the state updates: one per field per update, and one for the table. No later proof unfolds a record update. -/

namespace Sys2Proof

@[simp] theorem Bank.get_put_self {α : Type} (b : Bank α) (n : EpNum) (v : α) : (b.put n v).get n = v := by
  simp [Bank.get, Bank.put]

theorem Bank.get_put {α : Type} (b : Bank α) (n m : EpNum) (v : α) :
    (b.put n v).get m = if n = m then v else b.get m := by
  simp [Bank.get, Bank.put, Vector.getElem_set, Fin.ext_iff]

@[simp] theorem Bank.get_all {α : Type} (v : α) (n : EpNum) : (Bank.all v).get n = v := by
  simp [Bank.get, Bank.all]

@[simp] theorem Bank.get_ofFn {α : Type} (f : EpNum → α) (n : EpNum) : Bank.get (Vector.ofFn f) n = f n := by
  simp [Bank.get]

@[simp] theorem Bank.put_put_self {α : Type} (b : Bank α) (n : EpNum) (v w : α) : (b.put n v).put n w = b.put n w := by
  simp [Bank.put, Vector.set_set]

theorem Bank.ext_get {α : Type} {a b : Bank α} (h : ∀ n, a.get n = b.get n) : a = b := by
  apply Vector.ext; intro i hi; exact h ⟨i, hi⟩

@[simp] theorem Bank.put_get {α : Type} (b : Bank α) (n : EpNum) : b.put n (b.get n) = b := by
  apply Bank.ext_get; intro m; rw [Bank.get_put]; split
  · subst_vars; rfl
  · rfl

namespace Machine

/-! ### markFault -/

@[simp] theorem markFault_epOut (r : FaultReason) (s : State) : (s.markFault r).epOut = s.epOut := rfl
@[simp] theorem markFault_epIn (r : FaultReason) (s : State) : (s.markFault r).epIn = s.epIn := rfl
@[simp] theorem markFault_ep0state (r : FaultReason) (s : State) : (s.markFault r).ep0state = s.ep0state := rfl
@[simp] theorem markFault_ctrlBuf (r : FaultReason) (s : State) : (s.markFault r).ctrlBuf = s.ctrlBuf := rfl
@[simp] theorem markFault_tx (r : FaultReason) (s : State) : (s.markFault r).tx = s.tx := rfl
@[simp] theorem markFault_rx (r : FaultReason) (s : State) : (s.markFault r).rx = s.rx := rfl
@[simp] theorem markFault_index (r : FaultReason) (s : State) : (s.markFault r).index = s.index := rfl
@[simp] theorem markFault_csr0 (r : FaultReason) (s : State) : (s.markFault r).csr0 = s.csr0 := rfl
@[simp] theorem markFault_inCsr (r : FaultReason) (s : State) : (s.markFault r).inCsr = s.inCsr := rfl
@[simp] theorem markFault_outCsr (r : FaultReason) (s : State) : (s.markFault r).outCsr = s.outCsr := rfl
@[simp] theorem markFault_intrUsb (r : FaultReason) (s : State) : (s.markFault r).intrUsb = s.intrUsb := rfl
@[simp] theorem markFault_intrIn (r : FaultReason) (s : State) : (s.markFault r).intrIn = s.intrIn := rfl
@[simp] theorem markFault_intrOut (r : FaultReason) (s : State) : (s.markFault r).intrOut = s.intrOut := rfl
@[simp] theorem markFault_dmaIntr (r : FaultReason) (s : State) : (s.markFault r).dmaIntr = s.dmaIntr := rfl
@[simp] theorem markFault_intrUsbE (r : FaultReason) (s : State) : (s.markFault r).intrUsbE = s.intrUsbE := rfl
@[simp] theorem markFault_intrInE (r : FaultReason) (s : State) : (s.markFault r).intrInE = s.intrInE := rfl
@[simp] theorem markFault_intrOutE (r : FaultReason) (s : State) : (s.markFault r).intrOutE = s.intrOutE := rfl
@[simp] theorem markFault_hsMode (r : FaultReason) (s : State) : (s.markFault r).hsMode = s.hsMode := rfl
@[simp] theorem markFault_faddr (r : FaultReason) (s : State) : (s.markFault r).faddr = s.faddr := rfl
@[simp] theorem markFault_testMode (r : FaultReason) (s : State) : (s.markFault r).testMode = s.testMode := rfl
@[simp] theorem markFault_dmaCntl (r : FaultReason) (s : State) : (s.markFault r).dmaCntl = s.dmaCntl := rfl
@[simp] theorem markFault_irqMasked (r : FaultReason) (s : State) : (s.markFault r).irqMasked = s.irqMasked := rfl
@[simp] theorem markFault_phase (r : FaultReason) (s : State) : (s.markFault r).phase = s.phase := rfl
@[simp] theorem markFault_domainPower (r : FaultReason) (s : State) : (s.markFault r).domainPower = s.domainPower := rfl
@[simp] theorem markFault_busConnect (r : FaultReason) (s : State) : (s.markFault r).busConnect = s.busConnect := rfl
@[simp] theorem markFault_vbusSense (r : FaultReason) (s : State) : (s.markFault r).vbusSense = s.vbusSense := rfl
@[simp] theorem markFault_upLog (r : FaultReason) (s : State) : (s.markFault r).upLog = s.upLog := rfl
@[simp] theorem markFault_txLog (r : FaultReason) (s : State) : (s.markFault r).txLog = s.txLog := rfl
@[simp] theorem markFault_fault (r : FaultReason) (s : State) : (s.markFault r).fault = s.fault.or (some r) := rfl
@[simp] theorem markFault_refused (r : FaultReason) (s : State) : (s.markFault r).refused = s.refused := rfl
@[simp] theorem markFault_mem (r : FaultReason) (s : State) : (s.markFault r).mem = s.mem := rfl
@[simp] theorem markFault_memMap (r : FaultReason) (s : State) : (s.markFault r).memMap = s.memMap := rfl
@[simp] theorem markFault_result (r : FaultReason) (s : State) : (s.markFault r).result = s.result := rfl
@[simp] theorem markFault_program (r : FaultReason) (s : State) : (s.markFault r).program = s.program := rfl
@[simp] theorem markFault_entry (r : FaultReason) (s : State) (m : EpNum) (d : Dir) : (s.markFault r).entry m d = s.entry m d := by cases d <;> rfl

/-! ### markRefused -/

@[simp] theorem markRefused_epOut (r : RefusalReason) (s : State) : (s.markRefused r).epOut = s.epOut := rfl
@[simp] theorem markRefused_epIn (r : RefusalReason) (s : State) : (s.markRefused r).epIn = s.epIn := rfl
@[simp] theorem markRefused_ep0state (r : RefusalReason) (s : State) : (s.markRefused r).ep0state = s.ep0state := rfl
@[simp] theorem markRefused_ctrlBuf (r : RefusalReason) (s : State) : (s.markRefused r).ctrlBuf = s.ctrlBuf := rfl
@[simp] theorem markRefused_tx (r : RefusalReason) (s : State) : (s.markRefused r).tx = s.tx := rfl
@[simp] theorem markRefused_rx (r : RefusalReason) (s : State) : (s.markRefused r).rx = s.rx := rfl
@[simp] theorem markRefused_index (r : RefusalReason) (s : State) : (s.markRefused r).index = s.index := rfl
@[simp] theorem markRefused_csr0 (r : RefusalReason) (s : State) : (s.markRefused r).csr0 = s.csr0 := rfl
@[simp] theorem markRefused_inCsr (r : RefusalReason) (s : State) : (s.markRefused r).inCsr = s.inCsr := rfl
@[simp] theorem markRefused_outCsr (r : RefusalReason) (s : State) : (s.markRefused r).outCsr = s.outCsr := rfl
@[simp] theorem markRefused_intrUsb (r : RefusalReason) (s : State) : (s.markRefused r).intrUsb = s.intrUsb := rfl
@[simp] theorem markRefused_intrIn (r : RefusalReason) (s : State) : (s.markRefused r).intrIn = s.intrIn := rfl
@[simp] theorem markRefused_intrOut (r : RefusalReason) (s : State) : (s.markRefused r).intrOut = s.intrOut := rfl
@[simp] theorem markRefused_dmaIntr (r : RefusalReason) (s : State) : (s.markRefused r).dmaIntr = s.dmaIntr := rfl
@[simp] theorem markRefused_intrUsbE (r : RefusalReason) (s : State) : (s.markRefused r).intrUsbE = s.intrUsbE := rfl
@[simp] theorem markRefused_intrInE (r : RefusalReason) (s : State) : (s.markRefused r).intrInE = s.intrInE := rfl
@[simp] theorem markRefused_intrOutE (r : RefusalReason) (s : State) : (s.markRefused r).intrOutE = s.intrOutE := rfl
@[simp] theorem markRefused_hsMode (r : RefusalReason) (s : State) : (s.markRefused r).hsMode = s.hsMode := rfl
@[simp] theorem markRefused_faddr (r : RefusalReason) (s : State) : (s.markRefused r).faddr = s.faddr := rfl
@[simp] theorem markRefused_testMode (r : RefusalReason) (s : State) : (s.markRefused r).testMode = s.testMode := rfl
@[simp] theorem markRefused_dmaCntl (r : RefusalReason) (s : State) : (s.markRefused r).dmaCntl = s.dmaCntl := rfl
@[simp] theorem markRefused_irqMasked (r : RefusalReason) (s : State) : (s.markRefused r).irqMasked = s.irqMasked := rfl
@[simp] theorem markRefused_phase (r : RefusalReason) (s : State) : (s.markRefused r).phase = s.phase := rfl
@[simp] theorem markRefused_domainPower (r : RefusalReason) (s : State) : (s.markRefused r).domainPower = s.domainPower := rfl
@[simp] theorem markRefused_busConnect (r : RefusalReason) (s : State) : (s.markRefused r).busConnect = s.busConnect := rfl
@[simp] theorem markRefused_vbusSense (r : RefusalReason) (s : State) : (s.markRefused r).vbusSense = s.vbusSense := rfl
@[simp] theorem markRefused_upLog (r : RefusalReason) (s : State) : (s.markRefused r).upLog = s.upLog := rfl
@[simp] theorem markRefused_txLog (r : RefusalReason) (s : State) : (s.markRefused r).txLog = s.txLog := rfl
@[simp] theorem markRefused_fault (r : RefusalReason) (s : State) : (s.markRefused r).fault = s.fault := rfl
@[simp] theorem markRefused_refused (r : RefusalReason) (s : State) : (s.markRefused r).refused = s.refused.or (some r) := rfl
@[simp] theorem markRefused_mem (r : RefusalReason) (s : State) : (s.markRefused r).mem = s.mem := rfl
@[simp] theorem markRefused_memMap (r : RefusalReason) (s : State) : (s.markRefused r).memMap = s.memMap := rfl
@[simp] theorem markRefused_result (r : RefusalReason) (s : State) : (s.markRefused r).result = s.result := rfl
@[simp] theorem markRefused_program (r : RefusalReason) (s : State) : (s.markRefused r).program = s.program := rfl
@[simp] theorem markRefused_entry (r : RefusalReason) (s : State) (m : EpNum) (d : Dir) : (s.markRefused r).entry m d = s.entry m d := by cases d <;> rfl

/-! ### selectEp -/

@[simp] theorem selectEp_epOut (ep : EpNum) (s : State) : (selectEp ep s).epOut = s.epOut := rfl
@[simp] theorem selectEp_epIn (ep : EpNum) (s : State) : (selectEp ep s).epIn = s.epIn := rfl
@[simp] theorem selectEp_ep0state (ep : EpNum) (s : State) : (selectEp ep s).ep0state = s.ep0state := rfl
@[simp] theorem selectEp_ctrlBuf (ep : EpNum) (s : State) : (selectEp ep s).ctrlBuf = s.ctrlBuf := rfl
@[simp] theorem selectEp_tx (ep : EpNum) (s : State) : (selectEp ep s).tx = s.tx := rfl
@[simp] theorem selectEp_rx (ep : EpNum) (s : State) : (selectEp ep s).rx = s.rx := rfl
@[simp] theorem selectEp_index (ep : EpNum) (s : State) : (selectEp ep s).index = ep := rfl
@[simp] theorem selectEp_csr0 (ep : EpNum) (s : State) : (selectEp ep s).csr0 = s.csr0 := rfl
@[simp] theorem selectEp_inCsr (ep : EpNum) (s : State) : (selectEp ep s).inCsr = s.inCsr := rfl
@[simp] theorem selectEp_outCsr (ep : EpNum) (s : State) : (selectEp ep s).outCsr = s.outCsr := rfl
@[simp] theorem selectEp_intrUsb (ep : EpNum) (s : State) : (selectEp ep s).intrUsb = s.intrUsb := rfl
@[simp] theorem selectEp_intrIn (ep : EpNum) (s : State) : (selectEp ep s).intrIn = s.intrIn := rfl
@[simp] theorem selectEp_intrOut (ep : EpNum) (s : State) : (selectEp ep s).intrOut = s.intrOut := rfl
@[simp] theorem selectEp_dmaIntr (ep : EpNum) (s : State) : (selectEp ep s).dmaIntr = s.dmaIntr := rfl
@[simp] theorem selectEp_intrUsbE (ep : EpNum) (s : State) : (selectEp ep s).intrUsbE = s.intrUsbE := rfl
@[simp] theorem selectEp_intrInE (ep : EpNum) (s : State) : (selectEp ep s).intrInE = s.intrInE := rfl
@[simp] theorem selectEp_intrOutE (ep : EpNum) (s : State) : (selectEp ep s).intrOutE = s.intrOutE := rfl
@[simp] theorem selectEp_hsMode (ep : EpNum) (s : State) : (selectEp ep s).hsMode = s.hsMode := rfl
@[simp] theorem selectEp_faddr (ep : EpNum) (s : State) : (selectEp ep s).faddr = s.faddr := rfl
@[simp] theorem selectEp_testMode (ep : EpNum) (s : State) : (selectEp ep s).testMode = s.testMode := rfl
@[simp] theorem selectEp_dmaCntl (ep : EpNum) (s : State) : (selectEp ep s).dmaCntl = s.dmaCntl := rfl
@[simp] theorem selectEp_irqMasked (ep : EpNum) (s : State) : (selectEp ep s).irqMasked = s.irqMasked := rfl
@[simp] theorem selectEp_phase (ep : EpNum) (s : State) : (selectEp ep s).phase = s.phase := rfl
@[simp] theorem selectEp_domainPower (ep : EpNum) (s : State) : (selectEp ep s).domainPower = s.domainPower := rfl
@[simp] theorem selectEp_busConnect (ep : EpNum) (s : State) : (selectEp ep s).busConnect = s.busConnect := rfl
@[simp] theorem selectEp_vbusSense (ep : EpNum) (s : State) : (selectEp ep s).vbusSense = s.vbusSense := rfl
@[simp] theorem selectEp_upLog (ep : EpNum) (s : State) : (selectEp ep s).upLog = s.upLog := rfl
@[simp] theorem selectEp_txLog (ep : EpNum) (s : State) : (selectEp ep s).txLog = s.txLog := rfl
@[simp] theorem selectEp_fault (ep : EpNum) (s : State) : (selectEp ep s).fault = s.fault := rfl
@[simp] theorem selectEp_refused (ep : EpNum) (s : State) : (selectEp ep s).refused = s.refused := rfl
@[simp] theorem selectEp_mem (ep : EpNum) (s : State) : (selectEp ep s).mem = s.mem := rfl
@[simp] theorem selectEp_memMap (ep : EpNum) (s : State) : (selectEp ep s).memMap = s.memMap := rfl
@[simp] theorem selectEp_result (ep : EpNum) (s : State) : (selectEp ep s).result = s.result := rfl
@[simp] theorem selectEp_program (ep : EpNum) (s : State) : (selectEp ep s).program = s.program := rfl
@[simp] theorem selectEp_entry (ep : EpNum) (s : State) (m : EpNum) (d : Dir) : (selectEp ep s).entry m d = s.entry m d := by cases d <;> rfl

/-! ### emit -/

@[simp] theorem emit_epOut (x : Notification) (s : State) : (emit x s).epOut = s.epOut := rfl
@[simp] theorem emit_epIn (x : Notification) (s : State) : (emit x s).epIn = s.epIn := rfl
@[simp] theorem emit_ep0state (x : Notification) (s : State) : (emit x s).ep0state = s.ep0state := rfl
@[simp] theorem emit_ctrlBuf (x : Notification) (s : State) : (emit x s).ctrlBuf = s.ctrlBuf := rfl
@[simp] theorem emit_tx (x : Notification) (s : State) : (emit x s).tx = s.tx := rfl
@[simp] theorem emit_rx (x : Notification) (s : State) : (emit x s).rx = s.rx := rfl
@[simp] theorem emit_index (x : Notification) (s : State) : (emit x s).index = s.index := rfl
@[simp] theorem emit_csr0 (x : Notification) (s : State) : (emit x s).csr0 = s.csr0 := rfl
@[simp] theorem emit_inCsr (x : Notification) (s : State) : (emit x s).inCsr = s.inCsr := rfl
@[simp] theorem emit_outCsr (x : Notification) (s : State) : (emit x s).outCsr = s.outCsr := rfl
@[simp] theorem emit_intrUsb (x : Notification) (s : State) : (emit x s).intrUsb = s.intrUsb := rfl
@[simp] theorem emit_intrIn (x : Notification) (s : State) : (emit x s).intrIn = s.intrIn := rfl
@[simp] theorem emit_intrOut (x : Notification) (s : State) : (emit x s).intrOut = s.intrOut := rfl
@[simp] theorem emit_dmaIntr (x : Notification) (s : State) : (emit x s).dmaIntr = s.dmaIntr := rfl
@[simp] theorem emit_intrUsbE (x : Notification) (s : State) : (emit x s).intrUsbE = s.intrUsbE := rfl
@[simp] theorem emit_intrInE (x : Notification) (s : State) : (emit x s).intrInE = s.intrInE := rfl
@[simp] theorem emit_intrOutE (x : Notification) (s : State) : (emit x s).intrOutE = s.intrOutE := rfl
@[simp] theorem emit_hsMode (x : Notification) (s : State) : (emit x s).hsMode = s.hsMode := rfl
@[simp] theorem emit_faddr (x : Notification) (s : State) : (emit x s).faddr = s.faddr := rfl
@[simp] theorem emit_testMode (x : Notification) (s : State) : (emit x s).testMode = s.testMode := rfl
@[simp] theorem emit_dmaCntl (x : Notification) (s : State) : (emit x s).dmaCntl = s.dmaCntl := rfl
@[simp] theorem emit_irqMasked (x : Notification) (s : State) : (emit x s).irqMasked = s.irqMasked := rfl
@[simp] theorem emit_phase (x : Notification) (s : State) : (emit x s).phase = s.phase := rfl
@[simp] theorem emit_domainPower (x : Notification) (s : State) : (emit x s).domainPower = s.domainPower := rfl
@[simp] theorem emit_busConnect (x : Notification) (s : State) : (emit x s).busConnect = s.busConnect := rfl
@[simp] theorem emit_vbusSense (x : Notification) (s : State) : (emit x s).vbusSense = s.vbusSense := rfl
@[simp] theorem emit_upLog (x : Notification) (s : State) : (emit x s).upLog = s.upLog ++ [x] := rfl
@[simp] theorem emit_txLog (x : Notification) (s : State) : (emit x s).txLog = s.txLog := rfl
@[simp] theorem emit_fault (x : Notification) (s : State) : (emit x s).fault = s.fault := rfl
@[simp] theorem emit_refused (x : Notification) (s : State) : (emit x s).refused = s.refused := rfl
@[simp] theorem emit_mem (x : Notification) (s : State) : (emit x s).mem = s.mem := rfl
@[simp] theorem emit_memMap (x : Notification) (s : State) : (emit x s).memMap = s.memMap := rfl
@[simp] theorem emit_result (x : Notification) (s : State) : (emit x s).result = s.result := rfl
@[simp] theorem emit_program (x : Notification) (s : State) : (emit x s).program = s.program := rfl
@[simp] theorem emit_entry (x : Notification) (s : State) (m : EpNum) (d : Dir) : (emit x s).entry m d = s.entry m d := by cases d <;> rfl

/-! ### commitPacket -/

@[simp] theorem commitPacket_epOut (n : EpNum) (b : Bool) (s : State) : (commitPacket n b s).epOut = s.epOut := rfl
@[simp] theorem commitPacket_epIn (n : EpNum) (b : Bool) (s : State) : (commitPacket n b s).epIn = s.epIn := rfl
@[simp] theorem commitPacket_ep0state (n : EpNum) (b : Bool) (s : State) : (commitPacket n b s).ep0state = s.ep0state := rfl
@[simp] theorem commitPacket_ctrlBuf (n : EpNum) (b : Bool) (s : State) : (commitPacket n b s).ctrlBuf = s.ctrlBuf := rfl
@[simp] theorem commitPacket_tx (n : EpNum) (b : Bool) (s : State) : (commitPacket n b s).tx = s.tx := rfl
@[simp] theorem commitPacket_rx (n : EpNum) (b : Bool) (s : State) : (commitPacket n b s).rx = s.rx := rfl
@[simp] theorem commitPacket_index (n : EpNum) (b : Bool) (s : State) : (commitPacket n b s).index = s.index := rfl
@[simp] theorem commitPacket_csr0 (n : EpNum) (b : Bool) (s : State) : (commitPacket n b s).csr0 = s.csr0 := rfl
@[simp] theorem commitPacket_inCsr (n : EpNum) (b : Bool) (s : State) : (commitPacket n b s).inCsr = s.inCsr := rfl
@[simp] theorem commitPacket_outCsr (n : EpNum) (b : Bool) (s : State) : (commitPacket n b s).outCsr = s.outCsr := rfl
@[simp] theorem commitPacket_intrUsb (n : EpNum) (b : Bool) (s : State) : (commitPacket n b s).intrUsb = s.intrUsb := rfl
@[simp] theorem commitPacket_intrIn (n : EpNum) (b : Bool) (s : State) : (commitPacket n b s).intrIn = s.intrIn := rfl
@[simp] theorem commitPacket_intrOut (n : EpNum) (b : Bool) (s : State) : (commitPacket n b s).intrOut = s.intrOut := rfl
@[simp] theorem commitPacket_dmaIntr (n : EpNum) (b : Bool) (s : State) : (commitPacket n b s).dmaIntr = s.dmaIntr := rfl
@[simp] theorem commitPacket_intrUsbE (n : EpNum) (b : Bool) (s : State) : (commitPacket n b s).intrUsbE = s.intrUsbE := rfl
@[simp] theorem commitPacket_intrInE (n : EpNum) (b : Bool) (s : State) : (commitPacket n b s).intrInE = s.intrInE := rfl
@[simp] theorem commitPacket_intrOutE (n : EpNum) (b : Bool) (s : State) : (commitPacket n b s).intrOutE = s.intrOutE := rfl
@[simp] theorem commitPacket_hsMode (n : EpNum) (b : Bool) (s : State) : (commitPacket n b s).hsMode = s.hsMode := rfl
@[simp] theorem commitPacket_faddr (n : EpNum) (b : Bool) (s : State) : (commitPacket n b s).faddr = s.faddr := rfl
@[simp] theorem commitPacket_testMode (n : EpNum) (b : Bool) (s : State) : (commitPacket n b s).testMode = s.testMode := rfl
@[simp] theorem commitPacket_dmaCntl (n : EpNum) (b : Bool) (s : State) : (commitPacket n b s).dmaCntl = s.dmaCntl := rfl
@[simp] theorem commitPacket_irqMasked (n : EpNum) (b : Bool) (s : State) : (commitPacket n b s).irqMasked = s.irqMasked := rfl
@[simp] theorem commitPacket_phase (n : EpNum) (b : Bool) (s : State) : (commitPacket n b s).phase = s.phase := rfl
@[simp] theorem commitPacket_domainPower (n : EpNum) (b : Bool) (s : State) : (commitPacket n b s).domainPower = s.domainPower := rfl
@[simp] theorem commitPacket_busConnect (n : EpNum) (b : Bool) (s : State) : (commitPacket n b s).busConnect = s.busConnect := rfl
@[simp] theorem commitPacket_vbusSense (n : EpNum) (b : Bool) (s : State) : (commitPacket n b s).vbusSense = s.vbusSense := rfl
@[simp] theorem commitPacket_upLog (n : EpNum) (b : Bool) (s : State) : (commitPacket n b s).upLog = s.upLog := rfl
@[simp] theorem commitPacket_txLog (n : EpNum) (b : Bool) (s : State) : (commitPacket n b s).txLog = s.txLog ++ [⟨n, s.tx.get n, b⟩] := rfl
@[simp] theorem commitPacket_fault (n : EpNum) (b : Bool) (s : State) : (commitPacket n b s).fault = s.fault := rfl
@[simp] theorem commitPacket_refused (n : EpNum) (b : Bool) (s : State) : (commitPacket n b s).refused = s.refused := rfl
@[simp] theorem commitPacket_mem (n : EpNum) (b : Bool) (s : State) : (commitPacket n b s).mem = s.mem := rfl
@[simp] theorem commitPacket_memMap (n : EpNum) (b : Bool) (s : State) : (commitPacket n b s).memMap = s.memMap := rfl
@[simp] theorem commitPacket_result (n : EpNum) (b : Bool) (s : State) : (commitPacket n b s).result = s.result := rfl
@[simp] theorem commitPacket_program (n : EpNum) (b : Bool) (s : State) : (commitPacket n b s).program = s.program := rfl
@[simp] theorem commitPacket_entry (n : EpNum) (b : Bool) (s : State) (m : EpNum) (d : Dir) : (commitPacket n b s).entry m d = s.entry m d := by cases d <;> rfl

/-! ### setMask -/

@[simp] theorem setMask_epOut (b : Bool) (s : State) : (setMask b s).epOut = s.epOut := rfl
@[simp] theorem setMask_epIn (b : Bool) (s : State) : (setMask b s).epIn = s.epIn := rfl
@[simp] theorem setMask_ep0state (b : Bool) (s : State) : (setMask b s).ep0state = s.ep0state := rfl
@[simp] theorem setMask_ctrlBuf (b : Bool) (s : State) : (setMask b s).ctrlBuf = s.ctrlBuf := rfl
@[simp] theorem setMask_tx (b : Bool) (s : State) : (setMask b s).tx = s.tx := rfl
@[simp] theorem setMask_rx (b : Bool) (s : State) : (setMask b s).rx = s.rx := rfl
@[simp] theorem setMask_index (b : Bool) (s : State) : (setMask b s).index = s.index := rfl
@[simp] theorem setMask_csr0 (b : Bool) (s : State) : (setMask b s).csr0 = s.csr0 := rfl
@[simp] theorem setMask_inCsr (b : Bool) (s : State) : (setMask b s).inCsr = s.inCsr := rfl
@[simp] theorem setMask_outCsr (b : Bool) (s : State) : (setMask b s).outCsr = s.outCsr := rfl
@[simp] theorem setMask_intrUsb (b : Bool) (s : State) : (setMask b s).intrUsb = s.intrUsb := rfl
@[simp] theorem setMask_intrIn (b : Bool) (s : State) : (setMask b s).intrIn = s.intrIn := rfl
@[simp] theorem setMask_intrOut (b : Bool) (s : State) : (setMask b s).intrOut = s.intrOut := rfl
@[simp] theorem setMask_dmaIntr (b : Bool) (s : State) : (setMask b s).dmaIntr = s.dmaIntr := rfl
@[simp] theorem setMask_intrUsbE (b : Bool) (s : State) : (setMask b s).intrUsbE = s.intrUsbE := rfl
@[simp] theorem setMask_intrInE (b : Bool) (s : State) : (setMask b s).intrInE = s.intrInE := rfl
@[simp] theorem setMask_intrOutE (b : Bool) (s : State) : (setMask b s).intrOutE = s.intrOutE := rfl
@[simp] theorem setMask_hsMode (b : Bool) (s : State) : (setMask b s).hsMode = s.hsMode := rfl
@[simp] theorem setMask_faddr (b : Bool) (s : State) : (setMask b s).faddr = s.faddr := rfl
@[simp] theorem setMask_testMode (b : Bool) (s : State) : (setMask b s).testMode = s.testMode := rfl
@[simp] theorem setMask_dmaCntl (b : Bool) (s : State) : (setMask b s).dmaCntl = s.dmaCntl := rfl
@[simp] theorem setMask_irqMasked (b : Bool) (s : State) : (setMask b s).irqMasked = b := rfl
@[simp] theorem setMask_phase (b : Bool) (s : State) : (setMask b s).phase = s.phase := rfl
@[simp] theorem setMask_domainPower (b : Bool) (s : State) : (setMask b s).domainPower = s.domainPower := rfl
@[simp] theorem setMask_busConnect (b : Bool) (s : State) : (setMask b s).busConnect = s.busConnect := rfl
@[simp] theorem setMask_vbusSense (b : Bool) (s : State) : (setMask b s).vbusSense = s.vbusSense := rfl
@[simp] theorem setMask_upLog (b : Bool) (s : State) : (setMask b s).upLog = s.upLog := rfl
@[simp] theorem setMask_txLog (b : Bool) (s : State) : (setMask b s).txLog = s.txLog := rfl
@[simp] theorem setMask_fault (b : Bool) (s : State) : (setMask b s).fault = s.fault := rfl
@[simp] theorem setMask_refused (b : Bool) (s : State) : (setMask b s).refused = s.refused := rfl
@[simp] theorem setMask_mem (b : Bool) (s : State) : (setMask b s).mem = s.mem := rfl
@[simp] theorem setMask_memMap (b : Bool) (s : State) : (setMask b s).memMap = s.memMap := rfl
@[simp] theorem setMask_result (b : Bool) (s : State) : (setMask b s).result = s.result := rfl
@[simp] theorem setMask_program (b : Bool) (s : State) : (setMask b s).program = s.program := rfl
@[simp] theorem setMask_entry (b : Bool) (s : State) (m : EpNum) (d : Dir) : (setMask b s).entry m d = s.entry m d := by cases d <;> rfl

/-! ### answer -/

@[simp] theorem answer_epOut (b : Bool) (s : State) : (answer b s).epOut = s.epOut := rfl
@[simp] theorem answer_epIn (b : Bool) (s : State) : (answer b s).epIn = s.epIn := rfl
@[simp] theorem answer_ep0state (b : Bool) (s : State) : (answer b s).ep0state = s.ep0state := rfl
@[simp] theorem answer_ctrlBuf (b : Bool) (s : State) : (answer b s).ctrlBuf = s.ctrlBuf := rfl
@[simp] theorem answer_tx (b : Bool) (s : State) : (answer b s).tx = s.tx := rfl
@[simp] theorem answer_rx (b : Bool) (s : State) : (answer b s).rx = s.rx := rfl
@[simp] theorem answer_index (b : Bool) (s : State) : (answer b s).index = s.index := rfl
@[simp] theorem answer_csr0 (b : Bool) (s : State) : (answer b s).csr0 = s.csr0 := rfl
@[simp] theorem answer_inCsr (b : Bool) (s : State) : (answer b s).inCsr = s.inCsr := rfl
@[simp] theorem answer_outCsr (b : Bool) (s : State) : (answer b s).outCsr = s.outCsr := rfl
@[simp] theorem answer_intrUsb (b : Bool) (s : State) : (answer b s).intrUsb = s.intrUsb := rfl
@[simp] theorem answer_intrIn (b : Bool) (s : State) : (answer b s).intrIn = s.intrIn := rfl
@[simp] theorem answer_intrOut (b : Bool) (s : State) : (answer b s).intrOut = s.intrOut := rfl
@[simp] theorem answer_dmaIntr (b : Bool) (s : State) : (answer b s).dmaIntr = s.dmaIntr := rfl
@[simp] theorem answer_intrUsbE (b : Bool) (s : State) : (answer b s).intrUsbE = s.intrUsbE := rfl
@[simp] theorem answer_intrInE (b : Bool) (s : State) : (answer b s).intrInE = s.intrInE := rfl
@[simp] theorem answer_intrOutE (b : Bool) (s : State) : (answer b s).intrOutE = s.intrOutE := rfl
@[simp] theorem answer_hsMode (b : Bool) (s : State) : (answer b s).hsMode = s.hsMode := rfl
@[simp] theorem answer_faddr (b : Bool) (s : State) : (answer b s).faddr = s.faddr := rfl
@[simp] theorem answer_testMode (b : Bool) (s : State) : (answer b s).testMode = s.testMode := rfl
@[simp] theorem answer_dmaCntl (b : Bool) (s : State) : (answer b s).dmaCntl = s.dmaCntl := rfl
@[simp] theorem answer_irqMasked (b : Bool) (s : State) : (answer b s).irqMasked = s.irqMasked := rfl
@[simp] theorem answer_phase (b : Bool) (s : State) : (answer b s).phase = s.phase := rfl
@[simp] theorem answer_domainPower (b : Bool) (s : State) : (answer b s).domainPower = s.domainPower := rfl
@[simp] theorem answer_busConnect (b : Bool) (s : State) : (answer b s).busConnect = s.busConnect := rfl
@[simp] theorem answer_vbusSense (b : Bool) (s : State) : (answer b s).vbusSense = s.vbusSense := rfl
@[simp] theorem answer_upLog (b : Bool) (s : State) : (answer b s).upLog = s.upLog := rfl
@[simp] theorem answer_txLog (b : Bool) (s : State) : (answer b s).txLog = s.txLog := rfl
@[simp] theorem answer_fault (b : Bool) (s : State) : (answer b s).fault = s.fault := rfl
@[simp] theorem answer_refused (b : Bool) (s : State) : (answer b s).refused = s.refused := rfl
@[simp] theorem answer_mem (b : Bool) (s : State) : (answer b s).mem = s.mem := rfl
@[simp] theorem answer_memMap (b : Bool) (s : State) : (answer b s).memMap = s.memMap := rfl
@[simp] theorem answer_result (b : Bool) (s : State) : (answer b s).result = some (boolWord b) := rfl
@[simp] theorem answer_program (b : Bool) (s : State) : (answer b s).program = s.program := rfl
@[simp] theorem answer_entry (b : Bool) (s : State) (m : EpNum) (d : Dir) : (answer b s).entry m d = s.entry m d := by cases d <;> rfl

/-! ### clearSentStall0 -/

@[simp] theorem clearSentStall0_epOut (s : State) : (clearSentStall0 s).epOut = s.epOut := rfl
@[simp] theorem clearSentStall0_epIn (s : State) : (clearSentStall0 s).epIn = s.epIn := rfl
@[simp] theorem clearSentStall0_ep0state (s : State) : (clearSentStall0 s).ep0state = s.ep0state := rfl
@[simp] theorem clearSentStall0_ctrlBuf (s : State) : (clearSentStall0 s).ctrlBuf = s.ctrlBuf := rfl
@[simp] theorem clearSentStall0_tx (s : State) : (clearSentStall0 s).tx = s.tx := rfl
@[simp] theorem clearSentStall0_rx (s : State) : (clearSentStall0 s).rx = s.rx := rfl
@[simp] theorem clearSentStall0_index (s : State) : (clearSentStall0 s).index = s.index := rfl
@[simp] theorem clearSentStall0_csr0 (s : State) : (clearSentStall0 s).csr0 = { s.csr0 with sentStall := false } := rfl
@[simp] theorem clearSentStall0_inCsr (s : State) : (clearSentStall0 s).inCsr = s.inCsr := rfl
@[simp] theorem clearSentStall0_outCsr (s : State) : (clearSentStall0 s).outCsr = s.outCsr := rfl
@[simp] theorem clearSentStall0_intrUsb (s : State) : (clearSentStall0 s).intrUsb = s.intrUsb := rfl
@[simp] theorem clearSentStall0_intrIn (s : State) : (clearSentStall0 s).intrIn = s.intrIn := rfl
@[simp] theorem clearSentStall0_intrOut (s : State) : (clearSentStall0 s).intrOut = s.intrOut := rfl
@[simp] theorem clearSentStall0_dmaIntr (s : State) : (clearSentStall0 s).dmaIntr = s.dmaIntr := rfl
@[simp] theorem clearSentStall0_intrUsbE (s : State) : (clearSentStall0 s).intrUsbE = s.intrUsbE := rfl
@[simp] theorem clearSentStall0_intrInE (s : State) : (clearSentStall0 s).intrInE = s.intrInE := rfl
@[simp] theorem clearSentStall0_intrOutE (s : State) : (clearSentStall0 s).intrOutE = s.intrOutE := rfl
@[simp] theorem clearSentStall0_hsMode (s : State) : (clearSentStall0 s).hsMode = s.hsMode := rfl
@[simp] theorem clearSentStall0_faddr (s : State) : (clearSentStall0 s).faddr = s.faddr := rfl
@[simp] theorem clearSentStall0_testMode (s : State) : (clearSentStall0 s).testMode = s.testMode := rfl
@[simp] theorem clearSentStall0_dmaCntl (s : State) : (clearSentStall0 s).dmaCntl = s.dmaCntl := rfl
@[simp] theorem clearSentStall0_irqMasked (s : State) : (clearSentStall0 s).irqMasked = s.irqMasked := rfl
@[simp] theorem clearSentStall0_phase (s : State) : (clearSentStall0 s).phase = s.phase := rfl
@[simp] theorem clearSentStall0_domainPower (s : State) : (clearSentStall0 s).domainPower = s.domainPower := rfl
@[simp] theorem clearSentStall0_busConnect (s : State) : (clearSentStall0 s).busConnect = s.busConnect := rfl
@[simp] theorem clearSentStall0_vbusSense (s : State) : (clearSentStall0 s).vbusSense = s.vbusSense := rfl
@[simp] theorem clearSentStall0_upLog (s : State) : (clearSentStall0 s).upLog = s.upLog := rfl
@[simp] theorem clearSentStall0_txLog (s : State) : (clearSentStall0 s).txLog = s.txLog := rfl
@[simp] theorem clearSentStall0_fault (s : State) : (clearSentStall0 s).fault = s.fault := rfl
@[simp] theorem clearSentStall0_refused (s : State) : (clearSentStall0 s).refused = s.refused := rfl
@[simp] theorem clearSentStall0_mem (s : State) : (clearSentStall0 s).mem = s.mem := rfl
@[simp] theorem clearSentStall0_memMap (s : State) : (clearSentStall0 s).memMap = s.memMap := rfl
@[simp] theorem clearSentStall0_result (s : State) : (clearSentStall0 s).result = s.result := rfl
@[simp] theorem clearSentStall0_program (s : State) : (clearSentStall0 s).program = s.program := rfl
@[simp] theorem clearSentStall0_entry (s : State) (m : EpNum) (d : Dir) : (clearSentStall0 s).entry m d = s.entry m d := by cases d <;> rfl

/-! ### clearSetupEnd -/

@[simp] theorem clearSetupEnd_epOut (s : State) : (clearSetupEnd s).epOut = s.epOut := rfl
@[simp] theorem clearSetupEnd_epIn (s : State) : (clearSetupEnd s).epIn = s.epIn := rfl
@[simp] theorem clearSetupEnd_ep0state (s : State) : (clearSetupEnd s).ep0state = s.ep0state := rfl
@[simp] theorem clearSetupEnd_ctrlBuf (s : State) : (clearSetupEnd s).ctrlBuf = s.ctrlBuf := rfl
@[simp] theorem clearSetupEnd_tx (s : State) : (clearSetupEnd s).tx = s.tx := rfl
@[simp] theorem clearSetupEnd_rx (s : State) : (clearSetupEnd s).rx = s.rx := rfl
@[simp] theorem clearSetupEnd_index (s : State) : (clearSetupEnd s).index = s.index := rfl
@[simp] theorem clearSetupEnd_csr0 (s : State) : (clearSetupEnd s).csr0 = { s.csr0 with setupEnd := false } := rfl
@[simp] theorem clearSetupEnd_inCsr (s : State) : (clearSetupEnd s).inCsr = s.inCsr := rfl
@[simp] theorem clearSetupEnd_outCsr (s : State) : (clearSetupEnd s).outCsr = s.outCsr := rfl
@[simp] theorem clearSetupEnd_intrUsb (s : State) : (clearSetupEnd s).intrUsb = s.intrUsb := rfl
@[simp] theorem clearSetupEnd_intrIn (s : State) : (clearSetupEnd s).intrIn = s.intrIn := rfl
@[simp] theorem clearSetupEnd_intrOut (s : State) : (clearSetupEnd s).intrOut = s.intrOut := rfl
@[simp] theorem clearSetupEnd_dmaIntr (s : State) : (clearSetupEnd s).dmaIntr = s.dmaIntr := rfl
@[simp] theorem clearSetupEnd_intrUsbE (s : State) : (clearSetupEnd s).intrUsbE = s.intrUsbE := rfl
@[simp] theorem clearSetupEnd_intrInE (s : State) : (clearSetupEnd s).intrInE = s.intrInE := rfl
@[simp] theorem clearSetupEnd_intrOutE (s : State) : (clearSetupEnd s).intrOutE = s.intrOutE := rfl
@[simp] theorem clearSetupEnd_hsMode (s : State) : (clearSetupEnd s).hsMode = s.hsMode := rfl
@[simp] theorem clearSetupEnd_faddr (s : State) : (clearSetupEnd s).faddr = s.faddr := rfl
@[simp] theorem clearSetupEnd_testMode (s : State) : (clearSetupEnd s).testMode = s.testMode := rfl
@[simp] theorem clearSetupEnd_dmaCntl (s : State) : (clearSetupEnd s).dmaCntl = s.dmaCntl := rfl
@[simp] theorem clearSetupEnd_irqMasked (s : State) : (clearSetupEnd s).irqMasked = s.irqMasked := rfl
@[simp] theorem clearSetupEnd_phase (s : State) : (clearSetupEnd s).phase = s.phase := rfl
@[simp] theorem clearSetupEnd_domainPower (s : State) : (clearSetupEnd s).domainPower = s.domainPower := rfl
@[simp] theorem clearSetupEnd_busConnect (s : State) : (clearSetupEnd s).busConnect = s.busConnect := rfl
@[simp] theorem clearSetupEnd_vbusSense (s : State) : (clearSetupEnd s).vbusSense = s.vbusSense := rfl
@[simp] theorem clearSetupEnd_upLog (s : State) : (clearSetupEnd s).upLog = s.upLog := rfl
@[simp] theorem clearSetupEnd_txLog (s : State) : (clearSetupEnd s).txLog = s.txLog := rfl
@[simp] theorem clearSetupEnd_fault (s : State) : (clearSetupEnd s).fault = s.fault := rfl
@[simp] theorem clearSetupEnd_refused (s : State) : (clearSetupEnd s).refused = s.refused := rfl
@[simp] theorem clearSetupEnd_mem (s : State) : (clearSetupEnd s).mem = s.mem := rfl
@[simp] theorem clearSetupEnd_memMap (s : State) : (clearSetupEnd s).memMap = s.memMap := rfl
@[simp] theorem clearSetupEnd_result (s : State) : (clearSetupEnd s).result = s.result := rfl
@[simp] theorem clearSetupEnd_program (s : State) : (clearSetupEnd s).program = s.program := rfl
@[simp] theorem clearSetupEnd_entry (s : State) (m : EpNum) (d : Dir) : (clearSetupEnd s).entry m d = s.entry m d := by cases d <;> rfl

/-! ### clearDataAvail -/

@[simp] theorem clearDataAvail_epOut (s : State) : (clearDataAvail s).epOut = s.epOut := rfl
@[simp] theorem clearDataAvail_epIn (s : State) : (clearDataAvail s).epIn = s.epIn := rfl
@[simp] theorem clearDataAvail_ep0state (s : State) : (clearDataAvail s).ep0state = s.ep0state := rfl
@[simp] theorem clearDataAvail_ctrlBuf (s : State) : (clearDataAvail s).ctrlBuf = s.ctrlBuf := rfl
@[simp] theorem clearDataAvail_tx (s : State) : (clearDataAvail s).tx = s.tx := rfl
@[simp] theorem clearDataAvail_rx (s : State) : (clearDataAvail s).rx = s.rx := rfl
@[simp] theorem clearDataAvail_index (s : State) : (clearDataAvail s).index = s.index := rfl
@[simp] theorem clearDataAvail_csr0 (s : State) : (clearDataAvail s).csr0 = { s.csr0 with dataAvail := false } := rfl
@[simp] theorem clearDataAvail_inCsr (s : State) : (clearDataAvail s).inCsr = s.inCsr := rfl
@[simp] theorem clearDataAvail_outCsr (s : State) : (clearDataAvail s).outCsr = s.outCsr := rfl
@[simp] theorem clearDataAvail_intrUsb (s : State) : (clearDataAvail s).intrUsb = s.intrUsb := rfl
@[simp] theorem clearDataAvail_intrIn (s : State) : (clearDataAvail s).intrIn = s.intrIn := rfl
@[simp] theorem clearDataAvail_intrOut (s : State) : (clearDataAvail s).intrOut = s.intrOut := rfl
@[simp] theorem clearDataAvail_dmaIntr (s : State) : (clearDataAvail s).dmaIntr = s.dmaIntr := rfl
@[simp] theorem clearDataAvail_intrUsbE (s : State) : (clearDataAvail s).intrUsbE = s.intrUsbE := rfl
@[simp] theorem clearDataAvail_intrInE (s : State) : (clearDataAvail s).intrInE = s.intrInE := rfl
@[simp] theorem clearDataAvail_intrOutE (s : State) : (clearDataAvail s).intrOutE = s.intrOutE := rfl
@[simp] theorem clearDataAvail_hsMode (s : State) : (clearDataAvail s).hsMode = s.hsMode := rfl
@[simp] theorem clearDataAvail_faddr (s : State) : (clearDataAvail s).faddr = s.faddr := rfl
@[simp] theorem clearDataAvail_testMode (s : State) : (clearDataAvail s).testMode = s.testMode := rfl
@[simp] theorem clearDataAvail_dmaCntl (s : State) : (clearDataAvail s).dmaCntl = s.dmaCntl := rfl
@[simp] theorem clearDataAvail_irqMasked (s : State) : (clearDataAvail s).irqMasked = s.irqMasked := rfl
@[simp] theorem clearDataAvail_phase (s : State) : (clearDataAvail s).phase = s.phase := rfl
@[simp] theorem clearDataAvail_domainPower (s : State) : (clearDataAvail s).domainPower = s.domainPower := rfl
@[simp] theorem clearDataAvail_busConnect (s : State) : (clearDataAvail s).busConnect = s.busConnect := rfl
@[simp] theorem clearDataAvail_vbusSense (s : State) : (clearDataAvail s).vbusSense = s.vbusSense := rfl
@[simp] theorem clearDataAvail_upLog (s : State) : (clearDataAvail s).upLog = s.upLog := rfl
@[simp] theorem clearDataAvail_txLog (s : State) : (clearDataAvail s).txLog = s.txLog := rfl
@[simp] theorem clearDataAvail_fault (s : State) : (clearDataAvail s).fault = s.fault := rfl
@[simp] theorem clearDataAvail_refused (s : State) : (clearDataAvail s).refused = s.refused := rfl
@[simp] theorem clearDataAvail_mem (s : State) : (clearDataAvail s).mem = s.mem := rfl
@[simp] theorem clearDataAvail_memMap (s : State) : (clearDataAvail s).memMap = s.memMap := rfl
@[simp] theorem clearDataAvail_result (s : State) : (clearDataAvail s).result = s.result := rfl
@[simp] theorem clearDataAvail_program (s : State) : (clearDataAvail s).program = s.program := rfl
@[simp] theorem clearDataAvail_entry (s : State) (m : EpNum) (d : Dir) : (clearDataAvail s).entry m d = s.entry m d := by cases d <;> rfl

/-! ### signalEp0 -/

@[simp] theorem signalEp0_epOut (b : Bool) (s : State) : (signalEp0 b s).epOut = s.epOut := rfl
@[simp] theorem signalEp0_epIn (b : Bool) (s : State) : (signalEp0 b s).epIn = s.epIn := rfl
@[simp] theorem signalEp0_ep0state (b : Bool) (s : State) : (signalEp0 b s).ep0state = s.ep0state := rfl
@[simp] theorem signalEp0_ctrlBuf (b : Bool) (s : State) : (signalEp0 b s).ctrlBuf = s.ctrlBuf := rfl
@[simp] theorem signalEp0_tx (b : Bool) (s : State) : (signalEp0 b s).tx = s.tx := rfl
@[simp] theorem signalEp0_rx (b : Bool) (s : State) : (signalEp0 b s).rx = s.rx := rfl
@[simp] theorem signalEp0_index (b : Bool) (s : State) : (signalEp0 b s).index = s.index := rfl
@[simp] theorem signalEp0_csr0 (b : Bool) (s : State) : (signalEp0 b s).csr0 = { s.csr0 with inPktRdy := true, dataEnd := s.csr0.dataEnd || b } := rfl
@[simp] theorem signalEp0_inCsr (b : Bool) (s : State) : (signalEp0 b s).inCsr = s.inCsr := rfl
@[simp] theorem signalEp0_outCsr (b : Bool) (s : State) : (signalEp0 b s).outCsr = s.outCsr := rfl
@[simp] theorem signalEp0_intrUsb (b : Bool) (s : State) : (signalEp0 b s).intrUsb = s.intrUsb := rfl
@[simp] theorem signalEp0_intrIn (b : Bool) (s : State) : (signalEp0 b s).intrIn = s.intrIn := rfl
@[simp] theorem signalEp0_intrOut (b : Bool) (s : State) : (signalEp0 b s).intrOut = s.intrOut := rfl
@[simp] theorem signalEp0_dmaIntr (b : Bool) (s : State) : (signalEp0 b s).dmaIntr = s.dmaIntr := rfl
@[simp] theorem signalEp0_intrUsbE (b : Bool) (s : State) : (signalEp0 b s).intrUsbE = s.intrUsbE := rfl
@[simp] theorem signalEp0_intrInE (b : Bool) (s : State) : (signalEp0 b s).intrInE = s.intrInE := rfl
@[simp] theorem signalEp0_intrOutE (b : Bool) (s : State) : (signalEp0 b s).intrOutE = s.intrOutE := rfl
@[simp] theorem signalEp0_hsMode (b : Bool) (s : State) : (signalEp0 b s).hsMode = s.hsMode := rfl
@[simp] theorem signalEp0_faddr (b : Bool) (s : State) : (signalEp0 b s).faddr = s.faddr := rfl
@[simp] theorem signalEp0_testMode (b : Bool) (s : State) : (signalEp0 b s).testMode = s.testMode := rfl
@[simp] theorem signalEp0_dmaCntl (b : Bool) (s : State) : (signalEp0 b s).dmaCntl = s.dmaCntl := rfl
@[simp] theorem signalEp0_irqMasked (b : Bool) (s : State) : (signalEp0 b s).irqMasked = s.irqMasked := rfl
@[simp] theorem signalEp0_phase (b : Bool) (s : State) : (signalEp0 b s).phase = s.phase := rfl
@[simp] theorem signalEp0_domainPower (b : Bool) (s : State) : (signalEp0 b s).domainPower = s.domainPower := rfl
@[simp] theorem signalEp0_busConnect (b : Bool) (s : State) : (signalEp0 b s).busConnect = s.busConnect := rfl
@[simp] theorem signalEp0_vbusSense (b : Bool) (s : State) : (signalEp0 b s).vbusSense = s.vbusSense := rfl
@[simp] theorem signalEp0_upLog (b : Bool) (s : State) : (signalEp0 b s).upLog = s.upLog := rfl
@[simp] theorem signalEp0_txLog (b : Bool) (s : State) : (signalEp0 b s).txLog = s.txLog := rfl
@[simp] theorem signalEp0_fault (b : Bool) (s : State) : (signalEp0 b s).fault = s.fault := rfl
@[simp] theorem signalEp0_refused (b : Bool) (s : State) : (signalEp0 b s).refused = s.refused := rfl
@[simp] theorem signalEp0_mem (b : Bool) (s : State) : (signalEp0 b s).mem = s.mem := rfl
@[simp] theorem signalEp0_memMap (b : Bool) (s : State) : (signalEp0 b s).memMap = s.memMap := rfl
@[simp] theorem signalEp0_result (b : Bool) (s : State) : (signalEp0 b s).result = s.result := rfl
@[simp] theorem signalEp0_program (b : Bool) (s : State) : (signalEp0 b s).program = s.program := rfl
@[simp] theorem signalEp0_entry (b : Bool) (s : State) (m : EpNum) (d : Dir) : (signalEp0 b s).entry m d = s.entry m d := by cases d <;> rfl

/-! ### setInPktRdy -/

@[simp] theorem setInPktRdy_epOut (n : EpNum) (b : Bool) (s : State) : (setInPktRdy n b s).epOut = s.epOut := rfl
@[simp] theorem setInPktRdy_epIn (n : EpNum) (b : Bool) (s : State) : (setInPktRdy n b s).epIn = s.epIn := rfl
@[simp] theorem setInPktRdy_ep0state (n : EpNum) (b : Bool) (s : State) : (setInPktRdy n b s).ep0state = s.ep0state := rfl
@[simp] theorem setInPktRdy_ctrlBuf (n : EpNum) (b : Bool) (s : State) : (setInPktRdy n b s).ctrlBuf = s.ctrlBuf := rfl
@[simp] theorem setInPktRdy_tx (n : EpNum) (b : Bool) (s : State) : (setInPktRdy n b s).tx = s.tx := rfl
@[simp] theorem setInPktRdy_rx (n : EpNum) (b : Bool) (s : State) : (setInPktRdy n b s).rx = s.rx := rfl
@[simp] theorem setInPktRdy_index (n : EpNum) (b : Bool) (s : State) : (setInPktRdy n b s).index = s.index := rfl
@[simp] theorem setInPktRdy_csr0 (n : EpNum) (b : Bool) (s : State) : (setInPktRdy n b s).csr0 = s.csr0 := rfl
@[simp] theorem setInPktRdy_inCsr (n : EpNum) (b : Bool) (s : State) : (setInPktRdy n b s).inCsr = s.inCsr.put n { s.inCsr.get n with inPktRdy := b } := rfl
@[simp] theorem setInPktRdy_outCsr (n : EpNum) (b : Bool) (s : State) : (setInPktRdy n b s).outCsr = s.outCsr := rfl
@[simp] theorem setInPktRdy_intrUsb (n : EpNum) (b : Bool) (s : State) : (setInPktRdy n b s).intrUsb = s.intrUsb := rfl
@[simp] theorem setInPktRdy_intrIn (n : EpNum) (b : Bool) (s : State) : (setInPktRdy n b s).intrIn = s.intrIn := rfl
@[simp] theorem setInPktRdy_intrOut (n : EpNum) (b : Bool) (s : State) : (setInPktRdy n b s).intrOut = s.intrOut := rfl
@[simp] theorem setInPktRdy_dmaIntr (n : EpNum) (b : Bool) (s : State) : (setInPktRdy n b s).dmaIntr = s.dmaIntr := rfl
@[simp] theorem setInPktRdy_intrUsbE (n : EpNum) (b : Bool) (s : State) : (setInPktRdy n b s).intrUsbE = s.intrUsbE := rfl
@[simp] theorem setInPktRdy_intrInE (n : EpNum) (b : Bool) (s : State) : (setInPktRdy n b s).intrInE = s.intrInE := rfl
@[simp] theorem setInPktRdy_intrOutE (n : EpNum) (b : Bool) (s : State) : (setInPktRdy n b s).intrOutE = s.intrOutE := rfl
@[simp] theorem setInPktRdy_hsMode (n : EpNum) (b : Bool) (s : State) : (setInPktRdy n b s).hsMode = s.hsMode := rfl
@[simp] theorem setInPktRdy_faddr (n : EpNum) (b : Bool) (s : State) : (setInPktRdy n b s).faddr = s.faddr := rfl
@[simp] theorem setInPktRdy_testMode (n : EpNum) (b : Bool) (s : State) : (setInPktRdy n b s).testMode = s.testMode := rfl
@[simp] theorem setInPktRdy_dmaCntl (n : EpNum) (b : Bool) (s : State) : (setInPktRdy n b s).dmaCntl = s.dmaCntl := rfl
@[simp] theorem setInPktRdy_irqMasked (n : EpNum) (b : Bool) (s : State) : (setInPktRdy n b s).irqMasked = s.irqMasked := rfl
@[simp] theorem setInPktRdy_phase (n : EpNum) (b : Bool) (s : State) : (setInPktRdy n b s).phase = s.phase := rfl
@[simp] theorem setInPktRdy_domainPower (n : EpNum) (b : Bool) (s : State) : (setInPktRdy n b s).domainPower = s.domainPower := rfl
@[simp] theorem setInPktRdy_busConnect (n : EpNum) (b : Bool) (s : State) : (setInPktRdy n b s).busConnect = s.busConnect := rfl
@[simp] theorem setInPktRdy_vbusSense (n : EpNum) (b : Bool) (s : State) : (setInPktRdy n b s).vbusSense = s.vbusSense := rfl
@[simp] theorem setInPktRdy_upLog (n : EpNum) (b : Bool) (s : State) : (setInPktRdy n b s).upLog = s.upLog := rfl
@[simp] theorem setInPktRdy_txLog (n : EpNum) (b : Bool) (s : State) : (setInPktRdy n b s).txLog = s.txLog := rfl
@[simp] theorem setInPktRdy_fault (n : EpNum) (b : Bool) (s : State) : (setInPktRdy n b s).fault = s.fault := rfl
@[simp] theorem setInPktRdy_refused (n : EpNum) (b : Bool) (s : State) : (setInPktRdy n b s).refused = s.refused := rfl
@[simp] theorem setInPktRdy_mem (n : EpNum) (b : Bool) (s : State) : (setInPktRdy n b s).mem = s.mem := rfl
@[simp] theorem setInPktRdy_memMap (n : EpNum) (b : Bool) (s : State) : (setInPktRdy n b s).memMap = s.memMap := rfl
@[simp] theorem setInPktRdy_result (n : EpNum) (b : Bool) (s : State) : (setInPktRdy n b s).result = s.result := rfl
@[simp] theorem setInPktRdy_program (n : EpNum) (b : Bool) (s : State) : (setInPktRdy n b s).program = s.program := rfl
@[simp] theorem setInPktRdy_entry (n : EpNum) (b : Bool) (s : State) (m : EpNum) (d : Dir) : (setInPktRdy n b s).entry m d = s.entry m d := by cases d <;> rfl

/-! ### clearSentStallIn -/

@[simp] theorem clearSentStallIn_epOut (n : EpNum) (s : State) : (clearSentStallIn n s).epOut = s.epOut := rfl
@[simp] theorem clearSentStallIn_epIn (n : EpNum) (s : State) : (clearSentStallIn n s).epIn = s.epIn := rfl
@[simp] theorem clearSentStallIn_ep0state (n : EpNum) (s : State) : (clearSentStallIn n s).ep0state = s.ep0state := rfl
@[simp] theorem clearSentStallIn_ctrlBuf (n : EpNum) (s : State) : (clearSentStallIn n s).ctrlBuf = s.ctrlBuf := rfl
@[simp] theorem clearSentStallIn_tx (n : EpNum) (s : State) : (clearSentStallIn n s).tx = s.tx := rfl
@[simp] theorem clearSentStallIn_rx (n : EpNum) (s : State) : (clearSentStallIn n s).rx = s.rx := rfl
@[simp] theorem clearSentStallIn_index (n : EpNum) (s : State) : (clearSentStallIn n s).index = s.index := rfl
@[simp] theorem clearSentStallIn_csr0 (n : EpNum) (s : State) : (clearSentStallIn n s).csr0 = s.csr0 := rfl
@[simp] theorem clearSentStallIn_inCsr (n : EpNum) (s : State) : (clearSentStallIn n s).inCsr = s.inCsr.put n { s.inCsr.get n with sentStall := false } := rfl
@[simp] theorem clearSentStallIn_outCsr (n : EpNum) (s : State) : (clearSentStallIn n s).outCsr = s.outCsr := rfl
@[simp] theorem clearSentStallIn_intrUsb (n : EpNum) (s : State) : (clearSentStallIn n s).intrUsb = s.intrUsb := rfl
@[simp] theorem clearSentStallIn_intrIn (n : EpNum) (s : State) : (clearSentStallIn n s).intrIn = s.intrIn := rfl
@[simp] theorem clearSentStallIn_intrOut (n : EpNum) (s : State) : (clearSentStallIn n s).intrOut = s.intrOut := rfl
@[simp] theorem clearSentStallIn_dmaIntr (n : EpNum) (s : State) : (clearSentStallIn n s).dmaIntr = s.dmaIntr := rfl
@[simp] theorem clearSentStallIn_intrUsbE (n : EpNum) (s : State) : (clearSentStallIn n s).intrUsbE = s.intrUsbE := rfl
@[simp] theorem clearSentStallIn_intrInE (n : EpNum) (s : State) : (clearSentStallIn n s).intrInE = s.intrInE := rfl
@[simp] theorem clearSentStallIn_intrOutE (n : EpNum) (s : State) : (clearSentStallIn n s).intrOutE = s.intrOutE := rfl
@[simp] theorem clearSentStallIn_hsMode (n : EpNum) (s : State) : (clearSentStallIn n s).hsMode = s.hsMode := rfl
@[simp] theorem clearSentStallIn_faddr (n : EpNum) (s : State) : (clearSentStallIn n s).faddr = s.faddr := rfl
@[simp] theorem clearSentStallIn_testMode (n : EpNum) (s : State) : (clearSentStallIn n s).testMode = s.testMode := rfl
@[simp] theorem clearSentStallIn_dmaCntl (n : EpNum) (s : State) : (clearSentStallIn n s).dmaCntl = s.dmaCntl := rfl
@[simp] theorem clearSentStallIn_irqMasked (n : EpNum) (s : State) : (clearSentStallIn n s).irqMasked = s.irqMasked := rfl
@[simp] theorem clearSentStallIn_phase (n : EpNum) (s : State) : (clearSentStallIn n s).phase = s.phase := rfl
@[simp] theorem clearSentStallIn_domainPower (n : EpNum) (s : State) : (clearSentStallIn n s).domainPower = s.domainPower := rfl
@[simp] theorem clearSentStallIn_busConnect (n : EpNum) (s : State) : (clearSentStallIn n s).busConnect = s.busConnect := rfl
@[simp] theorem clearSentStallIn_vbusSense (n : EpNum) (s : State) : (clearSentStallIn n s).vbusSense = s.vbusSense := rfl
@[simp] theorem clearSentStallIn_upLog (n : EpNum) (s : State) : (clearSentStallIn n s).upLog = s.upLog := rfl
@[simp] theorem clearSentStallIn_txLog (n : EpNum) (s : State) : (clearSentStallIn n s).txLog = s.txLog := rfl
@[simp] theorem clearSentStallIn_fault (n : EpNum) (s : State) : (clearSentStallIn n s).fault = s.fault := rfl
@[simp] theorem clearSentStallIn_refused (n : EpNum) (s : State) : (clearSentStallIn n s).refused = s.refused := rfl
@[simp] theorem clearSentStallIn_mem (n : EpNum) (s : State) : (clearSentStallIn n s).mem = s.mem := rfl
@[simp] theorem clearSentStallIn_memMap (n : EpNum) (s : State) : (clearSentStallIn n s).memMap = s.memMap := rfl
@[simp] theorem clearSentStallIn_result (n : EpNum) (s : State) : (clearSentStallIn n s).result = s.result := rfl
@[simp] theorem clearSentStallIn_program (n : EpNum) (s : State) : (clearSentStallIn n s).program = s.program := rfl
@[simp] theorem clearSentStallIn_entry (n : EpNum) (s : State) (m : EpNum) (d : Dir) : (clearSentStallIn n s).entry m d = s.entry m d := by cases d <;> rfl

/-! ### setOutPktRdy -/

@[simp] theorem setOutPktRdy_epOut (n : EpNum) (b : Bool) (s : State) : (setOutPktRdy n b s).epOut = s.epOut := rfl
@[simp] theorem setOutPktRdy_epIn (n : EpNum) (b : Bool) (s : State) : (setOutPktRdy n b s).epIn = s.epIn := rfl
@[simp] theorem setOutPktRdy_ep0state (n : EpNum) (b : Bool) (s : State) : (setOutPktRdy n b s).ep0state = s.ep0state := rfl
@[simp] theorem setOutPktRdy_ctrlBuf (n : EpNum) (b : Bool) (s : State) : (setOutPktRdy n b s).ctrlBuf = s.ctrlBuf := rfl
@[simp] theorem setOutPktRdy_tx (n : EpNum) (b : Bool) (s : State) : (setOutPktRdy n b s).tx = s.tx := rfl
@[simp] theorem setOutPktRdy_rx (n : EpNum) (b : Bool) (s : State) : (setOutPktRdy n b s).rx = s.rx := rfl
@[simp] theorem setOutPktRdy_index (n : EpNum) (b : Bool) (s : State) : (setOutPktRdy n b s).index = s.index := rfl
@[simp] theorem setOutPktRdy_csr0 (n : EpNum) (b : Bool) (s : State) : (setOutPktRdy n b s).csr0 = s.csr0 := rfl
@[simp] theorem setOutPktRdy_inCsr (n : EpNum) (b : Bool) (s : State) : (setOutPktRdy n b s).inCsr = s.inCsr := rfl
@[simp] theorem setOutPktRdy_outCsr (n : EpNum) (b : Bool) (s : State) : (setOutPktRdy n b s).outCsr = s.outCsr.put n { s.outCsr.get n with outPktRdy := b } := rfl
@[simp] theorem setOutPktRdy_intrUsb (n : EpNum) (b : Bool) (s : State) : (setOutPktRdy n b s).intrUsb = s.intrUsb := rfl
@[simp] theorem setOutPktRdy_intrIn (n : EpNum) (b : Bool) (s : State) : (setOutPktRdy n b s).intrIn = s.intrIn := rfl
@[simp] theorem setOutPktRdy_intrOut (n : EpNum) (b : Bool) (s : State) : (setOutPktRdy n b s).intrOut = s.intrOut := rfl
@[simp] theorem setOutPktRdy_dmaIntr (n : EpNum) (b : Bool) (s : State) : (setOutPktRdy n b s).dmaIntr = s.dmaIntr := rfl
@[simp] theorem setOutPktRdy_intrUsbE (n : EpNum) (b : Bool) (s : State) : (setOutPktRdy n b s).intrUsbE = s.intrUsbE := rfl
@[simp] theorem setOutPktRdy_intrInE (n : EpNum) (b : Bool) (s : State) : (setOutPktRdy n b s).intrInE = s.intrInE := rfl
@[simp] theorem setOutPktRdy_intrOutE (n : EpNum) (b : Bool) (s : State) : (setOutPktRdy n b s).intrOutE = s.intrOutE := rfl
@[simp] theorem setOutPktRdy_hsMode (n : EpNum) (b : Bool) (s : State) : (setOutPktRdy n b s).hsMode = s.hsMode := rfl
@[simp] theorem setOutPktRdy_faddr (n : EpNum) (b : Bool) (s : State) : (setOutPktRdy n b s).faddr = s.faddr := rfl
@[simp] theorem setOutPktRdy_testMode (n : EpNum) (b : Bool) (s : State) : (setOutPktRdy n b s).testMode = s.testMode := rfl
@[simp] theorem setOutPktRdy_dmaCntl (n : EpNum) (b : Bool) (s : State) : (setOutPktRdy n b s).dmaCntl = s.dmaCntl := rfl
@[simp] theorem setOutPktRdy_irqMasked (n : EpNum) (b : Bool) (s : State) : (setOutPktRdy n b s).irqMasked = s.irqMasked := rfl
@[simp] theorem setOutPktRdy_phase (n : EpNum) (b : Bool) (s : State) : (setOutPktRdy n b s).phase = s.phase := rfl
@[simp] theorem setOutPktRdy_domainPower (n : EpNum) (b : Bool) (s : State) : (setOutPktRdy n b s).domainPower = s.domainPower := rfl
@[simp] theorem setOutPktRdy_busConnect (n : EpNum) (b : Bool) (s : State) : (setOutPktRdy n b s).busConnect = s.busConnect := rfl
@[simp] theorem setOutPktRdy_vbusSense (n : EpNum) (b : Bool) (s : State) : (setOutPktRdy n b s).vbusSense = s.vbusSense := rfl
@[simp] theorem setOutPktRdy_upLog (n : EpNum) (b : Bool) (s : State) : (setOutPktRdy n b s).upLog = s.upLog := rfl
@[simp] theorem setOutPktRdy_txLog (n : EpNum) (b : Bool) (s : State) : (setOutPktRdy n b s).txLog = s.txLog := rfl
@[simp] theorem setOutPktRdy_fault (n : EpNum) (b : Bool) (s : State) : (setOutPktRdy n b s).fault = s.fault := rfl
@[simp] theorem setOutPktRdy_refused (n : EpNum) (b : Bool) (s : State) : (setOutPktRdy n b s).refused = s.refused := rfl
@[simp] theorem setOutPktRdy_mem (n : EpNum) (b : Bool) (s : State) : (setOutPktRdy n b s).mem = s.mem := rfl
@[simp] theorem setOutPktRdy_memMap (n : EpNum) (b : Bool) (s : State) : (setOutPktRdy n b s).memMap = s.memMap := rfl
@[simp] theorem setOutPktRdy_result (n : EpNum) (b : Bool) (s : State) : (setOutPktRdy n b s).result = s.result := rfl
@[simp] theorem setOutPktRdy_program (n : EpNum) (b : Bool) (s : State) : (setOutPktRdy n b s).program = s.program := rfl
@[simp] theorem setOutPktRdy_entry (n : EpNum) (b : Bool) (s : State) (m : EpNum) (d : Dir) : (setOutPktRdy n b s).entry m d = s.entry m d := by cases d <;> rfl

/-! ### clearSentStallOut -/

@[simp] theorem clearSentStallOut_epOut (n : EpNum) (s : State) : (clearSentStallOut n s).epOut = s.epOut := rfl
@[simp] theorem clearSentStallOut_epIn (n : EpNum) (s : State) : (clearSentStallOut n s).epIn = s.epIn := rfl
@[simp] theorem clearSentStallOut_ep0state (n : EpNum) (s : State) : (clearSentStallOut n s).ep0state = s.ep0state := rfl
@[simp] theorem clearSentStallOut_ctrlBuf (n : EpNum) (s : State) : (clearSentStallOut n s).ctrlBuf = s.ctrlBuf := rfl
@[simp] theorem clearSentStallOut_tx (n : EpNum) (s : State) : (clearSentStallOut n s).tx = s.tx := rfl
@[simp] theorem clearSentStallOut_rx (n : EpNum) (s : State) : (clearSentStallOut n s).rx = s.rx := rfl
@[simp] theorem clearSentStallOut_index (n : EpNum) (s : State) : (clearSentStallOut n s).index = s.index := rfl
@[simp] theorem clearSentStallOut_csr0 (n : EpNum) (s : State) : (clearSentStallOut n s).csr0 = s.csr0 := rfl
@[simp] theorem clearSentStallOut_inCsr (n : EpNum) (s : State) : (clearSentStallOut n s).inCsr = s.inCsr := rfl
@[simp] theorem clearSentStallOut_outCsr (n : EpNum) (s : State) : (clearSentStallOut n s).outCsr = s.outCsr.put n { s.outCsr.get n with sentStall := false } := rfl
@[simp] theorem clearSentStallOut_intrUsb (n : EpNum) (s : State) : (clearSentStallOut n s).intrUsb = s.intrUsb := rfl
@[simp] theorem clearSentStallOut_intrIn (n : EpNum) (s : State) : (clearSentStallOut n s).intrIn = s.intrIn := rfl
@[simp] theorem clearSentStallOut_intrOut (n : EpNum) (s : State) : (clearSentStallOut n s).intrOut = s.intrOut := rfl
@[simp] theorem clearSentStallOut_dmaIntr (n : EpNum) (s : State) : (clearSentStallOut n s).dmaIntr = s.dmaIntr := rfl
@[simp] theorem clearSentStallOut_intrUsbE (n : EpNum) (s : State) : (clearSentStallOut n s).intrUsbE = s.intrUsbE := rfl
@[simp] theorem clearSentStallOut_intrInE (n : EpNum) (s : State) : (clearSentStallOut n s).intrInE = s.intrInE := rfl
@[simp] theorem clearSentStallOut_intrOutE (n : EpNum) (s : State) : (clearSentStallOut n s).intrOutE = s.intrOutE := rfl
@[simp] theorem clearSentStallOut_hsMode (n : EpNum) (s : State) : (clearSentStallOut n s).hsMode = s.hsMode := rfl
@[simp] theorem clearSentStallOut_faddr (n : EpNum) (s : State) : (clearSentStallOut n s).faddr = s.faddr := rfl
@[simp] theorem clearSentStallOut_testMode (n : EpNum) (s : State) : (clearSentStallOut n s).testMode = s.testMode := rfl
@[simp] theorem clearSentStallOut_dmaCntl (n : EpNum) (s : State) : (clearSentStallOut n s).dmaCntl = s.dmaCntl := rfl
@[simp] theorem clearSentStallOut_irqMasked (n : EpNum) (s : State) : (clearSentStallOut n s).irqMasked = s.irqMasked := rfl
@[simp] theorem clearSentStallOut_phase (n : EpNum) (s : State) : (clearSentStallOut n s).phase = s.phase := rfl
@[simp] theorem clearSentStallOut_domainPower (n : EpNum) (s : State) : (clearSentStallOut n s).domainPower = s.domainPower := rfl
@[simp] theorem clearSentStallOut_busConnect (n : EpNum) (s : State) : (clearSentStallOut n s).busConnect = s.busConnect := rfl
@[simp] theorem clearSentStallOut_vbusSense (n : EpNum) (s : State) : (clearSentStallOut n s).vbusSense = s.vbusSense := rfl
@[simp] theorem clearSentStallOut_upLog (n : EpNum) (s : State) : (clearSentStallOut n s).upLog = s.upLog := rfl
@[simp] theorem clearSentStallOut_txLog (n : EpNum) (s : State) : (clearSentStallOut n s).txLog = s.txLog := rfl
@[simp] theorem clearSentStallOut_fault (n : EpNum) (s : State) : (clearSentStallOut n s).fault = s.fault := rfl
@[simp] theorem clearSentStallOut_refused (n : EpNum) (s : State) : (clearSentStallOut n s).refused = s.refused := rfl
@[simp] theorem clearSentStallOut_mem (n : EpNum) (s : State) : (clearSentStallOut n s).mem = s.mem := rfl
@[simp] theorem clearSentStallOut_memMap (n : EpNum) (s : State) : (clearSentStallOut n s).memMap = s.memMap := rfl
@[simp] theorem clearSentStallOut_result (n : EpNum) (s : State) : (clearSentStallOut n s).result = s.result := rfl
@[simp] theorem clearSentStallOut_program (n : EpNum) (s : State) : (clearSentStallOut n s).program = s.program := rfl
@[simp] theorem clearSentStallOut_entry (n : EpNum) (s : State) (m : EpNum) (d : Dir) : (clearSentStallOut n s).entry m d = s.entry m d := by cases d <;> rfl

/-! ### raiseIn -/

@[simp] theorem raiseIn_epOut (n : EpNum) (s : State) : (raiseIn n s).epOut = s.epOut := rfl
@[simp] theorem raiseIn_epIn (n : EpNum) (s : State) : (raiseIn n s).epIn = s.epIn := rfl
@[simp] theorem raiseIn_ep0state (n : EpNum) (s : State) : (raiseIn n s).ep0state = s.ep0state := rfl
@[simp] theorem raiseIn_ctrlBuf (n : EpNum) (s : State) : (raiseIn n s).ctrlBuf = s.ctrlBuf := rfl
@[simp] theorem raiseIn_tx (n : EpNum) (s : State) : (raiseIn n s).tx = s.tx := rfl
@[simp] theorem raiseIn_rx (n : EpNum) (s : State) : (raiseIn n s).rx = s.rx := rfl
@[simp] theorem raiseIn_index (n : EpNum) (s : State) : (raiseIn n s).index = s.index := rfl
@[simp] theorem raiseIn_csr0 (n : EpNum) (s : State) : (raiseIn n s).csr0 = s.csr0 := rfl
@[simp] theorem raiseIn_inCsr (n : EpNum) (s : State) : (raiseIn n s).inCsr = s.inCsr := rfl
@[simp] theorem raiseIn_outCsr (n : EpNum) (s : State) : (raiseIn n s).outCsr = s.outCsr := rfl
@[simp] theorem raiseIn_intrUsb (n : EpNum) (s : State) : (raiseIn n s).intrUsb = s.intrUsb := rfl
@[simp] theorem raiseIn_intrIn (n : EpNum) (s : State) : (raiseIn n s).intrIn = s.intrIn.put n true := rfl
@[simp] theorem raiseIn_intrOut (n : EpNum) (s : State) : (raiseIn n s).intrOut = s.intrOut := rfl
@[simp] theorem raiseIn_dmaIntr (n : EpNum) (s : State) : (raiseIn n s).dmaIntr = s.dmaIntr := rfl
@[simp] theorem raiseIn_intrUsbE (n : EpNum) (s : State) : (raiseIn n s).intrUsbE = s.intrUsbE := rfl
@[simp] theorem raiseIn_intrInE (n : EpNum) (s : State) : (raiseIn n s).intrInE = s.intrInE := rfl
@[simp] theorem raiseIn_intrOutE (n : EpNum) (s : State) : (raiseIn n s).intrOutE = s.intrOutE := rfl
@[simp] theorem raiseIn_hsMode (n : EpNum) (s : State) : (raiseIn n s).hsMode = s.hsMode := rfl
@[simp] theorem raiseIn_faddr (n : EpNum) (s : State) : (raiseIn n s).faddr = s.faddr := rfl
@[simp] theorem raiseIn_testMode (n : EpNum) (s : State) : (raiseIn n s).testMode = s.testMode := rfl
@[simp] theorem raiseIn_dmaCntl (n : EpNum) (s : State) : (raiseIn n s).dmaCntl = s.dmaCntl := rfl
@[simp] theorem raiseIn_irqMasked (n : EpNum) (s : State) : (raiseIn n s).irqMasked = s.irqMasked := rfl
@[simp] theorem raiseIn_phase (n : EpNum) (s : State) : (raiseIn n s).phase = s.phase := rfl
@[simp] theorem raiseIn_domainPower (n : EpNum) (s : State) : (raiseIn n s).domainPower = s.domainPower := rfl
@[simp] theorem raiseIn_busConnect (n : EpNum) (s : State) : (raiseIn n s).busConnect = s.busConnect := rfl
@[simp] theorem raiseIn_vbusSense (n : EpNum) (s : State) : (raiseIn n s).vbusSense = s.vbusSense := rfl
@[simp] theorem raiseIn_upLog (n : EpNum) (s : State) : (raiseIn n s).upLog = s.upLog := rfl
@[simp] theorem raiseIn_txLog (n : EpNum) (s : State) : (raiseIn n s).txLog = s.txLog := rfl
@[simp] theorem raiseIn_fault (n : EpNum) (s : State) : (raiseIn n s).fault = s.fault := rfl
@[simp] theorem raiseIn_refused (n : EpNum) (s : State) : (raiseIn n s).refused = s.refused := rfl
@[simp] theorem raiseIn_mem (n : EpNum) (s : State) : (raiseIn n s).mem = s.mem := rfl
@[simp] theorem raiseIn_memMap (n : EpNum) (s : State) : (raiseIn n s).memMap = s.memMap := rfl
@[simp] theorem raiseIn_result (n : EpNum) (s : State) : (raiseIn n s).result = s.result := rfl
@[simp] theorem raiseIn_program (n : EpNum) (s : State) : (raiseIn n s).program = s.program := rfl
@[simp] theorem raiseIn_entry (n : EpNum) (s : State) (m : EpNum) (d : Dir) : (raiseIn n s).entry m d = s.entry m d := by cases d <;> rfl

/-! ### raiseOut -/

@[simp] theorem raiseOut_epOut (n : EpNum) (s : State) : (raiseOut n s).epOut = s.epOut := rfl
@[simp] theorem raiseOut_epIn (n : EpNum) (s : State) : (raiseOut n s).epIn = s.epIn := rfl
@[simp] theorem raiseOut_ep0state (n : EpNum) (s : State) : (raiseOut n s).ep0state = s.ep0state := rfl
@[simp] theorem raiseOut_ctrlBuf (n : EpNum) (s : State) : (raiseOut n s).ctrlBuf = s.ctrlBuf := rfl
@[simp] theorem raiseOut_tx (n : EpNum) (s : State) : (raiseOut n s).tx = s.tx := rfl
@[simp] theorem raiseOut_rx (n : EpNum) (s : State) : (raiseOut n s).rx = s.rx := rfl
@[simp] theorem raiseOut_index (n : EpNum) (s : State) : (raiseOut n s).index = s.index := rfl
@[simp] theorem raiseOut_csr0 (n : EpNum) (s : State) : (raiseOut n s).csr0 = s.csr0 := rfl
@[simp] theorem raiseOut_inCsr (n : EpNum) (s : State) : (raiseOut n s).inCsr = s.inCsr := rfl
@[simp] theorem raiseOut_outCsr (n : EpNum) (s : State) : (raiseOut n s).outCsr = s.outCsr := rfl
@[simp] theorem raiseOut_intrUsb (n : EpNum) (s : State) : (raiseOut n s).intrUsb = s.intrUsb := rfl
@[simp] theorem raiseOut_intrIn (n : EpNum) (s : State) : (raiseOut n s).intrIn = s.intrIn := rfl
@[simp] theorem raiseOut_intrOut (n : EpNum) (s : State) : (raiseOut n s).intrOut = s.intrOut.put n true := rfl
@[simp] theorem raiseOut_dmaIntr (n : EpNum) (s : State) : (raiseOut n s).dmaIntr = s.dmaIntr := rfl
@[simp] theorem raiseOut_intrUsbE (n : EpNum) (s : State) : (raiseOut n s).intrUsbE = s.intrUsbE := rfl
@[simp] theorem raiseOut_intrInE (n : EpNum) (s : State) : (raiseOut n s).intrInE = s.intrInE := rfl
@[simp] theorem raiseOut_intrOutE (n : EpNum) (s : State) : (raiseOut n s).intrOutE = s.intrOutE := rfl
@[simp] theorem raiseOut_hsMode (n : EpNum) (s : State) : (raiseOut n s).hsMode = s.hsMode := rfl
@[simp] theorem raiseOut_faddr (n : EpNum) (s : State) : (raiseOut n s).faddr = s.faddr := rfl
@[simp] theorem raiseOut_testMode (n : EpNum) (s : State) : (raiseOut n s).testMode = s.testMode := rfl
@[simp] theorem raiseOut_dmaCntl (n : EpNum) (s : State) : (raiseOut n s).dmaCntl = s.dmaCntl := rfl
@[simp] theorem raiseOut_irqMasked (n : EpNum) (s : State) : (raiseOut n s).irqMasked = s.irqMasked := rfl
@[simp] theorem raiseOut_phase (n : EpNum) (s : State) : (raiseOut n s).phase = s.phase := rfl
@[simp] theorem raiseOut_domainPower (n : EpNum) (s : State) : (raiseOut n s).domainPower = s.domainPower := rfl
@[simp] theorem raiseOut_busConnect (n : EpNum) (s : State) : (raiseOut n s).busConnect = s.busConnect := rfl
@[simp] theorem raiseOut_vbusSense (n : EpNum) (s : State) : (raiseOut n s).vbusSense = s.vbusSense := rfl
@[simp] theorem raiseOut_upLog (n : EpNum) (s : State) : (raiseOut n s).upLog = s.upLog := rfl
@[simp] theorem raiseOut_txLog (n : EpNum) (s : State) : (raiseOut n s).txLog = s.txLog := rfl
@[simp] theorem raiseOut_fault (n : EpNum) (s : State) : (raiseOut n s).fault = s.fault := rfl
@[simp] theorem raiseOut_refused (n : EpNum) (s : State) : (raiseOut n s).refused = s.refused := rfl
@[simp] theorem raiseOut_mem (n : EpNum) (s : State) : (raiseOut n s).mem = s.mem := rfl
@[simp] theorem raiseOut_memMap (n : EpNum) (s : State) : (raiseOut n s).memMap = s.memMap := rfl
@[simp] theorem raiseOut_result (n : EpNum) (s : State) : (raiseOut n s).result = s.result := rfl
@[simp] theorem raiseOut_program (n : EpNum) (s : State) : (raiseOut n s).program = s.program := rfl
@[simp] theorem raiseOut_entry (n : EpNum) (s : State) (m : EpNum) (d : Dir) : (raiseOut n s).entry m d = s.entry m d := by cases d <;> rfl

/-! ### dropEp0Packet -/

@[simp] theorem dropEp0Packet_epOut (s : State) : (dropEp0Packet s).epOut = s.epOut := rfl
@[simp] theorem dropEp0Packet_epIn (s : State) : (dropEp0Packet s).epIn = s.epIn := rfl
@[simp] theorem dropEp0Packet_ep0state (s : State) : (dropEp0Packet s).ep0state = s.ep0state := rfl
@[simp] theorem dropEp0Packet_ctrlBuf (s : State) : (dropEp0Packet s).ctrlBuf = s.ctrlBuf := rfl
@[simp] theorem dropEp0Packet_tx (s : State) : (dropEp0Packet s).tx = s.tx.put 0 [] := rfl
@[simp] theorem dropEp0Packet_rx (s : State) : (dropEp0Packet s).rx = s.rx := rfl
@[simp] theorem dropEp0Packet_index (s : State) : (dropEp0Packet s).index = s.index := rfl
@[simp] theorem dropEp0Packet_csr0 (s : State) : (dropEp0Packet s).csr0 = { s.csr0 with inPktRdy := false, dataEnd := false } := rfl
@[simp] theorem dropEp0Packet_inCsr (s : State) : (dropEp0Packet s).inCsr = s.inCsr := rfl
@[simp] theorem dropEp0Packet_outCsr (s : State) : (dropEp0Packet s).outCsr = s.outCsr := rfl
@[simp] theorem dropEp0Packet_intrUsb (s : State) : (dropEp0Packet s).intrUsb = s.intrUsb := rfl
@[simp] theorem dropEp0Packet_intrIn (s : State) : (dropEp0Packet s).intrIn = s.intrIn := rfl
@[simp] theorem dropEp0Packet_intrOut (s : State) : (dropEp0Packet s).intrOut = s.intrOut := rfl
@[simp] theorem dropEp0Packet_dmaIntr (s : State) : (dropEp0Packet s).dmaIntr = s.dmaIntr := rfl
@[simp] theorem dropEp0Packet_intrUsbE (s : State) : (dropEp0Packet s).intrUsbE = s.intrUsbE := rfl
@[simp] theorem dropEp0Packet_intrInE (s : State) : (dropEp0Packet s).intrInE = s.intrInE := rfl
@[simp] theorem dropEp0Packet_intrOutE (s : State) : (dropEp0Packet s).intrOutE = s.intrOutE := rfl
@[simp] theorem dropEp0Packet_hsMode (s : State) : (dropEp0Packet s).hsMode = s.hsMode := rfl
@[simp] theorem dropEp0Packet_faddr (s : State) : (dropEp0Packet s).faddr = s.faddr := rfl
@[simp] theorem dropEp0Packet_testMode (s : State) : (dropEp0Packet s).testMode = s.testMode := rfl
@[simp] theorem dropEp0Packet_dmaCntl (s : State) : (dropEp0Packet s).dmaCntl = s.dmaCntl := rfl
@[simp] theorem dropEp0Packet_irqMasked (s : State) : (dropEp0Packet s).irqMasked = s.irqMasked := rfl
@[simp] theorem dropEp0Packet_phase (s : State) : (dropEp0Packet s).phase = s.phase := rfl
@[simp] theorem dropEp0Packet_domainPower (s : State) : (dropEp0Packet s).domainPower = s.domainPower := rfl
@[simp] theorem dropEp0Packet_busConnect (s : State) : (dropEp0Packet s).busConnect = s.busConnect := rfl
@[simp] theorem dropEp0Packet_vbusSense (s : State) : (dropEp0Packet s).vbusSense = s.vbusSense := rfl
@[simp] theorem dropEp0Packet_upLog (s : State) : (dropEp0Packet s).upLog = s.upLog := rfl
@[simp] theorem dropEp0Packet_txLog (s : State) : (dropEp0Packet s).txLog = s.txLog := rfl
@[simp] theorem dropEp0Packet_fault (s : State) : (dropEp0Packet s).fault = s.fault := rfl
@[simp] theorem dropEp0Packet_refused (s : State) : (dropEp0Packet s).refused = s.refused := rfl
@[simp] theorem dropEp0Packet_mem (s : State) : (dropEp0Packet s).mem = s.mem := rfl
@[simp] theorem dropEp0Packet_memMap (s : State) : (dropEp0Packet s).memMap = s.memMap := rfl
@[simp] theorem dropEp0Packet_result (s : State) : (dropEp0Packet s).result = s.result := rfl
@[simp] theorem dropEp0Packet_program (s : State) : (dropEp0Packet s).program = s.program := rfl
@[simp] theorem dropEp0Packet_entry (s : State) (m : EpNum) (d : Dir) : (dropEp0Packet s).entry m d = s.entry m d := by cases d <;> rfl

/-! ### clearPending -/

@[simp] theorem clearPending_epOut (s : State) : (clearPending s).epOut = s.epOut := rfl
@[simp] theorem clearPending_epIn (s : State) : (clearPending s).epIn = s.epIn := rfl
@[simp] theorem clearPending_ep0state (s : State) : (clearPending s).ep0state = s.ep0state := rfl
@[simp] theorem clearPending_ctrlBuf (s : State) : (clearPending s).ctrlBuf = s.ctrlBuf := rfl
@[simp] theorem clearPending_tx (s : State) : (clearPending s).tx = s.tx := rfl
@[simp] theorem clearPending_rx (s : State) : (clearPending s).rx = s.rx := rfl
@[simp] theorem clearPending_index (s : State) : (clearPending s).index = s.index := rfl
@[simp] theorem clearPending_csr0 (s : State) : (clearPending s).csr0 = s.csr0 := rfl
@[simp] theorem clearPending_inCsr (s : State) : (clearPending s).inCsr = s.inCsr := rfl
@[simp] theorem clearPending_outCsr (s : State) : (clearPending s).outCsr = s.outCsr := rfl
@[simp] theorem clearPending_intrUsb (s : State) : (clearPending s).intrUsb = UsbFlags.zero := rfl
@[simp] theorem clearPending_intrIn (s : State) : (clearPending s).intrIn = Bank.all false := rfl
@[simp] theorem clearPending_intrOut (s : State) : (clearPending s).intrOut = Bank.all false := rfl
@[simp] theorem clearPending_dmaIntr (s : State) : (clearPending s).dmaIntr = 0 := rfl
@[simp] theorem clearPending_intrUsbE (s : State) : (clearPending s).intrUsbE = s.intrUsbE := rfl
@[simp] theorem clearPending_intrInE (s : State) : (clearPending s).intrInE = s.intrInE := rfl
@[simp] theorem clearPending_intrOutE (s : State) : (clearPending s).intrOutE = s.intrOutE := rfl
@[simp] theorem clearPending_hsMode (s : State) : (clearPending s).hsMode = s.hsMode := rfl
@[simp] theorem clearPending_faddr (s : State) : (clearPending s).faddr = s.faddr := rfl
@[simp] theorem clearPending_testMode (s : State) : (clearPending s).testMode = s.testMode := rfl
@[simp] theorem clearPending_dmaCntl (s : State) : (clearPending s).dmaCntl = s.dmaCntl := rfl
@[simp] theorem clearPending_irqMasked (s : State) : (clearPending s).irqMasked = s.irqMasked := rfl
@[simp] theorem clearPending_phase (s : State) : (clearPending s).phase = s.phase := rfl
@[simp] theorem clearPending_domainPower (s : State) : (clearPending s).domainPower = s.domainPower := rfl
@[simp] theorem clearPending_busConnect (s : State) : (clearPending s).busConnect = s.busConnect := rfl
@[simp] theorem clearPending_vbusSense (s : State) : (clearPending s).vbusSense = s.vbusSense := rfl
@[simp] theorem clearPending_upLog (s : State) : (clearPending s).upLog = s.upLog := rfl
@[simp] theorem clearPending_txLog (s : State) : (clearPending s).txLog = s.txLog := rfl
@[simp] theorem clearPending_fault (s : State) : (clearPending s).fault = s.fault := rfl
@[simp] theorem clearPending_refused (s : State) : (clearPending s).refused = s.refused := rfl
@[simp] theorem clearPending_mem (s : State) : (clearPending s).mem = s.mem := rfl
@[simp] theorem clearPending_memMap (s : State) : (clearPending s).memMap = s.memMap := rfl
@[simp] theorem clearPending_result (s : State) : (clearPending s).result = s.result := rfl
@[simp] theorem clearPending_program (s : State) : (clearPending s).program = s.program := rfl
@[simp] theorem clearPending_entry (s : State) (m : EpNum) (d : Dir) : (clearPending s).entry m d = s.entry m d := by cases d <;> rfl

/-! ### putEntry -/

@[simp] theorem putEntry_ep0state (n : EpNum) (d : Dir) (e : Entry) (s : State) : (s.putEntry n d e).ep0state = s.ep0state := by
  cases d <;> rfl
@[simp] theorem putEntry_ctrlBuf (n : EpNum) (d : Dir) (e : Entry) (s : State) : (s.putEntry n d e).ctrlBuf = s.ctrlBuf := by
  cases d <;> rfl
@[simp] theorem putEntry_tx (n : EpNum) (d : Dir) (e : Entry) (s : State) : (s.putEntry n d e).tx = s.tx := by
  cases d <;> rfl
@[simp] theorem putEntry_rx (n : EpNum) (d : Dir) (e : Entry) (s : State) : (s.putEntry n d e).rx = s.rx := by
  cases d <;> rfl
@[simp] theorem putEntry_index (n : EpNum) (d : Dir) (e : Entry) (s : State) : (s.putEntry n d e).index = s.index := by
  cases d <;> rfl
@[simp] theorem putEntry_csr0 (n : EpNum) (d : Dir) (e : Entry) (s : State) : (s.putEntry n d e).csr0 = s.csr0 := by
  cases d <;> rfl
@[simp] theorem putEntry_inCsr (n : EpNum) (d : Dir) (e : Entry) (s : State) : (s.putEntry n d e).inCsr = s.inCsr := by
  cases d <;> rfl
@[simp] theorem putEntry_outCsr (n : EpNum) (d : Dir) (e : Entry) (s : State) : (s.putEntry n d e).outCsr = s.outCsr := by
  cases d <;> rfl
@[simp] theorem putEntry_intrUsb (n : EpNum) (d : Dir) (e : Entry) (s : State) : (s.putEntry n d e).intrUsb = s.intrUsb := by
  cases d <;> rfl
@[simp] theorem putEntry_intrIn (n : EpNum) (d : Dir) (e : Entry) (s : State) : (s.putEntry n d e).intrIn = s.intrIn := by
  cases d <;> rfl
@[simp] theorem putEntry_intrOut (n : EpNum) (d : Dir) (e : Entry) (s : State) : (s.putEntry n d e).intrOut = s.intrOut := by
  cases d <;> rfl
@[simp] theorem putEntry_dmaIntr (n : EpNum) (d : Dir) (e : Entry) (s : State) : (s.putEntry n d e).dmaIntr = s.dmaIntr := by
  cases d <;> rfl
@[simp] theorem putEntry_intrUsbE (n : EpNum) (d : Dir) (e : Entry) (s : State) : (s.putEntry n d e).intrUsbE = s.intrUsbE := by
  cases d <;> rfl
@[simp] theorem putEntry_intrInE (n : EpNum) (d : Dir) (e : Entry) (s : State) : (s.putEntry n d e).intrInE = s.intrInE := by
  cases d <;> rfl
@[simp] theorem putEntry_intrOutE (n : EpNum) (d : Dir) (e : Entry) (s : State) : (s.putEntry n d e).intrOutE = s.intrOutE := by
  cases d <;> rfl
@[simp] theorem putEntry_hsMode (n : EpNum) (d : Dir) (e : Entry) (s : State) : (s.putEntry n d e).hsMode = s.hsMode := by
  cases d <;> rfl
@[simp] theorem putEntry_faddr (n : EpNum) (d : Dir) (e : Entry) (s : State) : (s.putEntry n d e).faddr = s.faddr := by
  cases d <;> rfl
@[simp] theorem putEntry_testMode (n : EpNum) (d : Dir) (e : Entry) (s : State) : (s.putEntry n d e).testMode = s.testMode := by
  cases d <;> rfl
@[simp] theorem putEntry_dmaCntl (n : EpNum) (d : Dir) (e : Entry) (s : State) : (s.putEntry n d e).dmaCntl = s.dmaCntl := by
  cases d <;> rfl
@[simp] theorem putEntry_irqMasked (n : EpNum) (d : Dir) (e : Entry) (s : State) : (s.putEntry n d e).irqMasked = s.irqMasked := by
  cases d <;> rfl
@[simp] theorem putEntry_phase (n : EpNum) (d : Dir) (e : Entry) (s : State) : (s.putEntry n d e).phase = s.phase := by
  cases d <;> rfl
@[simp] theorem putEntry_domainPower (n : EpNum) (d : Dir) (e : Entry) (s : State) : (s.putEntry n d e).domainPower = s.domainPower := by
  cases d <;> rfl
@[simp] theorem putEntry_busConnect (n : EpNum) (d : Dir) (e : Entry) (s : State) : (s.putEntry n d e).busConnect = s.busConnect := by
  cases d <;> rfl
@[simp] theorem putEntry_vbusSense (n : EpNum) (d : Dir) (e : Entry) (s : State) : (s.putEntry n d e).vbusSense = s.vbusSense := by
  cases d <;> rfl
@[simp] theorem putEntry_upLog (n : EpNum) (d : Dir) (e : Entry) (s : State) : (s.putEntry n d e).upLog = s.upLog := by
  cases d <;> rfl
@[simp] theorem putEntry_txLog (n : EpNum) (d : Dir) (e : Entry) (s : State) : (s.putEntry n d e).txLog = s.txLog := by
  cases d <;> rfl
@[simp] theorem putEntry_fault (n : EpNum) (d : Dir) (e : Entry) (s : State) : (s.putEntry n d e).fault = s.fault := by
  cases d <;> rfl
@[simp] theorem putEntry_refused (n : EpNum) (d : Dir) (e : Entry) (s : State) : (s.putEntry n d e).refused = s.refused := by
  cases d <;> rfl
@[simp] theorem putEntry_mem (n : EpNum) (d : Dir) (e : Entry) (s : State) : (s.putEntry n d e).mem = s.mem := by
  cases d <;> rfl
@[simp] theorem putEntry_memMap (n : EpNum) (d : Dir) (e : Entry) (s : State) : (s.putEntry n d e).memMap = s.memMap := by
  cases d <;> rfl
@[simp] theorem putEntry_result (n : EpNum) (d : Dir) (e : Entry) (s : State) : (s.putEntry n d e).result = s.result := by
  cases d <;> rfl
@[simp] theorem putEntry_program (n : EpNum) (d : Dir) (e : Entry) (s : State) : (s.putEntry n d e).program = s.program := by
  cases d <;> rfl

theorem putEntry_entry (n : EpNum) (d : Dir) (e : Entry) (s : State) (m : EpNum) (d' : Dir) :
    (s.putEntry n d e).entry m d' = if n = m ∧ d = d' then some e else s.entry m d' := by
  cases d <;> cases d' <;> simp [State.putEntry, State.entry, Bank.get_put]

@[simp] theorem putEntry_entry_self (n : EpNum) (d : Dir) (e : Entry) (s : State) :
    (s.putEntry n d e).entry n d = some e := by simp [putEntry_entry]

/-! ### clearEntry -/

@[simp] theorem clearEntry_ep0state (n : EpNum) (d : Dir) (s : State) : (clearEntry n d s).ep0state = s.ep0state := by
  unfold clearEntry; split <;> simp
@[simp] theorem clearEntry_ctrlBuf (n : EpNum) (d : Dir) (s : State) : (clearEntry n d s).ctrlBuf = s.ctrlBuf := by
  unfold clearEntry; split <;> simp
@[simp] theorem clearEntry_tx (n : EpNum) (d : Dir) (s : State) : (clearEntry n d s).tx = s.tx := by
  unfold clearEntry; split <;> simp
@[simp] theorem clearEntry_rx (n : EpNum) (d : Dir) (s : State) : (clearEntry n d s).rx = s.rx := by
  unfold clearEntry; split <;> simp
@[simp] theorem clearEntry_index (n : EpNum) (d : Dir) (s : State) : (clearEntry n d s).index = s.index := by
  unfold clearEntry; split <;> simp
@[simp] theorem clearEntry_csr0 (n : EpNum) (d : Dir) (s : State) : (clearEntry n d s).csr0 = s.csr0 := by
  unfold clearEntry; split <;> simp
@[simp] theorem clearEntry_inCsr (n : EpNum) (d : Dir) (s : State) : (clearEntry n d s).inCsr = s.inCsr := by
  unfold clearEntry; split <;> simp
@[simp] theorem clearEntry_outCsr (n : EpNum) (d : Dir) (s : State) : (clearEntry n d s).outCsr = s.outCsr := by
  unfold clearEntry; split <;> simp
@[simp] theorem clearEntry_intrUsb (n : EpNum) (d : Dir) (s : State) : (clearEntry n d s).intrUsb = s.intrUsb := by
  unfold clearEntry; split <;> simp
@[simp] theorem clearEntry_intrIn (n : EpNum) (d : Dir) (s : State) : (clearEntry n d s).intrIn = s.intrIn := by
  unfold clearEntry; split <;> simp
@[simp] theorem clearEntry_intrOut (n : EpNum) (d : Dir) (s : State) : (clearEntry n d s).intrOut = s.intrOut := by
  unfold clearEntry; split <;> simp
@[simp] theorem clearEntry_dmaIntr (n : EpNum) (d : Dir) (s : State) : (clearEntry n d s).dmaIntr = s.dmaIntr := by
  unfold clearEntry; split <;> simp
@[simp] theorem clearEntry_intrUsbE (n : EpNum) (d : Dir) (s : State) : (clearEntry n d s).intrUsbE = s.intrUsbE := by
  unfold clearEntry; split <;> simp
@[simp] theorem clearEntry_intrInE (n : EpNum) (d : Dir) (s : State) : (clearEntry n d s).intrInE = s.intrInE := by
  unfold clearEntry; split <;> simp
@[simp] theorem clearEntry_intrOutE (n : EpNum) (d : Dir) (s : State) : (clearEntry n d s).intrOutE = s.intrOutE := by
  unfold clearEntry; split <;> simp
@[simp] theorem clearEntry_hsMode (n : EpNum) (d : Dir) (s : State) : (clearEntry n d s).hsMode = s.hsMode := by
  unfold clearEntry; split <;> simp
@[simp] theorem clearEntry_faddr (n : EpNum) (d : Dir) (s : State) : (clearEntry n d s).faddr = s.faddr := by
  unfold clearEntry; split <;> simp
@[simp] theorem clearEntry_testMode (n : EpNum) (d : Dir) (s : State) : (clearEntry n d s).testMode = s.testMode := by
  unfold clearEntry; split <;> simp
@[simp] theorem clearEntry_dmaCntl (n : EpNum) (d : Dir) (s : State) : (clearEntry n d s).dmaCntl = s.dmaCntl := by
  unfold clearEntry; split <;> simp
@[simp] theorem clearEntry_irqMasked (n : EpNum) (d : Dir) (s : State) : (clearEntry n d s).irqMasked = s.irqMasked := by
  unfold clearEntry; split <;> simp
@[simp] theorem clearEntry_phase (n : EpNum) (d : Dir) (s : State) : (clearEntry n d s).phase = s.phase := by
  unfold clearEntry; split <;> simp
@[simp] theorem clearEntry_domainPower (n : EpNum) (d : Dir) (s : State) : (clearEntry n d s).domainPower = s.domainPower := by
  unfold clearEntry; split <;> simp
@[simp] theorem clearEntry_busConnect (n : EpNum) (d : Dir) (s : State) : (clearEntry n d s).busConnect = s.busConnect := by
  unfold clearEntry; split <;> simp
@[simp] theorem clearEntry_vbusSense (n : EpNum) (d : Dir) (s : State) : (clearEntry n d s).vbusSense = s.vbusSense := by
  unfold clearEntry; split <;> simp
@[simp] theorem clearEntry_upLog (n : EpNum) (d : Dir) (s : State) : (clearEntry n d s).upLog = s.upLog := by
  unfold clearEntry; split <;> simp
@[simp] theorem clearEntry_txLog (n : EpNum) (d : Dir) (s : State) : (clearEntry n d s).txLog = s.txLog := by
  unfold clearEntry; split <;> simp
@[simp] theorem clearEntry_fault (n : EpNum) (d : Dir) (s : State) : (clearEntry n d s).fault = s.fault := by
  unfold clearEntry; split <;> simp
@[simp] theorem clearEntry_refused (n : EpNum) (d : Dir) (s : State) : (clearEntry n d s).refused = s.refused := by
  unfold clearEntry; split <;> simp
@[simp] theorem clearEntry_mem (n : EpNum) (d : Dir) (s : State) : (clearEntry n d s).mem = s.mem := by
  unfold clearEntry; split <;> simp
@[simp] theorem clearEntry_memMap (n : EpNum) (d : Dir) (s : State) : (clearEntry n d s).memMap = s.memMap := by
  unfold clearEntry; split <;> simp
@[simp] theorem clearEntry_result (n : EpNum) (d : Dir) (s : State) : (clearEntry n d s).result = s.result := by
  unfold clearEntry; split <;> simp
@[simp] theorem clearEntry_program (n : EpNum) (d : Dir) (s : State) : (clearEntry n d s).program = s.program := by
  unfold clearEntry; split <;> simp

theorem clearEntry_entry (n : EpNum) (d : Dir) (s : State) (m : EpNum) (d' : Dir) :
    (clearEntry n d s).entry m d' = if n = m ∧ d = d' then (s.entry m d').map (fun e => e.clear n d) else s.entry m d' := by
  unfold clearEntry
  by_cases h : n = m ∧ d = d'
  · obtain ⟨rfl, rfl⟩ := h
    cases hs : s.entry n d <;> simp [hs]
  · cases hs : s.entry n d <;> simp [putEntry_entry, h]

/-! ### ep0ToIdle -/

@[simp] theorem ep0ToIdle_ctrlBuf (s : State) : (ep0ToIdle s).ctrlBuf = s.ctrlBuf := by
  simp [ep0ToIdle]
@[simp] theorem ep0ToIdle_tx (s : State) : (ep0ToIdle s).tx = s.tx := by
  simp [ep0ToIdle]
@[simp] theorem ep0ToIdle_rx (s : State) : (ep0ToIdle s).rx = s.rx := by
  simp [ep0ToIdle]
@[simp] theorem ep0ToIdle_index (s : State) : (ep0ToIdle s).index = s.index := by
  simp [ep0ToIdle]
@[simp] theorem ep0ToIdle_csr0 (s : State) : (ep0ToIdle s).csr0 = s.csr0 := by
  simp [ep0ToIdle]
@[simp] theorem ep0ToIdle_inCsr (s : State) : (ep0ToIdle s).inCsr = s.inCsr := by
  simp [ep0ToIdle]
@[simp] theorem ep0ToIdle_outCsr (s : State) : (ep0ToIdle s).outCsr = s.outCsr := by
  simp [ep0ToIdle]
@[simp] theorem ep0ToIdle_intrUsb (s : State) : (ep0ToIdle s).intrUsb = s.intrUsb := by
  simp [ep0ToIdle]
@[simp] theorem ep0ToIdle_intrIn (s : State) : (ep0ToIdle s).intrIn = s.intrIn := by
  simp [ep0ToIdle]
@[simp] theorem ep0ToIdle_intrOut (s : State) : (ep0ToIdle s).intrOut = s.intrOut := by
  simp [ep0ToIdle]
@[simp] theorem ep0ToIdle_dmaIntr (s : State) : (ep0ToIdle s).dmaIntr = s.dmaIntr := by
  simp [ep0ToIdle]
@[simp] theorem ep0ToIdle_intrUsbE (s : State) : (ep0ToIdle s).intrUsbE = s.intrUsbE := by
  simp [ep0ToIdle]
@[simp] theorem ep0ToIdle_intrInE (s : State) : (ep0ToIdle s).intrInE = s.intrInE := by
  simp [ep0ToIdle]
@[simp] theorem ep0ToIdle_intrOutE (s : State) : (ep0ToIdle s).intrOutE = s.intrOutE := by
  simp [ep0ToIdle]
@[simp] theorem ep0ToIdle_hsMode (s : State) : (ep0ToIdle s).hsMode = s.hsMode := by
  simp [ep0ToIdle]
@[simp] theorem ep0ToIdle_faddr (s : State) : (ep0ToIdle s).faddr = s.faddr := by
  simp [ep0ToIdle]
@[simp] theorem ep0ToIdle_testMode (s : State) : (ep0ToIdle s).testMode = s.testMode := by
  simp [ep0ToIdle]
@[simp] theorem ep0ToIdle_dmaCntl (s : State) : (ep0ToIdle s).dmaCntl = s.dmaCntl := by
  simp [ep0ToIdle]
@[simp] theorem ep0ToIdle_irqMasked (s : State) : (ep0ToIdle s).irqMasked = s.irqMasked := by
  simp [ep0ToIdle]
@[simp] theorem ep0ToIdle_phase (s : State) : (ep0ToIdle s).phase = s.phase := by
  simp [ep0ToIdle]
@[simp] theorem ep0ToIdle_domainPower (s : State) : (ep0ToIdle s).domainPower = s.domainPower := by
  simp [ep0ToIdle]
@[simp] theorem ep0ToIdle_busConnect (s : State) : (ep0ToIdle s).busConnect = s.busConnect := by
  simp [ep0ToIdle]
@[simp] theorem ep0ToIdle_vbusSense (s : State) : (ep0ToIdle s).vbusSense = s.vbusSense := by
  simp [ep0ToIdle]
@[simp] theorem ep0ToIdle_upLog (s : State) : (ep0ToIdle s).upLog = s.upLog := by
  simp [ep0ToIdle]
@[simp] theorem ep0ToIdle_txLog (s : State) : (ep0ToIdle s).txLog = s.txLog := by
  simp [ep0ToIdle]
@[simp] theorem ep0ToIdle_fault (s : State) : (ep0ToIdle s).fault = s.fault := by
  simp [ep0ToIdle]
@[simp] theorem ep0ToIdle_refused (s : State) : (ep0ToIdle s).refused = s.refused := by
  simp [ep0ToIdle]
@[simp] theorem ep0ToIdle_mem (s : State) : (ep0ToIdle s).mem = s.mem := by
  simp [ep0ToIdle]
@[simp] theorem ep0ToIdle_memMap (s : State) : (ep0ToIdle s).memMap = s.memMap := by
  simp [ep0ToIdle]
@[simp] theorem ep0ToIdle_result (s : State) : (ep0ToIdle s).result = s.result := by
  simp [ep0ToIdle]
@[simp] theorem ep0ToIdle_program (s : State) : (ep0ToIdle s).program = s.program := by
  simp [ep0ToIdle]

@[simp] theorem ep0ToIdle_ep0state (s : State) : (ep0ToIdle s).ep0state = .Idle := by simp [ep0ToIdle]

theorem ep0ToIdle_entry (s : State) (m : EpNum) (d : Dir) :
    (ep0ToIdle s).entry m d = if m = 0 ∧ d = .IN then (s.entry m d).map (fun e => e.clear 0 .IN) else s.entry m d := by
  have : ({ s with ep0state := .Idle } : State).entry m d = s.entry m d := by cases d <;> rfl
  simp only [ep0ToIdle, clearEntry_entry, this]
  by_cases h : m = 0 ∧ d = .IN
  · obtain ⟨rfl, rfl⟩ := h; simp
  · have h' : ¬(0 = m ∧ Dir.IN = d) := fun ⟨a, b⟩ => h ⟨a.symm, b.symm⟩
    simp [h, h']

/-! ### putSendStall -/

@[simp] theorem putSendStall_epOut (n : EpNum) (d : Dir) (b : Bool) (s : State) : (putSendStall n d b s).epOut = s.epOut := by
  cases d <;> (simp only [putSendStall]; split <;> rfl)
@[simp] theorem putSendStall_epIn (n : EpNum) (d : Dir) (b : Bool) (s : State) : (putSendStall n d b s).epIn = s.epIn := by
  cases d <;> (simp only [putSendStall]; split <;> rfl)
@[simp] theorem putSendStall_ep0state (n : EpNum) (d : Dir) (b : Bool) (s : State) : (putSendStall n d b s).ep0state = s.ep0state := by
  cases d <;> (simp only [putSendStall]; split <;> rfl)
@[simp] theorem putSendStall_ctrlBuf (n : EpNum) (d : Dir) (b : Bool) (s : State) : (putSendStall n d b s).ctrlBuf = s.ctrlBuf := by
  cases d <;> (simp only [putSendStall]; split <;> rfl)
@[simp] theorem putSendStall_tx (n : EpNum) (d : Dir) (b : Bool) (s : State) : (putSendStall n d b s).tx = s.tx := by
  cases d <;> (simp only [putSendStall]; split <;> rfl)
@[simp] theorem putSendStall_rx (n : EpNum) (d : Dir) (b : Bool) (s : State) : (putSendStall n d b s).rx = s.rx := by
  cases d <;> (simp only [putSendStall]; split <;> rfl)
@[simp] theorem putSendStall_index (n : EpNum) (d : Dir) (b : Bool) (s : State) : (putSendStall n d b s).index = s.index := by
  cases d <;> (simp only [putSendStall]; split <;> rfl)
@[simp] theorem putSendStall_intrUsb (n : EpNum) (d : Dir) (b : Bool) (s : State) : (putSendStall n d b s).intrUsb = s.intrUsb := by
  cases d <;> (simp only [putSendStall]; split <;> rfl)
@[simp] theorem putSendStall_intrIn (n : EpNum) (d : Dir) (b : Bool) (s : State) : (putSendStall n d b s).intrIn = s.intrIn := by
  cases d <;> (simp only [putSendStall]; split <;> rfl)
@[simp] theorem putSendStall_intrOut (n : EpNum) (d : Dir) (b : Bool) (s : State) : (putSendStall n d b s).intrOut = s.intrOut := by
  cases d <;> (simp only [putSendStall]; split <;> rfl)
@[simp] theorem putSendStall_dmaIntr (n : EpNum) (d : Dir) (b : Bool) (s : State) : (putSendStall n d b s).dmaIntr = s.dmaIntr := by
  cases d <;> (simp only [putSendStall]; split <;> rfl)
@[simp] theorem putSendStall_intrUsbE (n : EpNum) (d : Dir) (b : Bool) (s : State) : (putSendStall n d b s).intrUsbE = s.intrUsbE := by
  cases d <;> (simp only [putSendStall]; split <;> rfl)
@[simp] theorem putSendStall_intrInE (n : EpNum) (d : Dir) (b : Bool) (s : State) : (putSendStall n d b s).intrInE = s.intrInE := by
  cases d <;> (simp only [putSendStall]; split <;> rfl)
@[simp] theorem putSendStall_intrOutE (n : EpNum) (d : Dir) (b : Bool) (s : State) : (putSendStall n d b s).intrOutE = s.intrOutE := by
  cases d <;> (simp only [putSendStall]; split <;> rfl)
@[simp] theorem putSendStall_hsMode (n : EpNum) (d : Dir) (b : Bool) (s : State) : (putSendStall n d b s).hsMode = s.hsMode := by
  cases d <;> (simp only [putSendStall]; split <;> rfl)
@[simp] theorem putSendStall_faddr (n : EpNum) (d : Dir) (b : Bool) (s : State) : (putSendStall n d b s).faddr = s.faddr := by
  cases d <;> (simp only [putSendStall]; split <;> rfl)
@[simp] theorem putSendStall_testMode (n : EpNum) (d : Dir) (b : Bool) (s : State) : (putSendStall n d b s).testMode = s.testMode := by
  cases d <;> (simp only [putSendStall]; split <;> rfl)
@[simp] theorem putSendStall_dmaCntl (n : EpNum) (d : Dir) (b : Bool) (s : State) : (putSendStall n d b s).dmaCntl = s.dmaCntl := by
  cases d <;> (simp only [putSendStall]; split <;> rfl)
@[simp] theorem putSendStall_irqMasked (n : EpNum) (d : Dir) (b : Bool) (s : State) : (putSendStall n d b s).irqMasked = s.irqMasked := by
  cases d <;> (simp only [putSendStall]; split <;> rfl)
@[simp] theorem putSendStall_phase (n : EpNum) (d : Dir) (b : Bool) (s : State) : (putSendStall n d b s).phase = s.phase := by
  cases d <;> (simp only [putSendStall]; split <;> rfl)
@[simp] theorem putSendStall_domainPower (n : EpNum) (d : Dir) (b : Bool) (s : State) : (putSendStall n d b s).domainPower = s.domainPower := by
  cases d <;> (simp only [putSendStall]; split <;> rfl)
@[simp] theorem putSendStall_busConnect (n : EpNum) (d : Dir) (b : Bool) (s : State) : (putSendStall n d b s).busConnect = s.busConnect := by
  cases d <;> (simp only [putSendStall]; split <;> rfl)
@[simp] theorem putSendStall_vbusSense (n : EpNum) (d : Dir) (b : Bool) (s : State) : (putSendStall n d b s).vbusSense = s.vbusSense := by
  cases d <;> (simp only [putSendStall]; split <;> rfl)
@[simp] theorem putSendStall_upLog (n : EpNum) (d : Dir) (b : Bool) (s : State) : (putSendStall n d b s).upLog = s.upLog := by
  cases d <;> (simp only [putSendStall]; split <;> rfl)
@[simp] theorem putSendStall_txLog (n : EpNum) (d : Dir) (b : Bool) (s : State) : (putSendStall n d b s).txLog = s.txLog := by
  cases d <;> (simp only [putSendStall]; split <;> rfl)
@[simp] theorem putSendStall_fault (n : EpNum) (d : Dir) (b : Bool) (s : State) : (putSendStall n d b s).fault = s.fault := by
  cases d <;> (simp only [putSendStall]; split <;> rfl)
@[simp] theorem putSendStall_refused (n : EpNum) (d : Dir) (b : Bool) (s : State) : (putSendStall n d b s).refused = s.refused := by
  cases d <;> (simp only [putSendStall]; split <;> rfl)
@[simp] theorem putSendStall_mem (n : EpNum) (d : Dir) (b : Bool) (s : State) : (putSendStall n d b s).mem = s.mem := by
  cases d <;> (simp only [putSendStall]; split <;> rfl)
@[simp] theorem putSendStall_memMap (n : EpNum) (d : Dir) (b : Bool) (s : State) : (putSendStall n d b s).memMap = s.memMap := by
  cases d <;> (simp only [putSendStall]; split <;> rfl)
@[simp] theorem putSendStall_result (n : EpNum) (d : Dir) (b : Bool) (s : State) : (putSendStall n d b s).result = s.result := by
  cases d <;> (simp only [putSendStall]; split <;> rfl)
@[simp] theorem putSendStall_program (n : EpNum) (d : Dir) (b : Bool) (s : State) : (putSendStall n d b s).program = s.program := by
  cases d <;> (simp only [putSendStall]; split <;> rfl)
@[simp] theorem putSendStall_entry (n : EpNum) (d : Dir) (b : Bool) (s : State) (m : EpNum) (d' : Dir) : (putSendStall n d b s).entry m d' = s.entry m d' := by
  cases d' <;> simp [State.entry]

/-! ### flush -/

@[simp] theorem flush_epOut (n : EpNum) (d : Dir) (s : State) : (flush n d s).epOut = s.epOut := by
  unfold flush; split; · rfl
  · split; · rfl
    · cases d <;> rfl
@[simp] theorem flush_epIn (n : EpNum) (d : Dir) (s : State) : (flush n d s).epIn = s.epIn := by
  unfold flush; split; · rfl
  · split; · rfl
    · cases d <;> rfl
@[simp] theorem flush_ep0state (n : EpNum) (d : Dir) (s : State) : (flush n d s).ep0state = s.ep0state := by
  unfold flush; split; · rfl
  · split; · rfl
    · cases d <;> rfl
@[simp] theorem flush_ctrlBuf (n : EpNum) (d : Dir) (s : State) : (flush n d s).ctrlBuf = s.ctrlBuf := by
  unfold flush; split; · rfl
  · split; · rfl
    · cases d <;> rfl
@[simp] theorem flush_csr0 (n : EpNum) (d : Dir) (s : State) : (flush n d s).csr0 = s.csr0 := by
  unfold flush; split; · rfl
  · split; · rfl
    · cases d <;> rfl
@[simp] theorem flush_intrUsb (n : EpNum) (d : Dir) (s : State) : (flush n d s).intrUsb = s.intrUsb := by
  unfold flush; split; · rfl
  · split; · rfl
    · cases d <;> rfl
@[simp] theorem flush_intrIn (n : EpNum) (d : Dir) (s : State) : (flush n d s).intrIn = s.intrIn := by
  unfold flush; split; · rfl
  · split; · rfl
    · cases d <;> rfl
@[simp] theorem flush_intrOut (n : EpNum) (d : Dir) (s : State) : (flush n d s).intrOut = s.intrOut := by
  unfold flush; split; · rfl
  · split; · rfl
    · cases d <;> rfl
@[simp] theorem flush_dmaIntr (n : EpNum) (d : Dir) (s : State) : (flush n d s).dmaIntr = s.dmaIntr := by
  unfold flush; split; · rfl
  · split; · rfl
    · cases d <;> rfl
@[simp] theorem flush_intrUsbE (n : EpNum) (d : Dir) (s : State) : (flush n d s).intrUsbE = s.intrUsbE := by
  unfold flush; split; · rfl
  · split; · rfl
    · cases d <;> rfl
@[simp] theorem flush_intrInE (n : EpNum) (d : Dir) (s : State) : (flush n d s).intrInE = s.intrInE := by
  unfold flush; split; · rfl
  · split; · rfl
    · cases d <;> rfl
@[simp] theorem flush_intrOutE (n : EpNum) (d : Dir) (s : State) : (flush n d s).intrOutE = s.intrOutE := by
  unfold flush; split; · rfl
  · split; · rfl
    · cases d <;> rfl
@[simp] theorem flush_hsMode (n : EpNum) (d : Dir) (s : State) : (flush n d s).hsMode = s.hsMode := by
  unfold flush; split; · rfl
  · split; · rfl
    · cases d <;> rfl
@[simp] theorem flush_faddr (n : EpNum) (d : Dir) (s : State) : (flush n d s).faddr = s.faddr := by
  unfold flush; split; · rfl
  · split; · rfl
    · cases d <;> rfl
@[simp] theorem flush_testMode (n : EpNum) (d : Dir) (s : State) : (flush n d s).testMode = s.testMode := by
  unfold flush; split; · rfl
  · split; · rfl
    · cases d <;> rfl
@[simp] theorem flush_dmaCntl (n : EpNum) (d : Dir) (s : State) : (flush n d s).dmaCntl = s.dmaCntl := by
  unfold flush; split; · rfl
  · split; · rfl
    · cases d <;> rfl
@[simp] theorem flush_irqMasked (n : EpNum) (d : Dir) (s : State) : (flush n d s).irqMasked = s.irqMasked := by
  unfold flush; split; · rfl
  · split; · rfl
    · cases d <;> rfl
@[simp] theorem flush_phase (n : EpNum) (d : Dir) (s : State) : (flush n d s).phase = s.phase := by
  unfold flush; split; · rfl
  · split; · rfl
    · cases d <;> rfl
@[simp] theorem flush_domainPower (n : EpNum) (d : Dir) (s : State) : (flush n d s).domainPower = s.domainPower := by
  unfold flush; split; · rfl
  · split; · rfl
    · cases d <;> rfl
@[simp] theorem flush_busConnect (n : EpNum) (d : Dir) (s : State) : (flush n d s).busConnect = s.busConnect := by
  unfold flush; split; · rfl
  · split; · rfl
    · cases d <;> rfl
@[simp] theorem flush_vbusSense (n : EpNum) (d : Dir) (s : State) : (flush n d s).vbusSense = s.vbusSense := by
  unfold flush; split; · rfl
  · split; · rfl
    · cases d <;> rfl
@[simp] theorem flush_upLog (n : EpNum) (d : Dir) (s : State) : (flush n d s).upLog = s.upLog := by
  unfold flush; split; · rfl
  · split; · rfl
    · cases d <;> rfl
@[simp] theorem flush_txLog (n : EpNum) (d : Dir) (s : State) : (flush n d s).txLog = s.txLog := by
  unfold flush; split; · rfl
  · split; · rfl
    · cases d <;> rfl
@[simp] theorem flush_fault (n : EpNum) (d : Dir) (s : State) : (flush n d s).fault = s.fault := by
  unfold flush; split; · rfl
  · split; · rfl
    · cases d <;> rfl
@[simp] theorem flush_refused (n : EpNum) (d : Dir) (s : State) : (flush n d s).refused = s.refused := by
  unfold flush; split; · rfl
  · split; · rfl
    · cases d <;> rfl
@[simp] theorem flush_mem (n : EpNum) (d : Dir) (s : State) : (flush n d s).mem = s.mem := by
  unfold flush; split; · rfl
  · split; · rfl
    · cases d <;> rfl
@[simp] theorem flush_memMap (n : EpNum) (d : Dir) (s : State) : (flush n d s).memMap = s.memMap := by
  unfold flush; split; · rfl
  · split; · rfl
    · cases d <;> rfl
@[simp] theorem flush_result (n : EpNum) (d : Dir) (s : State) : (flush n d s).result = s.result := by
  unfold flush; split; · rfl
  · split; · rfl
    · cases d <;> rfl
@[simp] theorem flush_program (n : EpNum) (d : Dir) (s : State) : (flush n d s).program = s.program := by
  unfold flush; split; · rfl
  · split; · rfl
    · cases d <;> rfl
@[simp] theorem flush_entry (n : EpNum) (d : Dir) (s : State) (m : EpNum) (d' : Dir) : (flush n d s).entry m d' = s.entry m d' := by
  cases d' <;> simp [State.entry]

end Machine

end Sys2Proof
end

