-- ==== Sys2Proof/Laws/Memory.lean ====
section
/-! SUPPORT. The laws of caller memory: the canonical form is kept by every operation, a read after a write, and the admission of a region. -/

namespace Sys2Proof.Machine

/-! ### The canonical form -/

theorem Memory.wfAbove_mono {a b : Nat} (h : a ≤ b) {m : List Host.Cell} (w : Memory.wfAbove b m = true) :
    Memory.wfAbove a m = true := by
  cases m with
  | nil => rfl
  | cons p t =>
    obtain ⟨x, c⟩ := p
    simp only [Memory.wfAbove, Bool.and_eq_true, decide_eq_true_eq] at w ⊢
    exact ⟨⟨by omega, w.1.2⟩, w.2⟩

theorem Memory.wfAbove_store {x a : Nat} {b : Byte} {m : List Host.Cell} (hx : x < a)
    (w : Memory.wfAbove x m = true) : Memory.wfAbove x (Memory.store m a b) = true := by
  induction m generalizing x with
  | nil =>
    unfold Memory.store
    split
    · rfl
    · simp [Memory.wfAbove, *]
  | cons p t ih =>
    obtain ⟨y, c⟩ := p
    simp only [Memory.wfAbove, Bool.and_eq_true, decide_eq_true_eq] at w
    obtain ⟨⟨hy, hc⟩, wt⟩ := w
    unfold Memory.store
    split
    · split
      · simp [Memory.wfAbove, *]
      · simp [Memory.wfAbove, *]
    · split
      · subst_vars
        split
        · exact Memory.wfAbove_mono (by omega) wt
        · simp [Memory.wfAbove, *]
      · simp only [Memory.wfAbove, Bool.and_eq_true, decide_eq_true_eq]
        exact ⟨⟨hy, hc⟩, ih (by omega) wt⟩

/-- A store keeps the canonical form. -/
theorem Memory.wf_store {a : Nat} {b : Byte} {m : List Host.Cell} (w : Memory.wf m = true) :
    Memory.wf (Memory.store m a b) = true := by
  cases m with
  | nil =>
    unfold Memory.store
    split
    · rfl
    · simp [Memory.wf, Memory.wfAbove, *]
  | cons p t =>
    obtain ⟨y, c⟩ := p
    simp only [Memory.wf, Bool.and_eq_true, decide_eq_true_eq] at w
    obtain ⟨hc, wt⟩ := w
    unfold Memory.store
    split
    · split
      · simp [Memory.wf, *]
      · simp [Memory.wf, Memory.wfAbove, *]
    · split
      · subst_vars
        split
        · cases t with
          | nil => rfl
          | cons q u =>
            obtain ⟨z, e⟩ := q
            simp only [Memory.wfAbove, Bool.and_eq_true, decide_eq_true_eq] at wt
            simp [Memory.wf, wt]
        · simp [Memory.wf, *]
      · simp only [Memory.wf, Bool.and_eq_true, decide_eq_true_eq]
        exact ⟨hc, Memory.wfAbove_store (by omega) wt⟩

/-! ### Reading what was written -/

theorem Memory.lookup_of_wfAbove {x a : Nat} {m : List Host.Cell} (w : Memory.wfAbove x m = true) (h : a ≤ x) :
    Memory.lookup m a = unlistedByte := by
  induction m generalizing x with
  | nil => rfl
  | cons p t ih =>
    obtain ⟨y, c⟩ := p
    simp only [Memory.wfAbove, Bool.and_eq_true, decide_eq_true_eq] at w
    have : y ≠ a := by omega
    simp [Memory.lookup, this, ih w.2 (by omega)]

theorem Memory.wf_tail {p : Host.Cell} {t : List Host.Cell} (w : Memory.wf (p :: t) = true) :
    Memory.wfAbove p.1 t = true := by
  obtain ⟨y, c⟩ := p
  simp only [Memory.wf, Bool.and_eq_true] at w
  exact w.2

theorem Memory.wf_of_wfAbove {x : Nat} {t : List Host.Cell} (w : Memory.wfAbove x t = true) : Memory.wf t = true := by
  cases t with
  | nil => rfl
  | cons q u =>
    obtain ⟨z, e⟩ := q
    simp only [Memory.wfAbove, Bool.and_eq_true] at w
    simp only [Memory.wf, Bool.and_eq_true]
    exact ⟨w.1.2, w.2⟩

/-- A read after a store: the byte stored, and every other address as before. -/
theorem Memory.lookup_store {a a' : Nat} {b : Byte} {m : List Host.Cell} (w : Memory.wf m = true) :
    Memory.lookup (Memory.store m a b) a' = if a = a' then b else Memory.lookup m a' := by
  induction m with
  | nil =>
    by_cases hb : b = unlistedByte <;> by_cases ha : a = a' <;> simp [Memory.store, Memory.lookup, hb, ha]
  | cons p t ih =>
    obtain ⟨y, c⟩ := p
    have wt := Memory.wf_tail w
    unfold Memory.store
    by_cases h1 : a < y
    · simp only [h1, ↓reduceIte]
      by_cases ha : a = a'
      · subst ha
        have h2 : y ≠ a := by omega
        by_cases hb : b = unlistedByte
        · simp [hb, Memory.lookup, h2, Memory.lookup_of_wfAbove wt (by simpa using h1.le)]
        · simp [hb, Memory.lookup]
      · by_cases hb : b = unlistedByte <;> simp [hb, ha, Memory.lookup]
    · simp only [h1, ↓reduceIte]
      by_cases h2 : a = y
      · subst h2
        by_cases ha : a = a'
        · subst ha
          by_cases hb : b = unlistedByte
          · simp [hb, Memory.lookup_of_wfAbove wt (le_refl _)]
          · simp [hb, Memory.lookup]
        · by_cases hb : b = unlistedByte <;> simp [hb, ha, Memory.lookup]
      · simp only [h2, ↓reduceIte, Memory.lookup, ih (Memory.wf_of_wfAbove wt)]
        by_cases ha : a = a'
        · subst ha; simp [Ne.symm h2]
        · simp [ha]

/-- What a store can list: the stored address, or what was listed. -/
theorem Memory.mem_store {a : Nat} {b : Byte} {m : List Host.Cell} {x : Nat} {c : Byte}
    (h : (x, c) ∈ Memory.store m a b) : x = a ∨ (x, c) ∈ m := by
  induction m with
  | nil =>
    unfold Memory.store at h
    split at h
    · simp at h
    · simp at h; exact .inl h.1
  | cons p t ih =>
    obtain ⟨y, e⟩ := p
    unfold Memory.store at h
    split at h
    · split at h
      · exact .inr h
      · rcases List.mem_cons.1 h with h | h
        · exact .inl (by simpa using congrArg Prod.fst h)
        · exact .inr h
    · split at h
      · split at h
        · exact .inr (List.mem_cons_of_mem _ h)
        · rcases List.mem_cons.1 h with h | h
          · exact .inl (by simpa using congrArg Prod.fst h)
          · exact .inr (List.mem_cons_of_mem _ h)
      · rcases List.mem_cons.1 h with h | h
        · exact .inr (by rw [h]; exact List.mem_cons_self)
        · rcases ih h with h | h
          · exact .inl h
          · exact .inr (List.mem_cons_of_mem _ h)

/-! ### One byte -/

/-- What a byte write can do: the memory holds the address, and only `mem` changes. -/
theorem writeByte_some {s s' : State} {a : Nat} {b : Byte} (h : s.writeByte a b = some s') :
    s.holds a = true ∧ s' = { s with mem := Memory.store s.mem a b } := by
  unfold State.writeByte at h
  split at h
  · exact ⟨‹_›, by simpa using h.symm⟩
  · simp at h

/-- A read after a byte write. -/
theorem readByte_writeByte {s s' : State} {a : Nat} {b : Byte} (w : Memory.wf s.mem = true)
    (h : s.writeByte a b = some s') (x : Nat) :
    s'.readByte x = if a = x then some b else s.readByte x := by
  obtain ⟨ha, rfl⟩ := writeByte_some h
  have hh : ∀ y, ({ s with mem := Memory.store s.mem a b } : State).holds y = s.holds y := fun _ => rfl
  unfold State.readByte
  rw [hh]
  by_cases hx : a = x
  · subst hx; simp [ha, Memory.lookup_store w]
  · simp [hx, Memory.lookup_store w]

/-! ### Runs of bytes -/

/-- What a write of bytes can do: only `mem` changes, it stays canonical, it lists held addresses only, and a byte read
afterwards is the byte written or the byte that was there. -/
theorem writeBytes_some {bs : List Byte} {s s' : State} {a : Nat} (w : Memory.wf s.mem = true)
    (h : s.writeBytes a bs = some s') :
    ∃ m', s' = { s with mem := m' } ∧ Memory.wf m' = true
      ∧ (∀ x c, (x, c) ∈ m' → (x, c) ∈ s.mem ∨ s.holds x = true)
      ∧ ∀ x, s'.readByte x = if h : a ≤ x ∧ x < a + bs.length then some (bs[x - a]'(by omega)) else s.readByte x := by
  induction bs generalizing s a with
  | nil =>
    simp only [State.writeBytes, Option.some.injEq] at h
    subst h
    exact ⟨s.mem, rfl, w, fun _ _ h => .inl h, fun x => by
      simp only [List.length_nil]; rw [dif_neg (by omega)]⟩
  | cons b t ih =>
    unfold State.writeBytes at h
    split at h
    · rename_i s1 h1
      obtain ⟨ha, hs1⟩ := writeByte_some h1
      have w1 : Memory.wf s1.mem = true := by rw [hs1]; exact Memory.wf_store w
      obtain ⟨m', rfl, w', hm, hr⟩ := ih w1 h
      refine ⟨m', by rw [hs1], w', ?_, ?_⟩
      · intro x c hx
        have hh : ∀ y, s1.holds y = s.holds y := by intro y; rw [hs1]; rfl
        rcases hm x c hx with h2 | h2
        · rw [hs1] at h2
          rcases Memory.mem_store h2 with rfl | h3
          · exact .inr ha
          · exact .inl h3
        · exact .inr (by rw [← hh]; exact h2)
      · intro x
        rw [hr x]
        by_cases hx : x = a
        · subst hx
          rw [dif_neg (by omega), readByte_writeByte w h1]
          simp
        · by_cases hin : a + 1 ≤ x ∧ x < a + 1 + t.length
          · have hin2 : a ≤ x ∧ x < a + (b :: t).length := by simp only [List.length_cons]; omega
            rw [dif_pos hin, dif_pos hin2]
            obtain ⟨k, rfl⟩ : ∃ k, x = a + 1 + k := ⟨x - (a + 1), by omega⟩
            have e1 : a + 1 + k - (a + 1) = k := by omega
            have e2 : a + 1 + k - a = k + 1 := by omega
            simp [e1, e2]
          · have hin2 : ¬(a ≤ x ∧ x < a + (b :: t).length) := by simp only [List.length_cons]; omega
            rw [dif_neg hin, dif_neg hin2, readByte_writeByte w h1]
            simp [Ne.symm hx]
    · simp at h

/-- A write of bytes succeeds when the memory holds every address. -/
theorem writeBytes_isSome {bs : List Byte} {s : State} {a : Nat}
    (h : ∀ x, a ≤ x → x < a + bs.length → s.holds x = true) : ∃ s', s.writeBytes a bs = some s' := by
  induction bs generalizing s a with
  | nil => exact ⟨s, rfl⟩
  | cons b t ih =>
    have ha : s.holds a = true := h a (le_refl _) (by simp)
    have hw : s.writeByte a b = some { s with mem := Memory.store s.mem a b } := by simp [State.writeByte, ha]
    obtain ⟨s', hs'⟩ := ih (s := { s with mem := Memory.store s.mem a b }) (a := a + 1)
      (fun x h1 h2 => h x (by omega) (by simp only [List.length_cons]; omega))
    exact ⟨s', by simp [State.writeBytes, hw, hs']⟩

/-- A read of bytes gives as many bytes as were asked, each the byte at its address. -/
theorem readBytes_some {s : State} {n a : Nat} {bs : List Byte} (h : s.readBytes a n = some bs) :
    bs.length = n ∧ ∀ k (hk : k < bs.length), s.readByte (a + k) = some bs[k] := by
  induction n generalizing a bs with
  | zero =>
    simp only [State.readBytes, Option.some.injEq] at h
    subst h; simp
  | succ n ih =>
    unfold State.readBytes at h
    split at h
    · rename_i b t hb ht
      simp only [Option.some.injEq] at h
      subst h
      obtain ⟨hl, hr⟩ := ih ht
      refine ⟨by simp [hl], ?_⟩
      intro k hk
      cases k with
      | zero => simpa using hb
      | succ k =>
        have := hr k (by simpa using hk)
        simpa [Nat.add_assoc, Nat.add_comm 1] using this
    · simp at h

/-- A read of bytes succeeds when the memory holds every address. -/
theorem readBytes_isSome {s : State} {n a : Nat} (h : ∀ x, a ≤ x → x < a + n → s.holds x = true) :
    ∃ bs, s.readBytes a n = some bs := by
  induction n generalizing a with
  | zero => exact ⟨[], rfl⟩
  | succ n ih =>
    obtain ⟨bs, hbs⟩ := ih (a := a + 1) (fun x h1 h2 => h x (by omega) (by omega))
    exact ⟨Memory.lookup s.mem a :: bs, by
      simp [State.readBytes, hbs, State.readByte, h a (le_refl _) (by omega)]⟩

/-- A read of `j + k` bytes is a read of `j` bytes and a read of the `k` bytes above. -/
theorem readBytes_add (s : State) (j k a : Nat) :
    s.readBytes a (j + k) =
      (match s.readBytes a j, s.readBytes (a + j) k with
        | some x, some y => some (x ++ y)
        | _, _ => none) := by
  induction j generalizing a with
  | zero => cases h : s.readBytes a k <;> simp [State.readBytes, h]
  | succ j ih =>
    have e : a + (j + 1) = a + 1 + j := by omega
    rw [Nat.succ_add]
    simp only [State.readBytes, ih, e]
    cases s.readByte a <;> cases s.readBytes (a + 1) j <;> cases s.readBytes (a + 1 + j) k <;> simp

/-! ### Admission -/

/-- An admitted region is held (R253: "true only for regions that lie wholly in `Mem`"). -/
theorem holds_of_coveredBy {rs : List MemRegion} {a len x : Nat} (h : coveredBy rs a len = true)
    (h1 : a ≤ x) (h2 : x < a + len) :
    rs.any (fun r => decide (r.base ≤ x) && decide (x < r.base + r.size)) = true := by
  induction rs generalizing a len with
  | nil => simp [coveredBy] at h; omega
  | cons r t ih =>
    simp only [List.any_cons, Bool.or_eq_true]
    unfold coveredBy at h
    split at h
    · rename_i hr
      by_cases hx : x < r.base + r.size
      · left; simp; omega
      · right; exact ih h (by omega) (by omega)
    · right; exact ih h h1 h2

theorem holds_of_admits {c : Cfg} {s : State} {a len x : Nat} (h : admits c s a len = true)
    (h1 : a ≤ x) (h2 : x < a + len) : s.holds x = true := by
  simp only [admits, Bool.and_eq_true] at h
  exact holds_of_coveredBy h.2 h1 h2

end Sys2Proof.Machine
end

