-- ==== Sys2Proof/Laws/Ops.lean ====
section
/-! SUPPORT. One lemma per shared operation that says everything it can do; later proofs cite it instead of unfolding the operation. -/

namespace Sys2Proof.Machine

/-! ### How a meaning ends -/

theorem andThen_ok {r : Result} {f : State → Result} {t : State} :
    andThen r f = .ok t ↔ ∃ s, r = .ok s ∧ f s = .ok t := by
  cases r <;> simp [andThen]

@[simp] theorem andThen_of_ok (s : State) (f : State → Result) : andThen (.ok s) f = f s := rfl

@[simp] theorem andThen_of_error (e : Stop) (f : State → Result) : andThen (.error e) f = .error e := rfl

@[simp] theorem conclude_ok (s t : State) : conclude s (.ok t) = .next t := rfl

@[simp] theorem conclude_fault (s : State) (r : FaultReason) :
    conclude s (.error (.fault r)) = .next (s.markFault r) := rfl

@[simp] theorem conclude_refuse (s : State) (r : RefusalReason) :
    conclude s (.error (.refuse r)) = .next (s.markRefused r) := rfl

/-- A next state is the rule's end, or the start state with a mark (R9). -/
theorem conclude_next {s t : State} {r : Result} :
    conclude s r = .next t ↔
      r = .ok t ∨ (∃ f, r = .error (.fault f) ∧ t = s.markFault f)
        ∨ (∃ f, r = .error (.refuse f) ∧ t = s.markRefused f) := by
  cases r with
  | ok u => simp [conclude]
  | error e => cases e <;> simp [conclude, eq_comm]

/-! ### Loops -/

/-- What every pass of a loop over the table keeps, the loop keeps. -/
theorem forKeys_induct {P : State → Prop} {f : EpNum → Dir → State → State}
    (hf : ∀ n d s, P s → P (f n d s)) (ks : List (EpNum × Dir)) {s : State} (h : P s) : P (forKeys ks f s) := by
  induction ks generalizing s with
  | nil => exact h
  | cons k t ih => exact ih (hf k.1 k.2 s h)

theorem forKeys_append (f : EpNum → Dir → State → State) (ks ls : List (EpNum × Dir)) (s : State) :
    forKeys (ks ++ ls) f s = forKeys ls f (forKeys ks f s) := by
  induction ks generalizing s with
  | nil => rfl
  | cons k t ih => exact ih _

/-- What every handler call of a dispatcher loop keeps, the loop keeps. -/
theorem forNumbers_induct {P : State → Prop} {f : EpNum → State → Result}
    (hf : ∀ n s t, P s → f n s = .ok t → P t) (ns : List EpNum) {s t : State} (h : P s)
    (ht : forNumbers ns f s = .ok t) : P t := by
  induction ns generalizing s with
  | nil =>
    simp only [forNumbers, Except.ok.injEq] at ht
    exact ht ▸ h
  | cons n u ih =>
    obtain ⟨s1, h1, h2⟩ := andThen_ok.1 ht
    exact ih (hf n s s1 h h1) h2

theorem mem_tableOrder (n : EpNum) (d : Dir) : (n, d) ∈ tableOrder := by
  cases d <;> simp [tableOrder]

theorem mem_dataNumbers (n : EpNum) : n ∈ dataNumbers ↔ n ≠ 0 := by simp [dataNumbers]

/-! ### The FIFO Transfer Engine -/

/-- Everything DRAIN can do when it ends well (R131). -/
theorem drain_ok {c : Cfg} {ep : EpNum} {size : Nat} {s t : State} (h : drain c ep size s = .ok t) :
    ∃ e, s.entry ep .OUT = some e ∧ size ≤ (s.rx.get ep).length ∧
      ((e.buf = .ctrl ∧ e.prog + size ≤ c.ctrlBufSize ∧
          t = { s with
            rx := s.rx.put ep ((s.rx.get ep).drop size)
            ctrlBuf := writeCtrl s.ctrlBuf e.prog ((s.rx.get ep).take size) })
        ∨ ∃ a, e.buf = .mem a ∧
            ({ s with rx := s.rx.put ep ((s.rx.get ep).drop size) } : State).writeBytes (a + e.prog)
              ((s.rx.get ep).take size) = some t) := by
  unfold drain at h
  split at h
  · simp at h
  · rename_i e he
    refine ⟨e, he, ?_⟩
    split at h
    · simp at h
    split at h
    · simp at h
    split at h
    · simp at h
    rename_i h1 h2 h3
    refine ⟨by omega, ?_⟩
    unfold storeDrained at h
    split at h
    · simp at h
    · rename_i hb
      left
      refine ⟨hb, ?_, by simpa using h.symm⟩
      by_contra hc
      exact h3 ⟨hb, by omega⟩
    · rename_i a hb
      right
      refine ⟨a, hb, ?_⟩
      split at h
      · rename_i s' hs'
        rw [hs']; simpa using h
      · simp at h

/-- Everything FILL can do when it ends well (R132). -/
theorem fill_ok {ep : EpNum} {size : Nat} {s t : State} (h : fill ep size s = .ok t) :
    ∃ e, s.entry ep .IN = some e ∧
      ((size = 0 ∧ t = s)
        ∨ (size ≠ 0 ∧ s.inPktRdy ep = false ∧ (s.tx.get ep).length + size ≤ e.cap ∧
            ∃ a bs, e.buf = .mem a ∧ s.readBytes (a + e.prog) size = some bs ∧
              t = { s with tx := s.tx.put ep (s.tx.get ep ++ bs) })) := by
  unfold fill at h
  split at h
  · simp at h
  · rename_i e he
    refine ⟨e, he, ?_⟩
    split at h
    · left; exact ⟨‹_›, by simpa using h.symm⟩
    split at h
    · simp at h
    split at h
    · simp at h
    split at h
    · simp at h
    rename_i h0 h1 h2 h3
    right
    refine ⟨h0, by simpa using h2, by omega, ?_⟩
    unfold fetchFill at h
    cases hb : e.buf with
    | none => simp [hb] at h
    | ctrl => simp [hb] at h
    | mem a =>
      simp only [hb] at h
      cases hr : s.readBytes (a + e.prog) size with
      | none => simp [hr] at h
      | some bs =>
        simp only [hr, Except.ok.injEq] at h
        exact ⟨a, bs, rfl, hr, h.symm⟩

/-! ### The handlers -/

/-- Everything EP0SEND can do when it ends well (R141). -/
theorem ep0send_ok {s t : State} (h : ep0send s = .ok t) :
    ∃ e, s.entry 0 .IN = some e ∧
      ((e.len = 0 ∧ t = ep0Last (selectEp 0 s))
        ∨ (e.len ≠ 0 ∧ ∃ s1, fill 0 e.chunk (selectEp 0 s) = .ok s1 ∧
            ((e.len ≤ e.prog + e.chunk ∧ t = ep0Last (s1.putEntry 0 .IN { e with prog := e.prog + e.chunk }))
              ∨ (e.prog + e.chunk < e.len ∧ t = ep0More (s1.putEntry 0 .IN { e with prog := e.prog + e.chunk }))))) := by
  unfold ep0send at h
  split at h
  · simp at h
  · rename_i e he
    refine ⟨e, he, ?_⟩
    split at h
    · left; exact ⟨‹_›, by simpa using h.symm⟩
    · rename_i hl
      right
      obtain ⟨s1, h1, h2⟩ := andThen_ok.1 h
      refine ⟨hl, s1, h1, ?_⟩
      simp only at h2
      split at h2
      · left; exact ⟨‹_›, by simpa using h2.symm⟩
      · right; exact ⟨by omega, by simpa using h2.symm⟩

/-- Everything CTRLH can do when it ends well (R140). -/
theorem ctrlh_ok {c : Cfg} {s t : State} (h : ctrlh c s = .ok t) :
    t = ep0ToIdle (clearSentStall0 (selectEp 0 s)) ∨ t = ep0ToIdle (clearSetupEnd (selectEp 0 s))
      ∨ t = selectEp 0 s
      ∨ (s.ep0state = .Idle ∧ ∃ s1, drain c 0 (s.rxCount 0) (selectEp 0 s) = .ok s1 ∧
          t = emit (.onControlRequest (clearDataAvail s1).ctrlBuf (s.rxCount 0)) (clearDataAvail s1))
      ∨ (s.ep0state = .Transmitting ∧ ep0send (selectEp 0 s) = .ok t) := by
  unfold ctrlh at h
  simp only at h
  split at h
  · left; simpa using h.symm
  split at h
  · right; left; simpa using h.symm
  right; right
  split at h
  · split at h
    · right; left
      refine ⟨by simpa using ‹(selectEp 0 s).ep0state = _›, ?_⟩
      obtain ⟨s1, h1, h2⟩ := andThen_ok.1 h
      exact ⟨s1, h1, (Except.ok.inj h2).symm⟩
    · left; simpa using h.symm
  · right; right; exact ⟨by simpa using ‹(selectEp 0 s).ep0state = _›, h⟩
  · left; simpa using h.symm

/-- Everything INH can do when it ends well (R150). -/
theorem inh_ok {ep : EpNum} {s t : State} (h : inh ep s = .ok t) :
    t = s ∨ (ep ≠ 0 ∧ ∃ e, s.entry ep .IN = some e ∧ e.guarded = false ∧
      (t = clearSentStallIn ep (selectEp ep s) ∨ t = selectEp ep s
        ∨ ((s.tx.get ep) = [] ∧ ∃ s1, fill ep e.chunk (selectEp ep s) = .ok s1 ∧ t = inhAfterFill ep e s1))) := by
  unfold inh State.dataEntry at h
  by_cases h0 : ep = 0
  · left; simpa [h0] using h.symm
  simp only [h0, ↓reduceIte] at h
  cases he : s.entry ep .IN with
  | none => left; simpa [he] using h.symm
  | some e =>
    simp only [he] at h
    split at h
    · left; simpa using h.symm
    right
    refine ⟨h0, e, rfl, by simpa using ‹¬ e.guarded = true›, ?_⟩
    split at h
    · left; simpa using h.symm
    right
    split at h
    · left; simpa using h.symm
    right
    rename_i hf
    obtain ⟨s1, h1, h2⟩ := andThen_ok.1 h
    refine ⟨?_, s1, h1, by simpa using h2.symm⟩
    simpa [State.fifoNotEmpty, Nat.pos_iff_ne_zero] using hf

/-- Everything OUTH can do when it ends well (R151). -/
theorem outh_ok {c : Cfg} {ep : EpNum} {s t : State} (h : outh c ep s = .ok t) :
    t = s ∨ (ep ≠ 0 ∧ ∃ e, s.entry ep .OUT = some e ∧ e.guarded = false ∧
      (t = clearSentStallOut ep (selectEp ep s)
        ∨ (s.rxCount ep ≤ e.remaining ∧ ∃ s1, drain c ep (s.rxCount ep) (selectEp ep s) = .ok s1 ∧
            t = outhAfterDrain ep e (s.rxCount ep) s1))) := by
  unfold outh State.dataEntry at h
  by_cases h0 : ep = 0
  · left; simpa [h0] using h.symm
  simp only [h0, ↓reduceIte] at h
  cases he : s.entry ep .OUT with
  | none => left; simpa [he] using h.symm
  | some e =>
    simp only [he] at h
    split at h
    · left; simpa using h.symm
    right
    refine ⟨h0, e, rfl, by simpa using ‹¬ e.guarded = true›, ?_⟩
    split at h
    · left; simpa using h.symm
    right
    split at h
    · simp at h
    split at h
    · simp at h
    rename_i hr
    obtain ⟨s1, h1, h2⟩ := andThen_ok.1 h
    exact ⟨by simpa [State.rxCount] using hr, s1, h1, (Except.ok.inj h2).symm⟩

/-- Everything IRQ can do when it ends well (R160). -/
theorem irq_ok {c : Cfg} {s t : State} (h : irq c s = .ok t) :
    t = clearPending s ∨ ∃ s1 s2 s3,
      (s1 = clearPending s ∨ ctrlh c (clearPending s) = .ok s1)
        ∧ forNumbers dataNumbers (ifBit s.intrIn inh) s1 = .ok s2
        ∧ forNumbers dataNumbers (ifBit s.intrOut (outh c)) s2 = .ok s3
        ∧ t = usbEvents c s.intrUsb s3 := by
  unfold irq at h
  split at h
  · left; simpa using h.symm
  · right
    unfold route at h
    obtain ⟨s1, h1, h⟩ := andThen_ok.1 h
    obtain ⟨s2, h2, h⟩ := andThen_ok.1 h
    obtain ⟨s3, h3, h⟩ := andThen_ok.1 h
    refine ⟨s1, s2, s3, ?_, h2, h3, by simpa using h.symm⟩
    split at h1
    · exact .inr h1
    · left; simpa using h1.symm

/-! ### Commands -/

/-- Everything SEND can do on an entry when it ends well (R172). -/
theorem send_ok {c : Cfg} {ep : EpNum} {e : Entry} {buf len : Word} {s t : State} (h : send c ep e buf len s = .ok t) :
    (ep = 0 ∧ buf = 0 ∧ len = 0 ∧ t = s)
      ∨ ((buf = 0 → len = 0) ∧ (buf ≠ 0 → admits c s buf.toNat len.toNat = true) ∧ e.buf = .none
          ∧ (ep = 0 → s.ep0state = .Idle ∧ buf ≠ 0) ∧ sendKick ep e buf len s = .ok t) := by
  unfold send at h
  split at h
  · rename_i h0; left; exact ⟨h0.1, h0.2.1, h0.2.2, by simpa using h.symm⟩
  · rename_i h0
    right
    unfold transferCheck at h
    split at h
    · simp at h
    split at h
    · simp at h
    split at h
    · simp at h
    rename_i h1 h2 h3
    simp only [Bool.or_eq_true, Bool.and_eq_true, decide_eq_true_eq, not_or, not_and, not_not] at h3
    have h1' : buf = 0 → len = 0 := by intro hb; by_contra hl; exact h1 ⟨hb, hl⟩
    refine ⟨h1', ?_, h3.1, ?_, h⟩
    · intro hb; by_contra hl; exact h2 ⟨hb, by simpa using hl⟩
    · intro he
      refine ⟨h3.2 he, fun hb => h0 ⟨he, hb, h1' hb⟩⟩

/-- Everything RECV can do on an entry when it ends well (R173). -/
theorem recv_ok {c : Cfg} {ep : EpNum} {e : Entry} {buf len : Word} {s t : State} (h : recv c ep e buf len s = .ok t) :
    (ep = 0 ∧ buf = 0 ∧ len = 0 ∧ t = s)
      ∨ (ep ≠ 0 ∧ (buf = 0 → len = 0) ∧ (buf ≠ 0 → admits c s buf.toNat len.toNat = true) ∧ e.buf = .none
          ∧ t = setMask false ((setMask true s).putEntry ep .OUT (e.accept buf len))) := by
  unfold recv at h
  split at h
  · split at h
    · rename_i h0 h1; left; exact ⟨h0, h1.1, h1.2, by simpa using h.symm⟩
    · simp at h
  · right
    unfold transferCheck at h
    split at h
    · simp at h
    split at h
    · simp at h
    split at h
    · simp at h
    rename_i h0 h1 h2 h3
    simp only [decide_eq_true_eq, not_not] at h3
    refine ⟨h0, ?_, ?_, h3, by simpa [recvRecord] using h.symm⟩
    · intro hb; by_contra hl; exact h1 ⟨hb, hl⟩
    · intro hb; by_contra hl; exact h2 ⟨hb, by simpa using hl⟩

/-- Everything a command with an entry can do when it ends well (R106). -/
theorem withEntry_ok {s t : State} {ep : EpNum} {d : Dir} {f : Entry → State → Result} (h : withEntry s ep d f = .ok t) :
    s.phase = .On ∧ ∃ e, s.entry ep d = some e ∧ f e s = .ok t := by
  unfold withEntry commandCheck at h
  split at h
  · simp at h
  split at h
  · simp at h
  rename_i h1 h2
  refine ⟨by cases hp : s.phase <;> simp_all, ?_⟩
  cases he : s.entry ep d with
  | none => simp [he] at h
  | some e => exact ⟨e, rfl, by simpa [he] using h⟩

theorem commandCheck_ok {s t : State} {b : Bool} {f : State → Result} (h : commandCheck s b f = .ok t) :
    s.phase = .On ∧ b = true ∧ f s = .ok t := by
  unfold commandCheck at h
  split at h
  · simp at h
  split at h
  · simp at h
  rename_i h1 h2
  exact ⟨by cases hp : s.phase <;> simp_all, by simpa using h2, h⟩

@[simp] theorem commandCheck_on {s : State} {f : State → Result} (h : s.phase = .On) : commandCheck s true f = f s := by
  simp [commandCheck, h]

/-! ### The meanings that read the configuration, at the default -/

@[simp] theorem execInit_eq (s : State) : execInit s = conclude s (init Config.cfg s) := rfl

@[simp] theorem execShutdown_eq (s : State) :
    execShutdown s = conclude s (commandCheck s true (fun s => .ok (shutdown Config.cfg s))) := rfl

@[simp] theorem execSend_eq (ep : EpNum) (buf len : Word) (s : State) :
    execSend ep buf len s = conclude s (withEntry s ep .IN (fun e s => send Config.cfg ep e buf len s)) := rfl

@[simp] theorem execRecv_eq (ep : EpNum) (buf len : Word) (s : State) :
    execRecv ep buf len s = conclude s (withEntry s ep .OUT (fun e s => recv Config.cfg ep e buf len s)) := rfl

@[simp] theorem execIrq_eq (s : State) : execIrq s = conclude s (irq Config.cfg s) := rfl

@[simp] theorem execReseth_eq (s : State) : execReseth s = conclude s (.ok (reseth Config.cfg s)) := rfl

@[simp] theorem execCtrlh_eq (s : State) : execCtrlh s = conclude s (ctrlh Config.cfg s) := rfl

@[simp] theorem execOuth_eq (ep : EpNum) (s : State) : execOuth ep s = conclude s (outh Config.cfg ep s) := rfl

@[simp] theorem execDrain_eq (ep : EpNum) (size : Word) (s : State) :
    execDrain ep size s = conclude s (drain Config.cfg ep size.toNat s) := rfl

/-! ### The step -/

/-- An IRQ step is run exactly when it is enabled (R160; log 14). -/
theorem irqFetch_run {p : List TopStep} {s t : State} {i : Instr} :
    irqFetch p s = .run i t ↔ s.phase = .On ∧ s.irqMasked = false ∧ i = .irq ∧ t = { s with program := p } := by
  unfold irqFetch State.irqEnabled
  cases h : s.phase <;> cases k : s.irqMasked <;> simp [eq_comm]

/-- Everything a step can do in any configuration on a state that is not faulted. -/
theorem stepIn_of_no_fault {c : Cfg} {s : State} (h : s.fault = none) :
    stepIn c s = (match nextStep c s with
      | .run i t => execIn c i t
      | .done o => o) := by
  simp only [stepIn, fetch, h] <;> rfl

/-- Everything a step can do on a state that is not faulted. -/
theorem step_of_no_fault {s : State} (h : s.fault = none) :
    step s = (match nextStep Config.cfg s with
      | .run i t => exec i t
      | .done o => o) := by
  simp only [step, fetch, h] <;> rfl

end Sys2Proof.Machine
end

