-- ==== Sys2Proof/Laws/Frame.lean ====
section
/-! SUPPORT. What the handlers and the FIFO operations never write, once for all of them: the relation `HandlerFrame`, and one lemma per operation. -/

namespace Sys2Proof.Machine

/-- A list of notifications whose completions are for data endpoints and report success (R211). -/
def CompletionsOk (l : List Notification) : Prop :=
  ∀ n d status bytes, Notification.onTransferComplete n d status bytes ∈ l → n ≠ 0 ∧ status = 0

theorem CompletionsOk.nil : CompletionsOk [] := by simp [CompletionsOk]

theorem CompletionsOk.append {l m : List Notification} (h : CompletionsOk l) (k : CompletionsOk m) :
    CompletionsOk (l ++ m) := by
  intro n d st b hm
  rcases List.mem_append.1 hm with hm | hm
  · exact h n d st b hm
  · exact k n d st b hm

/-- The logs only grow, and what `up_log` gains are good completions. -/
def LogsGrow (s t : State) : Prop :=
  (∃ l, t.upLog = s.upLog ++ l ∧ CompletionsOk l) ∧ s.txLog <+: t.txLog

theorem LogsGrow.refl (s : State) : LogsGrow s s := ⟨⟨[], by simp, CompletionsOk.nil⟩, List.prefix_refl _⟩

theorem LogsGrow.trans {s t u : State} (h : LogsGrow s t) (k : LogsGrow t u) : LogsGrow s u := by
  obtain ⟨⟨l, hl, cl⟩, h2⟩ := h
  obtain ⟨⟨m, hm, cm⟩, k2⟩ := k
  exact ⟨⟨l ++ m, by rw [hm, hl, List.append_assoc], cl.append cm⟩, h2.trans k2⟩

theorem LogsGrow.of_eq {s t : State} (h : t.upLog = s.upLog) (k : t.txLog = s.txLog) : LogsGrow s t :=
  ⟨⟨[], by simp [h], CompletionsOk.nil⟩, by rw [k]⟩

/-- The immutable fields and the capacity of every entry stay, and no entry appears or disappears (R21 to R23). -/
def TableKept (s t : State) : Prop :=
  ∀ n d, (t.entry n d).map (fun e => (e.etype, e.usesDma, e.cap)) = (s.entry n d).map (fun e => (e.etype, e.usesDma, e.cap))

/-- What no FIFO operation and no handler writes. -/
structure HandlerFrame (s t : State) : Prop where
  table       : TableKept s t
  logs        : LogsGrow s t
  intrUsb     : t.intrUsb = s.intrUsb
  intrIn      : t.intrIn = s.intrIn
  intrOut     : t.intrOut = s.intrOut
  dmaIntr     : t.dmaIntr = s.dmaIntr
  intrUsbE    : t.intrUsbE = s.intrUsbE
  intrInE     : t.intrInE = s.intrInE
  intrOutE    : t.intrOutE = s.intrOutE
  hsMode      : t.hsMode = s.hsMode
  faddr       : t.faddr = s.faddr
  testMode    : t.testMode = s.testMode
  dmaCntl     : t.dmaCntl = s.dmaCntl
  irqMasked   : t.irqMasked = s.irqMasked
  phase       : t.phase = s.phase
  domainPower : t.domainPower = s.domainPower
  busConnect  : t.busConnect = s.busConnect
  vbusSense   : t.vbusSense = s.vbusSense
  fault       : t.fault = s.fault
  refused     : t.refused = s.refused
  memMap      : t.memMap = s.memMap
  result      : t.result = s.result
  program     : t.program = s.program

theorem HandlerFrame.refl (s : State) : HandlerFrame s s := by
  constructor <;> first | rfl | exact LogsGrow.refl s | exact fun _ _ => rfl

theorem HandlerFrame.trans {s t u : State} (h : HandlerFrame s t) (k : HandlerFrame t u) : HandlerFrame s u where
  table n d := (k.table n d).trans (h.table n d)
  logs := h.logs.trans k.logs
  intrUsb := k.intrUsb.trans h.intrUsb
  intrIn := k.intrIn.trans h.intrIn
  intrOut := k.intrOut.trans h.intrOut
  dmaIntr := k.dmaIntr.trans h.dmaIntr
  intrUsbE := k.intrUsbE.trans h.intrUsbE
  intrInE := k.intrInE.trans h.intrInE
  intrOutE := k.intrOutE.trans h.intrOutE
  hsMode := k.hsMode.trans h.hsMode
  faddr := k.faddr.trans h.faddr
  testMode := k.testMode.trans h.testMode
  dmaCntl := k.dmaCntl.trans h.dmaCntl
  irqMasked := k.irqMasked.trans h.irqMasked
  phase := k.phase.trans h.phase
  domainPower := k.domainPower.trans h.domainPower
  busConnect := k.busConnect.trans h.busConnect
  vbusSense := k.vbusSense.trans h.vbusSense
  fault := k.fault.trans h.fault
  refused := k.refused.trans h.refused
  memMap := k.memMap.trans h.memMap
  result := k.result.trans h.result
  program := k.program.trans h.program

/-! ### The plain updates -/

theorem frame_selectEp (ep : EpNum) (s : State) : HandlerFrame s (selectEp ep s) := by
  constructor <;> first | rfl | exact LogsGrow.of_eq rfl rfl | exact fun _ d => by cases d <;> rfl

theorem frame_clearSentStall0 (s : State) : HandlerFrame s (clearSentStall0 s) := by
  constructor <;> first | rfl | exact LogsGrow.of_eq rfl rfl | exact fun _ d => by cases d <;> rfl

theorem frame_clearSetupEnd (s : State) : HandlerFrame s (clearSetupEnd s) := by
  constructor <;> first | rfl | exact LogsGrow.of_eq rfl rfl | exact fun _ d => by cases d <;> rfl

theorem frame_clearDataAvail (s : State) : HandlerFrame s (clearDataAvail s) := by
  constructor <;> first | rfl | exact LogsGrow.of_eq rfl rfl | exact fun _ d => by cases d <;> rfl

theorem frame_signalEp0 (b : Bool) (s : State) : HandlerFrame s (signalEp0 b s) := by
  constructor <;> first | rfl | exact LogsGrow.of_eq rfl rfl | exact fun _ d => by cases d <;> rfl

theorem frame_setInPktRdy (n : EpNum) (b : Bool) (s : State) : HandlerFrame s (setInPktRdy n b s) := by
  constructor <;> first | rfl | exact LogsGrow.of_eq rfl rfl | exact fun _ d => by cases d <;> rfl

theorem frame_setOutPktRdy (n : EpNum) (b : Bool) (s : State) : HandlerFrame s (setOutPktRdy n b s) := by
  constructor <;> first | rfl | exact LogsGrow.of_eq rfl rfl | exact fun _ d => by cases d <;> rfl

theorem frame_clearSentStallIn (n : EpNum) (s : State) : HandlerFrame s (clearSentStallIn n s) := by
  constructor <;> first | rfl | exact LogsGrow.of_eq rfl rfl | exact fun _ d => by cases d <;> rfl

theorem frame_clearSentStallOut (n : EpNum) (s : State) : HandlerFrame s (clearSentStallOut n s) := by
  constructor <;> first | rfl | exact LogsGrow.of_eq rfl rfl | exact fun _ d => by cases d <;> rfl

theorem frame_commitPacket (n : EpNum) (b : Bool) (s : State) : HandlerFrame s (commitPacket n b s) := by
  constructor <;> first
    | rfl
    | exact ⟨⟨[], by simp, CompletionsOk.nil⟩, List.prefix_append _ _⟩
    | exact fun _ d => by cases d <;> rfl

theorem frame_emit {x : Notification} (h : CompletionsOk [x]) (s : State) : HandlerFrame s (emit x s) := by
  constructor <;> first
    | rfl
    | exact ⟨⟨[x], rfl, h⟩, List.prefix_refl _⟩
    | exact fun _ d => by cases d <;> rfl

theorem completionsOk_done {n : EpNum} (h : n ≠ 0) (d : Dir) (b : Nat) :
    CompletionsOk [.onTransferComplete n d 0 b] := by
  intro m d' st b' hm
  simp only [List.mem_singleton, Notification.onTransferComplete.injEq] at hm
  exact ⟨hm.1 ▸ h, hm.2.2.1⟩

/-- An entry replaced by one with the same immutable fields and capacity. -/
theorem frame_putEntry {n : EpNum} {d : Dir} {e f : Entry} {s : State} (h : s.entry n d = some e)
    (k : (f.etype, f.usesDma, f.cap) = (e.etype, e.usesDma, e.cap)) : HandlerFrame s (s.putEntry n d f) := by
  constructor
  case table =>
    intro m d'
    rw [putEntry_entry]
    split
    · rename_i hm
      obtain ⟨rfl, rfl⟩ := hm
      rw [h, Option.map_some, Option.map_some, k]
    · rfl
  case logs => exact LogsGrow.of_eq (by simp) (by simp)
  all_goals simp

theorem frame_clearEntry (n : EpNum) (d : Dir) (s : State) : HandlerFrame s (clearEntry n d s) := by
  unfold clearEntry
  split
  · exact HandlerFrame.refl s
  · rename_i e he
    exact frame_putEntry he rfl

theorem frame_ep0ToIdle (s : State) : HandlerFrame s (ep0ToIdle s) := by
  refine HandlerFrame.trans ?_ (frame_clearEntry _ _ _)
  constructor <;> first | rfl | exact LogsGrow.of_eq rfl rfl | exact fun _ d => by cases d <;> rfl

theorem frame_putTx (b : Bank (List Byte)) (s : State) : HandlerFrame s { s with tx := b } := by
  constructor <;> first | rfl | exact LogsGrow.of_eq rfl rfl | exact fun _ d => by cases d <;> rfl

theorem frame_putRx (b : Bank (List Byte)) (s : State) : HandlerFrame s { s with rx := b } := by
  constructor <;> first | rfl | exact LogsGrow.of_eq rfl rfl | exact fun _ d => by cases d <;> rfl

/-- DRAIN's destinations: the control buffer, or caller memory. -/
theorem frame_moved (r : Bank (List Byte)) (b : Vector Byte 64) (m : List Host.Cell) (s : State) :
    HandlerFrame s { s with rx := r, ctrlBuf := b, mem := m } := by
  constructor <;> first | rfl | exact LogsGrow.of_eq rfl rfl | exact fun _ d => by cases d <;> rfl

theorem frame_flush (n : EpNum) (d : Dir) (s : State) : HandlerFrame s (flush n d s) := by
  unfold flush
  split
  · exact HandlerFrame.refl s
  · split
    · exact HandlerFrame.refl s
    · refine (frame_selectEp n s).trans ?_
      cases d
      · exact (frame_putRx _ _).trans (frame_setOutPktRdy _ _ _)
      · exact (frame_putTx _ _).trans (frame_setInPktRdy _ _ _)

/-! ### The FIFO operations and the handlers -/

/-- A write of bytes changes only `mem`, in every state. -/
theorem writeBytes_only_mem {bs : List Byte} {s t : State} {a : Nat} (h : s.writeBytes a bs = some t) :
    ∃ m, t = { s with mem := m } := by
  induction bs generalizing s a with
  | nil =>
    simp only [State.writeBytes, Option.some.injEq] at h
    exact ⟨s.mem, h.symm⟩
  | cons b u ih =>
    unfold State.writeBytes at h
    split at h
    · rename_i s1 h1
      obtain ⟨-, rfl⟩ := writeByte_some h1
      obtain ⟨m, rfl⟩ := ih h
      exact ⟨m, rfl⟩
    · simp at h

theorem frame_drain {c : Cfg} {ep : EpNum} {size : Nat} {s t : State} (h : drain c ep size s = .ok t) : HandlerFrame s t := by
  obtain ⟨e, -, -, ⟨-, -, rfl⟩ | ⟨a, -, hw⟩⟩ := drain_ok h
  · exact frame_moved _ _ s.mem s
  · obtain ⟨m, rfl⟩ := writeBytes_only_mem hw
    exact frame_moved _ s.ctrlBuf m s

theorem frame_fill {ep : EpNum} {size : Nat} {s t : State} (h : fill ep size s = .ok t) : HandlerFrame s t := by
  obtain ⟨e, -, ⟨-, rfl⟩ | ⟨-, -, -, a, bs, -, -, rfl⟩⟩ := fill_ok h
  · exact HandlerFrame.refl _
  · exact frame_putTx _ _

/-- FILL changes only the transmit FIFO, so every entry stays. -/
theorem fill_entry {ep : EpNum} {size : Nat} {s t : State} (h : fill ep size s = .ok t) (n : EpNum) (d : Dir) :
    t.entry n d = s.entry n d := by
  obtain ⟨e, -, ⟨-, rfl⟩ | ⟨-, -, -, a, bs, -, -, rfl⟩⟩ := fill_ok h
  · rfl
  · cases d <;> rfl

/-- DRAIN changes no entry. -/
theorem drain_entry {c : Cfg} {ep : EpNum} {size : Nat} {s t : State} (h : drain c ep size s = .ok t) (n : EpNum) (d : Dir) :
    t.entry n d = s.entry n d := by
  obtain ⟨e, -, -, ⟨-, -, rfl⟩ | ⟨a, -, hw⟩⟩ := drain_ok h
  · cases d <;> rfl
  · obtain ⟨m, rfl⟩ := writeBytes_only_mem hw
    cases d <;> rfl

theorem frame_ep0Last (s : State) : HandlerFrame s (ep0Last s) :=
  (frame_signalEp0 _ s).trans ((frame_commitPacket _ _ _).trans (frame_ep0ToIdle _))

theorem frame_ep0More (s : State) : HandlerFrame s (ep0More s) :=
  (frame_signalEp0 _ s).trans (frame_commitPacket _ _ _)

theorem frame_ep0send {s t : State} (h : ep0send s = .ok t) : HandlerFrame s t := by
  obtain ⟨e, he, ⟨-, rfl⟩ | ⟨-, s1, hf, h2⟩⟩ := ep0send_ok h
  · exact (frame_selectEp _ _).trans (frame_ep0Last _)
  · have h1 := (frame_selectEp 0 s).trans (frame_fill hf)
    have he1 : s1.entry 0 .IN = some e := by rw [fill_entry hf]; simpa using he
    have h3 := h1.trans (frame_putEntry (f := { e with prog := e.prog + e.chunk }) he1 rfl)
    rcases h2 with ⟨-, rfl⟩ | ⟨-, rfl⟩
    · exact h3.trans (frame_ep0Last _)
    · exact h3.trans (frame_ep0More _)

theorem frame_ctrlh {c : Cfg} {s t : State} (h : ctrlh c s = .ok t) : HandlerFrame s t := by
  rcases ctrlh_ok h with rfl | rfl | rfl | ⟨-, s1, hd, rfl⟩ | ⟨-, h2⟩
  · exact (frame_selectEp _ _).trans ((frame_clearSentStall0 _).trans (frame_ep0ToIdle _))
  · exact (frame_selectEp _ _).trans ((frame_clearSetupEnd _).trans (frame_ep0ToIdle _))
  · exact frame_selectEp _ _
  · exact (frame_selectEp _ _).trans ((frame_drain hd).trans ((frame_clearDataAvail _).trans
      (frame_emit (by simp [CompletionsOk]) _)))
  · exact (frame_selectEp _ _).trans (frame_ep0send h2)

theorem frame_inh {ep : EpNum} {s t : State} (h : inh ep s = .ok t) : HandlerFrame s t := by
  rcases inh_ok h with rfl | ⟨h0, e, he, -, rfl | rfl | ⟨-, s1, hf, rfl⟩⟩
  · exact HandlerFrame.refl _
  · exact (frame_selectEp _ _).trans (frame_clearSentStallIn _ _)
  · exact frame_selectEp _ _
  · have he1 : (commitPacket ep false (setInPktRdy ep true s1)).entry ep .IN = some e := by
      simp only [commitPacket_entry, setInPktRdy_entry]
      rw [fill_entry hf]
      simpa using he
    have h3 := (frame_selectEp ep s).trans ((frame_fill hf).trans ((frame_setInPktRdy ep true s1).trans
      ((frame_commitPacket ep false _).trans
        (frame_putEntry (f := { e with prog := e.prog + e.chunk }) he1 rfl))))
    unfold inhAfterFill
    simp only
    split
    · exact h3.trans ((frame_emit (completionsOk_done h0 _ _) _).trans (frame_clearEntry _ _ _))
    · exact h3

theorem frame_outh {c : Cfg} {ep : EpNum} {s t : State} (h : outh c ep s = .ok t) : HandlerFrame s t := by
  rcases outh_ok h with rfl | ⟨h0, e, he, -, rfl | ⟨-, s1, hd, rfl⟩⟩
  · exact HandlerFrame.refl _
  · exact (frame_selectEp _ _).trans (frame_clearSentStallOut _ _)
  · have he1 : s1.entry ep .OUT = some e := by rw [drain_entry hd]; simpa using he
    have h3 := (frame_selectEp ep s).trans ((frame_drain hd).trans
      ((frame_putEntry (f := { e with prog := e.prog + s.rxCount ep }) he1 rfl).trans (frame_setOutPktRdy ep false _)))
    unfold outhAfterDrain
    simp only
    split
    · exact h3.trans ((frame_emit (completionsOk_done h0 _ _) _).trans (frame_clearEntry _ _ _))
    · exact h3

/-- The handlers of one interrupt, up to the bus events, keep what every handler keeps. -/
theorem frame_forNumbers {bits : Bank Bool} {f : EpNum → State → Result}
    (hf : ∀ n s t, f n s = .ok t → HandlerFrame s t) {ns : List EpNum} {s t : State}
    (h : forNumbers ns (ifBit bits f) s = .ok t) : HandlerFrame s t :=
  forNumbers_induct (P := HandlerFrame s)
    (fun n u v hu hv => hu.trans (by
      unfold ifBit at hv
      split at hv
      · exact hf n u v hv
      · cases hv; exact HandlerFrame.refl u)) ns (HandlerFrame.refl s) h

end Sys2Proof.Machine
end

