-- ==== Sys2Proof/Laws/PerInstr.lean ====
section
/-! SUPPORT. The per-instruction family `EncodeLength`: how many words an operation is sent as (R102, R107), one lemma per constructor. -/

/-- An operation is encoded as as many words as the opcode of its head word says (R107). -/
def Sys2Proof.Laws.EncodeLength.Statement (i : Sys2Proof.Instr) : Prop :=
  (Sys2Proof.encode i).length = Sys2Proof.lengthOf ((Sys2Proof.encode i).headD 0)

theorem Sys2Proof.Laws.EncodeLength.init :
    Sys2Proof.Laws.EncodeLength.Statement .init := by
  simp only [Statement, Sys2Proof.encode, List.headD_cons, Sys2Proof.lengthOf, Sys2Proof.opField_headWord]
  rfl

theorem Sys2Proof.Laws.EncodeLength.shutdown :
    Sys2Proof.Laws.EncodeLength.Statement .shutdown := by
  simp only [Statement, Sys2Proof.encode, List.headD_cons, Sys2Proof.lengthOf, Sys2Proof.opField_headWord]
  rfl

theorem Sys2Proof.Laws.EncodeLength.send (ep : Sys2Proof.EpNum) (buf len : Sys2Proof.Word) :
    Sys2Proof.Laws.EncodeLength.Statement (.send ep buf len) := by
  simp only [Statement, Sys2Proof.encode, List.headD_cons, Sys2Proof.lengthOf, Sys2Proof.opField_headWord]
  rfl

theorem Sys2Proof.Laws.EncodeLength.recv (ep : Sys2Proof.EpNum) (buf len : Sys2Proof.Word) :
    Sys2Proof.Laws.EncodeLength.Statement (.recv ep buf len) := by
  simp only [Statement, Sys2Proof.encode, List.headD_cons, Sys2Proof.lengthOf, Sys2Proof.opField_headWord]
  rfl

theorem Sys2Proof.Laws.EncodeLength.cancelall :
    Sys2Proof.Laws.EncodeLength.Statement .cancelall := by
  simp only [Statement, Sys2Proof.encode, List.headD_cons, Sys2Proof.lengthOf, Sys2Proof.opField_headWord]
  rfl

theorem Sys2Proof.Laws.EncodeLength.stall (ep : Sys2Proof.EpNum) (dir : Sys2Proof.Dir) (st : Bool) :
    Sys2Proof.Laws.EncodeLength.Statement (.stall ep dir st) := by
  simp only [Statement, Sys2Proof.encode, List.headD_cons, Sys2Proof.lengthOf, Sys2Proof.opField_headWord]
  rfl

theorem Sys2Proof.Laws.EncodeLength.isstalled (ep : Sys2Proof.EpNum) (dir : Sys2Proof.Dir) :
    Sys2Proof.Laws.EncodeLength.Statement (.isstalled ep dir) := by
  simp only [Statement, Sys2Proof.encode, List.headD_cons, Sys2Proof.lengthOf, Sys2Proof.opField_headWord]
  rfl

theorem Sys2Proof.Laws.EncodeLength.portspeed :
    Sys2Proof.Laws.EncodeLength.Statement .portspeed := by
  simp only [Statement, Sys2Proof.encode, List.headD_cons, Sys2Proof.lengthOf, Sys2Proof.opField_headWord]
  rfl

theorem Sys2Proof.Laws.EncodeLength.connected :
    Sys2Proof.Laws.EncodeLength.Statement .connected := by
  simp only [Statement, Sys2Proof.encode, List.headD_cons, Sys2Proof.lengthOf, Sys2Proof.opField_headWord]
  rfl

theorem Sys2Proof.Laws.EncodeLength.irq :
    Sys2Proof.Laws.EncodeLength.Statement .irq := by
  simp only [Statement, Sys2Proof.encode, List.headD_cons, Sys2Proof.lengthOf, Sys2Proof.opField_headWord]
  rfl

theorem Sys2Proof.Laws.EncodeLength.ctrlh :
    Sys2Proof.Laws.EncodeLength.Statement .ctrlh := by
  simp only [Statement, Sys2Proof.encode, List.headD_cons, Sys2Proof.lengthOf, Sys2Proof.opField_headWord]
  rfl

theorem Sys2Proof.Laws.EncodeLength.inh (ep : Sys2Proof.EpNum) :
    Sys2Proof.Laws.EncodeLength.Statement (.inh ep) := by
  simp only [Statement, Sys2Proof.encode, List.headD_cons, Sys2Proof.lengthOf, Sys2Proof.opField_headWord]
  rfl

theorem Sys2Proof.Laws.EncodeLength.outh (ep : Sys2Proof.EpNum) :
    Sys2Proof.Laws.EncodeLength.Statement (.outh ep) := by
  simp only [Statement, Sys2Proof.encode, List.headD_cons, Sys2Proof.lengthOf, Sys2Proof.opField_headWord]
  rfl

theorem Sys2Proof.Laws.EncodeLength.reseth :
    Sys2Proof.Laws.EncodeLength.Statement .reseth := by
  simp only [Statement, Sys2Proof.encode, List.headD_cons, Sys2Proof.lengthOf, Sys2Proof.opField_headWord]
  rfl

theorem Sys2Proof.Laws.EncodeLength.select (ep : Sys2Proof.EpNum) :
    Sys2Proof.Laws.EncodeLength.Statement (.select ep) := by
  simp only [Statement, Sys2Proof.encode, List.headD_cons, Sys2Proof.lengthOf, Sys2Proof.opField_headWord]
  rfl

theorem Sys2Proof.Laws.EncodeLength.drain (ep : Sys2Proof.EpNum) (size : Sys2Proof.Word) :
    Sys2Proof.Laws.EncodeLength.Statement (.drain ep size) := by
  simp only [Statement, Sys2Proof.encode, List.headD_cons, Sys2Proof.lengthOf, Sys2Proof.opField_headWord]
  rfl

theorem Sys2Proof.Laws.EncodeLength.fill (ep : Sys2Proof.EpNum) (size : Sys2Proof.Word) :
    Sys2Proof.Laws.EncodeLength.Statement (.fill ep size) := by
  simp only [Statement, Sys2Proof.encode, List.headD_cons, Sys2Proof.lengthOf, Sys2Proof.opField_headWord]
  rfl

theorem Sys2Proof.Laws.EncodeLength.flush (ep : Sys2Proof.EpNum) (dir : Sys2Proof.Dir) :
    Sys2Proof.Laws.EncodeLength.Statement (.flush ep dir) := by
  simp only [Statement, Sys2Proof.encode, List.headD_cons, Sys2Proof.lengthOf, Sys2Proof.opField_headWord]
  rfl

theorem Sys2Proof.Laws.EncodeLength.ep0send :
    Sys2Proof.Laws.EncodeLength.Statement .ep0send := by
  simp only [Statement, Sys2Proof.encode, List.headD_cons, Sys2Proof.lengthOf, Sys2Proof.opField_headWord]
  rfl

theorem Sys2Proof.Laws.EncodeLength.onctrlreq (count : BitVec 7) (data : Vector Sys2Proof.Byte 64) :
    Sys2Proof.Laws.EncodeLength.Statement (.onctrlreq count data) := by
  have h : Sys2Proof.lengthOf (0x30#8 ++ 0#17 ++ count : Sys2Proof.Word) = 17 := by revert count; decide
  simp only [Statement, Sys2Proof.encode, List.headD_cons, h, List.length_cons, Sys2Proof.length_dataWords]

theorem Sys2Proof.Laws.EncodeLength.onxferdone (status : BitVec 8) (dir : Sys2Proof.Dir) (ep : Sys2Proof.EpNum)
    (bytes : Sys2Proof.Word) :
    Sys2Proof.Laws.EncodeLength.Statement (.onxferdone status dir ep bytes) := by
  simp only [Statement, Sys2Proof.encode, List.headD_cons, Sys2Proof.lengthOf, Sys2Proof.opField_headWord]
  rfl

theorem Sys2Proof.Laws.EncodeLength.onbusreset :
    Sys2Proof.Laws.EncodeLength.Statement .onbusreset := by
  simp only [Statement, Sys2Proof.encode, List.headD_cons, Sys2Proof.lengthOf, Sys2Proof.opField_headWord]
  rfl

theorem Sys2Proof.Laws.EncodeLength.logev (kind : BitVec 2) :
    Sys2Proof.Laws.EncodeLength.Statement (.logev kind) := by
  have h : Sys2Proof.lengthOf (0x33#8 ++ 0#22 ++ kind : Sys2Proof.Word) = 1 := by revert kind; decide
  simp only [Statement, Sys2Proof.encode, List.headD_cons, h, List.length_cons, List.length_nil]
end

