-- ==== Sys2Proof/Laws/Reset.lean ====
section
/-! SUPPORT. The loops over the Endpoint Table, once for all: what the reset sequence (R250) and CANCELALL (R175) leave in the table, and what they never write. -/

namespace Sys2Proof.Machine

/-! ### What a pass over one key does to the table -/

theorem rederiveCap_entry (c : Cfg) (n : EpNum) (d : Dir) (s : State) (m : EpNum) (d' : Dir) :
    (rederiveCap c n d s).entry m d' =
      if n = m ∧ d = d' then (s.entry m d').map (fun e => { e with cap := resetCap c s.hsMode e.etype })
      else s.entry m d' := by
  unfold rederiveCap
  by_cases h : n = m ∧ d = d'
  · obtain ⟨rfl, rfl⟩ := h
    cases hs : s.entry n d <;> simp [hs]
  · cases hs : s.entry n d <;> simp [putEntry_entry, h]

/-- What the reset sequence makes of an entry (R250). -/
def Entry.reset (c : Cfg) (hs : Bool) (n : EpNum) (d : Dir) (e : Entry) : Entry :=
  { e with cap := resetCap c hs e.etype, len := 0, prog := 0, buf := if n = 0 ∧ d = .OUT then .ctrl else .none }

theorem resetEntry_entry (c : Cfg) (n : EpNum) (d : Dir) (s : State) (m : EpNum) (d' : Dir) :
    (resetEntry c n d s).entry m d' =
      if n = m ∧ d = d' then (s.entry m d').map (fun e => e.reset c s.hsMode m d') else s.entry m d' := by
  simp only [resetEntry, clearEntry_entry, flush_entry, rederiveCap_entry]
  by_cases h : n = m ∧ d = d'
  · obtain ⟨rfl, rfl⟩ := h
    simp only [and_self, if_true, Option.map_map]
    rfl
  · simp [h]

theorem cancelEntry_entry (n : EpNum) (d : Dir) (s : State) (m : EpNum) (d' : Dir) :
    (cancelEntry n d s).entry m d' =
      if n = m ∧ d = d' then (s.entry m d').map (fun e => e.clear m d') else s.entry m d' := by
  simp only [cancelEntry, clearEntry_entry, flush_entry]
  by_cases h : n = m ∧ d = d'
  · obtain ⟨rfl, rfl⟩ := h; simp
  · simp [h]

theorem rederiveCap_hsMode (c : Cfg) (n : EpNum) (d : Dir) (s : State) : (rederiveCap c n d s).hsMode = s.hsMode := by
  unfold rederiveCap; split <;> simp

theorem resetEntry_hsMode (c : Cfg) (n : EpNum) (d : Dir) (s : State) : (resetEntry c n d s).hsMode = s.hsMode := by
  simp [resetEntry, rederiveCap_hsMode]

/-! ### What the loops do to the table -/

/-- A loop whose pass on a key updates that key's entry only, by an idempotent update that depends on `hsMode` alone. -/
theorem forKeys_entry {f : EpNum → Dir → State → State} {g : Bool → EpNum → Dir → Entry → Entry}
    (hf : ∀ n d s m d', (f n d s).entry m d' =
      if n = m ∧ d = d' then (s.entry m d').map (g s.hsMode m d') else s.entry m d')
    (hh : ∀ n d s, (f n d s).hsMode = s.hsMode) (hg : ∀ b n d e, g b n d (g b n d e) = g b n d e)
    (ks : List (EpNum × Dir)) (s : State) (m : EpNum) (d : Dir) :
    (forKeys ks f s).entry m d = if (m, d) ∈ ks then (s.entry m d).map (g s.hsMode m d) else s.entry m d := by
  induction ks generalizing s with
  | nil => simp [forKeys]
  | cons k t ih =>
    obtain ⟨n, d'⟩ := k
    simp only [forKeys, ih, hf, hh, List.mem_cons, Prod.mk.injEq]
    by_cases h : n = m ∧ d' = d
    · obtain ⟨rfl, rfl⟩ := h
      have hgg : (g s.hsMode n d' ∘ g s.hsMode n d') = g s.hsMode n d' := funext (hg _ _ _)
      by_cases h2 : (n, d') ∈ t <;> simp [h2, Option.map_map, hgg]
    · have h' : ¬(m = n ∧ d = d') := fun ⟨a, b⟩ => h ⟨a.symm, b.symm⟩
      by_cases h2 : (m, d) ∈ t <;> simp [h, h', h2]

theorem forKeys_hsMode {f : EpNum → Dir → State → State} (hh : ∀ n d s, (f n d s).hsMode = s.hsMode)
    (ks : List (EpNum × Dir)) (s : State) : (forKeys ks f s).hsMode = s.hsMode :=
  forKeys_induct (P := fun t => t.hsMode = s.hsMode) (fun n d t ht => (hh n d t).trans ht) ks rfl

/-- Every entry after the reset sequence (R250). -/
theorem resetSequence_entry (c : Cfg) (s : State) (n : EpNum) (d : Dir) :
    (resetSequence c s).entry n d = (s.entry n d).map (fun e => e.reset c s.hsMode n d) := by
  have h : (resetSequence c s).entry n d = (forKeys tableOrder (resetEntry c) { s with faddr := 0 }).entry n d := by
    simp only [resetSequence]
    generalize forKeys tableOrder (resetEntry c) { s with faddr := 0 } = m
    cases d <;> rfl
  rw [h, forKeys_entry (g := fun b n d e => e.reset c b n d) (resetEntry_entry c) (resetEntry_hsMode c)
    (fun _ _ _ _ => rfl), if_pos (mem_tableOrder n d)]
  cases d <;> rfl

/-- Every entry after CANCELALL (R175). -/
theorem cancelAll_entry (s : State) (n : EpNum) (d : Dir) :
    (cancelAll s).entry n d = (s.entry n d).map (fun e => e.clear n d) := by
  have h : (cancelAll s).entry n d = (forKeys tableOrder cancelEntry (setMask true s)).entry n d := by
    simp only [cancelAll]
    generalize forKeys tableOrder cancelEntry (setMask true s) = m
    cases d <;> rfl
  rw [h, forKeys_entry (g := fun _ n d e => e.clear n d) cancelEntry_entry (fun _ _ _ => by simp [cancelEntry])
    (fun _ _ _ _ => rfl), if_pos (mem_tableOrder n d), setMask_entry]

/-! ### What the loops never write -/

/-- What the passes of the two loops never write. -/
structure LoopFrame (s t : State) : Prop where
  ep0state    : t.ep0state = s.ep0state
  ctrlBuf     : t.ctrlBuf = s.ctrlBuf
  csr0        : t.csr0 = s.csr0
  intrUsb     : t.intrUsb = s.intrUsb
  intrIn      : t.intrIn = s.intrIn
  intrOut     : t.intrOut = s.intrOut
  dmaIntr     : t.dmaIntr = s.dmaIntr
  intrUsbE    : t.intrUsbE = s.intrUsbE
  intrInE     : t.intrInE = s.intrInE
  intrOutE    : t.intrOutE = s.intrOutE
  hsMode      : t.hsMode = s.hsMode
  faddr       : t.faddr = s.faddr
  testMode    : t.testMode = s.testMode
  dmaCntl     : t.dmaCntl = s.dmaCntl
  irqMasked   : t.irqMasked = s.irqMasked
  phase       : t.phase = s.phase
  domainPower : t.domainPower = s.domainPower
  busConnect  : t.busConnect = s.busConnect
  vbusSense   : t.vbusSense = s.vbusSense
  upLog       : t.upLog = s.upLog
  txLog       : t.txLog = s.txLog
  fault       : t.fault = s.fault
  refused     : t.refused = s.refused
  mem         : t.mem = s.mem
  memMap      : t.memMap = s.memMap
  result      : t.result = s.result
  program     : t.program = s.program

theorem LoopFrame.refl (s : State) : LoopFrame s s := by constructor <;> rfl

theorem LoopFrame.trans {s t u : State} (h : LoopFrame s t) (k : LoopFrame t u) : LoopFrame s u := by
  constructor
  case ep0state => exact k.ep0state.trans h.ep0state
  case ctrlBuf => exact k.ctrlBuf.trans h.ctrlBuf
  case csr0 => exact k.csr0.trans h.csr0
  case intrUsb => exact k.intrUsb.trans h.intrUsb
  case intrIn => exact k.intrIn.trans h.intrIn
  case intrOut => exact k.intrOut.trans h.intrOut
  case dmaIntr => exact k.dmaIntr.trans h.dmaIntr
  case intrUsbE => exact k.intrUsbE.trans h.intrUsbE
  case intrInE => exact k.intrInE.trans h.intrInE
  case intrOutE => exact k.intrOutE.trans h.intrOutE
  case hsMode => exact k.hsMode.trans h.hsMode
  case faddr => exact k.faddr.trans h.faddr
  case testMode => exact k.testMode.trans h.testMode
  case dmaCntl => exact k.dmaCntl.trans h.dmaCntl
  case irqMasked => exact k.irqMasked.trans h.irqMasked
  case phase => exact k.phase.trans h.phase
  case domainPower => exact k.domainPower.trans h.domainPower
  case busConnect => exact k.busConnect.trans h.busConnect
  case vbusSense => exact k.vbusSense.trans h.vbusSense
  case upLog => exact k.upLog.trans h.upLog
  case txLog => exact k.txLog.trans h.txLog
  case fault => exact k.fault.trans h.fault
  case refused => exact k.refused.trans h.refused
  case mem => exact k.mem.trans h.mem
  case memMap => exact k.memMap.trans h.memMap
  case result => exact k.result.trans h.result
  case program => exact k.program.trans h.program

theorem loopFrame_putEntry (n : EpNum) (d : Dir) (e : Entry) (s : State) : LoopFrame s (s.putEntry n d e) := by
  constructor <;> simp

theorem loopFrame_flush (n : EpNum) (d : Dir) (s : State) : LoopFrame s (flush n d s) := by
  constructor <;> simp

theorem loopFrame_clearEntry (n : EpNum) (d : Dir) (s : State) : LoopFrame s (clearEntry n d s) := by
  constructor <;> simp

theorem loopFrame_resetEntry (c : Cfg) (n : EpNum) (d : Dir) (s : State) : LoopFrame s (resetEntry c n d s) := by
  refine LoopFrame.trans (t := rederiveCap c n d s) ?_ ((loopFrame_flush n d _).trans (loopFrame_clearEntry n d _))
  unfold rederiveCap
  split
  · exact LoopFrame.refl s
  · exact loopFrame_putEntry _ _ _ _

theorem loopFrame_cancelEntry (n : EpNum) (d : Dir) (s : State) : LoopFrame s (cancelEntry n d s) :=
  (loopFrame_flush n d s).trans (loopFrame_clearEntry n d _)

theorem loopFrame_forKeys {f : EpNum → Dir → State → State} (hf : ∀ n d s, LoopFrame s (f n d s))
    (ks : List (EpNum × Dir)) (s : State) : LoopFrame s (forKeys ks f s) :=
  forKeys_induct (P := LoopFrame s) (fun n d t ht => ht.trans (hf n d t)) ks (LoopFrame.refl s)

/-- What the reset sequence leaves of a state: `m` is the state its loop reaches from `FADDR` cleared. -/
theorem resetSequence_loop (c : Cfg) (s : State) :
    ∃ m, LoopFrame { s with faddr := 0 } m ∧ resetSequence c s = enableData { m with ep0state := .Idle } :=
  ⟨_, loopFrame_forKeys (loopFrame_resetEntry c) tableOrder _, rfl⟩

/-- What CANCELALL leaves of a state: `m` is the state its loop reaches with interrupts masked. -/
theorem cancelAll_loop (s : State) :
    ∃ m, LoopFrame (setMask true s) m ∧ cancelAll s = setMask false { m with ep0state := .Idle } :=
  ⟨_, loopFrame_forKeys loopFrame_cancelEntry tableOrder _, rfl⟩

end Sys2Proof.Machine
end

