-- ==== Sys2Proof/Machine/RegView.lean ====
section
/-! DEFINITION. The Register Interface as software sees it: the words that a read of each register returns, in the default register map (spec/10_state.md R36, R37, R40). No operation reads these words (R40; log 21). -/

namespace Sys2Proof.Machine

/-- The word whose flags stand at the positions beside them. -/
def packAt (fs : List (Nat × Bool)) : Nat :=
  match fs with
  | [] => 0
  | (k, b) :: t => (if b then 2 ^ k else 0) ||| packAt t

/-- The 16 flags of a bank, endpoint 0 in bit 0. -/
def packBank (b : Bank Bool) : Nat := packAt ((List.finRange 16).map (fun n => (n.val, b.get n)))

def csr0Word (p : RegBits) (r : Csr0) : Nat :=
  packAt [(p.dataAvail, r.dataAvail), (p.inPktRdy0, r.inPktRdy), (p.sentStall0, r.sentStall), (p.dataEnd, r.dataEnd),
    (p.setupEnd, r.setupEnd), (p.sendStall0, r.sendStall)]

def inCsrWord (p : RegBits) (r : InCsr) (notEmpty : Bool) : Nat :=
  packAt [(p.inPktRdy, r.inPktRdy), (p.fifoNotEmpty, notEmpty), (p.inSendStall, r.sendStall), (p.inSentStall, r.sentStall)]

def outCsrWord (p : RegBits) (r : OutCsr) : Nat :=
  packAt [(p.outPktRdy, r.outPktRdy), (p.outSendStall, r.sendStall), (p.outSentStall, r.sentStall)]

def usbWord (p : RegBits) (f : UsbFlags) : Nat :=
  packAt [(p.suspend, f.suspend), (p.resume, f.resume), (p.reset, f.reset)]

/-- `POWER`: `HS_MODE` and `SOFT_CONN`; the bits the block does not use read 0 here. -/
def State.powerWord (p : RegBits) (s : State) : Nat := packAt [(p.hsMode, s.hsMode), (p.softConn, s.softConn)]

/-- What a read of the register at offset `off` returns, without the read's side effects (R74): the scoped registers are
those of the endpoint in `INDEX` (R37). `none` where the map has no such register; the FIFO ports are not here.
DESIGN CHOICE (log 17): R39 gives no scoped register for an `INDEX` at or above `NEP`; such a read returns what the places
of the banks for that number hold here, and no operation makes one. -/
def State.regView (m : RegMap) (s : State) (off : Nat) : Option Nat :=
  if off = m.faddr then some (s.faddr.toNat <<< m.bits.faddr)
  else if off = m.power then some (s.powerWord m.bits)
  else if off = m.intrIn then some (packBank s.intrIn <<< m.bits.endpoint0)
  else if off = m.intrOut then some (packBank s.intrOut <<< m.bits.endpoint0)
  else if off = m.intrInE then some (packBank s.intrInE <<< m.bits.endpoint0)
  else if off = m.intrOutE then some (packBank s.intrOutE <<< m.bits.endpoint0)
  else if off = m.intrUsb then some (usbWord m.bits s.intrUsb)
  else if off = m.intrUsbE then some (usbWord m.bits s.intrUsbE)
  else if off = m.index then some (s.index.val <<< m.bits.index)
  else if off = m.testMode then some s.testMode.toNat
  else if off = m.csr then
    if s.index = 0 then some (csr0Word m.bits s.csr0)
    else some (inCsrWord m.bits (s.inCsr.get s.index) (s.fifoNotEmpty s.index))
  else if off = m.outCsr then
    if s.index = 0 then none else some (outCsrWord m.bits (s.outCsr.get s.index))
  else if off = m.count then some (s.rxCount s.index)
  else if off = m.dmaIntr then some s.dmaIntr.toNat
  else if m.dmaCntl ≤ off ∧ (off - m.dmaCntl) % 0x10 = 0 then
    (s.dmaCntl[(off - m.dmaCntl) / 0x10]?).map BitVec.toNat
  else none

end Sys2Proof.Machine
end

