-- ==== Sys2Proof/Machine/Written.lean ====
section
/-! DEFINITION. The written syntax of operations (spec/30_encoding.md R110) and the pseudo-operations (R111). -/

namespace Sys2Proof.Machine

/-! ### Pseudo-operations (R111) -/

/-- `UNSTALL ep, dir` is `STALL ep, dir, 0`. -/
def pseudoUnstall (ep : EpNum) (dir : Dir) : Instr := .stall ep dir false

/-- `ACKIN` is `SEND 0, null, 0`. -/
def pseudoAckIn : Instr := .send 0 0 0

/-- `ACKOUT` is `RECV 0, null, 0`. -/
def pseudoAckOut : Instr := .recv 0 0 0

/-- `HANDSHAKE buf` is `SEND 0, buf, 0` (with `buf` not null). -/
def pseudoHandshake (buf : Word) : Instr := .send 0 buf 0

/-! ### Written syntax (R110) -/

/-- A hexadecimal digit. -/
def hexDigit (k : Nat) : Char := "0123456789abcdef".toList.getD k '0'

/-- The digits of `v` in hexadecimal, `k` of them. -/
def hexDigits (k v : Nat) : List Char :=
  match k with
  | 0 => []
  | k + 1 => hexDigits k (v / 16) ++ [hexDigit (v % 16)]

def writeDec (v : Nat) : String := toString v
def writeDir (d : Dir) : String := match d with | .OUT => "OUT" | .IN => "IN"
def writeBit (b : Bool) : String := if b then "1" else "0"
def writeBuf (w : Word) : String := if w = 0 then "null" else "0x" ++ String.ofList (hexDigits 8 w.toNat)
def writeByte (b : Byte) : String := String.ofList (hexDigits 2 b.toNat)

/-- An operation in the written syntax: mnemonic, then operands separated by commas. -/
def writeInstr (i : Instr) : String :=
  match i with
  | .init => "INIT"
  | .shutdown => "SHUTDOWN"
  | .send ep buf len => "SEND " ++ writeDec ep.val ++ ", " ++ writeBuf buf ++ ", " ++ writeDec len.toNat
  | .recv ep buf len => "RECV " ++ writeDec ep.val ++ ", " ++ writeBuf buf ++ ", " ++ writeDec len.toNat
  | .cancelall => "CANCELALL"
  | .stall ep dir st => "STALL " ++ writeDec ep.val ++ ", " ++ writeDir dir ++ ", " ++ writeBit st
  | .isstalled ep dir => "ISSTALLED " ++ writeDec ep.val ++ ", " ++ writeDir dir
  | .portspeed => "PORTSPEED"
  | .connected => "CONNECTED"
  | .irq => "IRQ"
  | .ctrlh => "CTRLH"
  | .inh ep => "INH " ++ writeDec ep.val
  | .outh ep => "OUTH " ++ writeDec ep.val
  | .reseth => "RESETH"
  | .select ep => "SELECT " ++ writeDec ep.val
  | .drain ep size => "DRAIN " ++ writeDec ep.val ++ ", " ++ writeDec size.toNat
  | .fill ep size => "FILL " ++ writeDec ep.val ++ ", " ++ writeDec size.toNat
  | .flush ep dir => "FLUSH " ++ writeDec ep.val ++ ", " ++ writeDir dir
  | .ep0send => "EP0SEND"
  | .onctrlreq count data =>
    "ONCTRLREQ " ++ writeDec count.toNat ++ ", " ++ " ".intercalate (data.toList.map writeByte)
  | .onxferdone status dir ep bytes =>
    "ONXFERDONE " ++ writeDec ep.val ++ ", " ++ writeDir dir ++ ", " ++ writeDec status.toNat ++ ", "
      ++ writeDec bytes.toNat
  | .onbusreset => "ONBUSRESET"
  | .logev kind =>
    "LOGEV " ++ (match logKindOf kind with
      | some .suspend => "suspend"
      | some .resume => "resume"
      | none => writeDec kind.toNat)

end Sys2Proof.Machine
end

