-- ==== Sys2Proof/Tests/Slice0.lean ====
section
/-! SUPPORT. The model's own tests: well-formedness, decoding words written out from the encoding tables, and one step per test against the vectors of spec/95_test_vectors.md. -/

namespace Sys2Proof.Tests

open Sys2Proof Sys2Proof.Machine

set_option maxRecDepth 8000

/-! ### Helpers -/

/-- The state an outcome leads to. -/
def after (o : Host.Outcome State Fault Refusal) : Option State :=
  match o with
  | .next s => some s
  | .fault _ => none
  | .refused _ => none

/-- A property of the state an outcome leads to. -/
def gives (o : Host.Outcome State Fault Refusal) (p : State → Bool) : Bool := (after o).any p

/-- The state an outcome leads to, or the reset state. -/
def stateOf (o : Host.Outcome State Fault Refusal) : State := (after o).getD State.reset

/-- `S_init` of 95_test_vectors.md: the state after INIT. -/
def sInit : State := stateOf (exec .init State.reset)

/-- `S_hs`: `S_init` after B_BUS_RESET(1) and IRQ. -/
def sHs : State := stateOf (exec .irq (BusMove.apply (.busReset true) sInit))

/-- A data or control entry `{mem(a), len, prog}` put into the table. -/
def queue (n : EpNum) (d : Dir) (a len prog : Nat) (s : State) : State :=
  match s.entry n d with
  | none => s
  | some e => s.putEntry n d { e with buf := .mem a, len := len, prog := prog }

/-- Bytes `bs` in memory from address `a`. -/
def withMem (a : Nat) (bs : List Byte) (s : State) : State := (s.writeBytes a bs).getD s

/-- An entry, written `(buf, len, prog)`. -/
def entryOf (s : State) (n : EpNum) (d : Dir) : Option (Buf × Nat × Nat) :=
  (s.entry n d).map (fun e => (e.buf, e.len, e.prog))

def setup8 : List Byte := [0x80, 0x06, 0x00, 0x01, 0x00, 0x00, 0x12, 0x00]

/-! ### WellFormed: one ill-formed term for each check -/

theorem test_wf_inh_control : Instr.wf Config.cfg (.inh 0) = false := by decide
theorem test_wf_inh_absent : Instr.wf Config.cfg (.inh 3) = false := by decide
theorem test_wf_outh_control : Instr.wf Config.cfg (.outh 0) = false := by decide
theorem test_wf_outh_absent : Instr.wf Config.cfg (.outh 2) = false := by decide
theorem test_wf_select : Instr.wf Config.cfg (.select 3) = false := by decide
theorem test_wf_drain : Instr.wf Config.cfg (.drain 2 1) = false := by decide
theorem test_wf_fill : Instr.wf Config.cfg (.fill 3 1) = false := by decide
theorem test_wf_flush : Instr.wf Config.cfg (.flush 2 .OUT) = false := by decide
theorem test_wf_onctrlreq : Instr.wf Config.cfg (.onctrlreq 65 (Vector.replicate 64 0)) = false := by decide
theorem test_wf_onxferdone_status : Instr.wf Config.cfg (.onxferdone 1 .IN 1 0) = false := by decide
theorem test_wf_onxferdone_control : Instr.wf Config.cfg (.onxferdone 0 .IN 0 0) = false := by decide
theorem test_wf_onxferdone_absent : Instr.wf Config.cfg (.onxferdone 0 .OUT 2 0) = false := by decide
theorem test_wf_logev : Instr.wf Config.cfg (.logev 3) = false := by decide
theorem test_cfg_wf : Config.cfg.wf = true := by decide

/-! ### Decoding: words written out from R101 to R104 -/

theorem test_dec_init : decode [0x01000000#32] = .op .init [] := by decide
theorem test_dec_shutdown : decode [0x02000000#32] = .op .shutdown [] := by decide
theorem test_dec_send : decode [0x03000000#32, 0x1000#32, 0x12#32] = .op (.send 0 0x1000 18) [] := by decide
theorem test_dec_recv : decode [0x04000001#32, 0x4000#32, 0x7D0#32] = .op (.recv 1 0x4000 2000) [] := by decide
theorem test_dec_cancelall : decode [0x05000000#32] = .op .cancelall [] := by decide
theorem test_dec_stall : decode [0x06000301#32] = .op (.stall 1 .IN true) [] := by decide
theorem test_dec_stall_out : decode [0x06000200#32] = .op (.stall 0 .OUT true) [] := by decide
theorem test_dec_isstalled : decode [0x07000102#32] = .op (.isstalled 2 .IN) [] := by decide
theorem test_dec_portspeed : decode [0x08000000#32] = .op .portspeed [] := by decide
theorem test_dec_connected : decode [0x09000000#32] = .op .connected [] := by decide
theorem test_dec_irq : decode [0x10000000#32] = .op .irq [] := by decide
theorem test_dec_ctrlh : decode [0x11000000#32] = .op .ctrlh [] := by decide
theorem test_dec_inh : decode [0x12000001#32] = .op (.inh 1) [] := by decide
theorem test_dec_outh : decode [0x13000001#32] = .op (.outh 1) [] := by decide
theorem test_dec_reseth : decode [0x14000000#32] = .op .reseth [] := by decide
theorem test_dec_select : decode [0x20000001#32] = .op (.select 1) [] := by decide
theorem test_dec_drain : decode [0x21000001#32, 3#32] = .op (.drain 1 3) [] := by decide
theorem test_dec_fill : decode [0x22000000#32, 4#32] = .op (.fill 0 4) [] := by decide
theorem test_dec_flush : decode [0x23000101#32] = .op (.flush 1 .IN) [] := by decide
theorem test_dec_ep0send : decode [0x24000000#32] = .op .ep0send [] := by decide
theorem test_dec_onctrlreq :
    decode ([0x30000008#32, 0x01000680#32, 0x00120000#32] ++ List.replicate 14 0#32)
      = .op (.onctrlreq 8 (writeCtrl (Vector.replicate 64 0) 0 setup8)) [] := by decide
theorem test_dec_onxferdone : decode [0x31000101#32, 0x3E8#32] = .op (.onxferdone 0 .IN 1 1000) [] := by decide
theorem test_dec_onbusreset : decode [0x32000000#32] = .op .onbusreset [] := by decide
theorem test_dec_logev : decode [0x33000002#32] = .op (.logev 2) [] := by decide

/-- VE8, VE10, VE11, VE12: rejected by name. -/
theorem test_dec_unknown : decode [0x00000000#32, 5#32] = .rejected .unknownOpcode [5#32] := by decide
theorem test_dec_reserved : decode [0x01000001#32] = .rejected .reservedBits [] := by decide
theorem test_dec_reserved_bit10 : decode [0x06000401#32] = .rejected .reservedBits [] := by decide
theorem test_dec_reserved_status :
    decode [0x03010001#32, 1#32, 2#32, 3#32] = .rejected .reservedBits [3#32] := by decide
theorem test_dec_incomplete : decode [0x03000001#32, 0x2000#32] = .incomplete := by decide

/-- VE18: the words of a notification. -/
theorem test_enc_onxferdone :
    (Notification.onTransferComplete 1 .OUT 0 1324).words = [0x31000001#32, 0x52C#32] := by decide
/-- R210's example: the head word and the first data words. -/
theorem test_enc_onctrlreq :
    ((Notification.onControlRequest (writeCtrl (Vector.replicate 64 0) 0 setup8) 8).words).take 3
      = [0x30000008#32, 0x01000680#32, 0x00120000#32] := by decide
theorem test_table_word : decodeTableWord 32 0x06000301 = some (.stall 1 .IN true) := by decide

/-! ### The FIFO Transfer Engine -/

/-- VF1. -/
theorem test_select : gives (exec (.select 0) { sHs with index := 2 }) (fun t => t.index == 0) = true := by decide

/-- VF3. -/
theorem test_drain :
    gives (exec (.drain 1 3) (queue 1 .OUT 0x3001 100 2 { sHs with rx := sHs.rx.put 1 [0xDE, 0xAD, 0xBE] }))
      (fun t => t.readBytes 0x3002 5 == some [0, 0xDE, 0xAD, 0xBE, 0] && t.rx.get 1 == []
        && entryOf t 1 .OUT == some (.mem 0x3001, 100, 2)) = true := by decide

/-- VF9: the oldest bytes leave first. -/
theorem test_drain_oldest :
    gives (exec (.drain 1 2) (queue 1 .OUT 0x3000 8 0 { sHs with rx := sHs.rx.put 1 [1, 2, 3, 4, 5] }))
      (fun t => t.readBytes 0x3000 3 == some [1, 2, 0] && t.rx.get 1 == [3, 4, 5]) = true := by decide

/-- VF10. -/
theorem test_fill :
    gives (exec (.fill 0 4) (queue 0 .IN 0x1000 4 0 (withMem 0x1000 [0x11, 0x22, 0x33, 0x44] sHs)))
      (fun t => t.tx.get 0 == [0x11, 0x22, 0x33, 0x44] && !t.csr0.inPktRdy && t.txLog == []) = true := by decide

/-- VF14. -/
theorem test_fill_overrun :
    gives (exec (.fill 1 4) (queue 1 .IN 0x2000 100 0 { sInit with tx := sInit.tx.put 1 (List.replicate 62 0) }))
      (fun t => t.fault == some .FifoOverrun && (t.tx.get 1).length == 62) = true := by decide

/-- VF17. -/
theorem test_flush :
    gives (exec (.flush 1 .IN) (setInPktRdy 1 true { sHs with tx := sHs.tx.put 1 [1, 2, 3], index := 0 }))
      (fun t => t.tx.get 1 == [] && !(t.inCsr.get 1).inPktRdy && t.index == 1) = true := by decide

/-- VF19: no flush bit for EP0. -/
theorem test_flush_ep0 :
    after (exec (.flush 0 .IN) { sHs with tx := sHs.tx.put 0 [1] }) = some { sHs with tx := sHs.tx.put 0 [1] } := by decide

/-- VF16: the word access carries 0xA5A4A3A2. -/
theorem test_read_word : (withMem 0x2004 [0xA2, 0xA3, 0xA4, 0xA5] sHs).readWord 0x2004 = some 0xA5A4A3A2#32 := by decide

/-! ### The control endpoint -/

/-- VC1. -/
theorem test_ctrlh_stall :
    gives (exec .ctrlh (queue 0 .IN 0x1000 130 64
        { sHs with csr0 := { Csr0.zero with sentStall := true }, ep0state := .Transmitting }))
      (fun t => t.csr0 == Csr0.zero && t.ep0state == .Idle && entryOf t 0 .IN == some (.none, 0, 0) && t.index == 0) = true := by
  decide

/-- VC5: the SETUP packet behind a premature end stays unread. -/
theorem test_ctrlh_setup_end :
    gives (exec .ctrlh { sHs with
        csr0 := { Csr0.zero with setupEnd := true, dataAvail := true }, rx := sHs.rx.put 0 setup8 })
      (fun t => t.csr0 == { Csr0.zero with dataAvail := true } && t.rx.get 0 == setup8 && t.upLog == sHs.upLog) = true := by
  decide

/-- VF7, R140's example. -/
theorem test_ctrlh_setup :
    gives (exec .ctrlh (BusMove.apply (.setup setup8) sHs))
      (fun t => t.upLog == [.onBusReset, .onControlRequest (writeCtrl (Vector.replicate 64 0) 0 setup8) 8]
        && t.rx.get 0 == [] && t.csr0 == Csr0.zero) = true := by decide

/-- VC10: Receiving does nothing. -/
theorem test_ctrlh_receiving :
    gives (exec .ctrlh { sHs with ep0state := .Receiving, csr0 := { Csr0.zero with dataAvail := true } })
      (fun t => t == { sHs with ep0state := .Receiving, csr0 := { Csr0.zero with dataAvail := true }, index := 0 }) = true := by
  decide

/-- VC16: the previous packet has not been taken. -/
theorem test_ep0send_busy :
    gives (exec .ctrlh (queue 0 .IN 0x1000 65 64
        { sHs with ep0state := .Transmitting, csr0 := { Csr0.zero with inPktRdy := true } }))
      (fun t => t.fault == some .FifoBusy) = true := by decide

/-! ### The data-endpoint handlers -/

/-- VD3: a sent stall is acknowledged, the request stays. -/
theorem test_inh_stall :
    gives (exec (.inh 1) (queue 1 .IN 0x2000 1000 512 { sHs with inCsr := sHs.inCsr.put 1 ⟨false, true, true⟩ }))
      (fun t => t.inCsr.get 1 == ⟨false, true, false⟩ && entryOf t 1 .IN == some (.mem 0x2000, 1000, 512)
        && t.index == 1) = true := by decide

/-- VD9: a zero-length packet hides from the FIFO test. -/
theorem test_inh_busy :
    gives (exec (.inh 1) (setInPktRdy 1 true (queue 1 .IN 0x2000 100 0 sHs)))
      (fun t => t.fault == some .FifoBusy) = true := by decide

/-- VD10. -/
theorem test_inh_completes :
    gives (exec (.inh 2) (queue 2 .IN 0x2800 8 0 (withMem 0x2800 [1, 2, 3, 4, 5, 6, 7, 8] sHs)))
      (fun t => t.tx.get 2 == [1, 2, 3, 4, 5, 6, 7, 8] && (t.inCsr.get 2).inPktRdy
        && t.upLog == [.onBusReset, .onTransferComplete 2 .IN 0 8] && entryOf t 2 .IN == some (.none, 0, 0)) = true := by
  decide

/-- VD14. -/
theorem test_outh_overrun :
    gives (exec (.outh 1) (setOutPktRdy 1 true (queue 1 .OUT 0x4000 100 0
        { sHs with rx := sHs.rx.put 1 (List.replicate 200 7) })))
      (fun t => t.fault == some .BufferOverrun && t.mem == []) = true := by decide

/-- VD22: the second packet of 36 bytes brings 64 to 100. -/
theorem test_outh_completes :
    gives (exec (.outh 1) (setOutPktRdy 1 true (queue 1 .OUT 0x4000 100 64
        { sInit with rx := sInit.rx.put 1 (List.replicate 36 9) })))
      (fun t => t.readBytes 0x4040 36 == some (List.replicate 36 9) && t.readByte 0x4064 == some 0
        && t.upLog == [.onTransferComplete 1 .OUT 0 100] && entryOf t 1 .OUT == some (.none, 0, 0)) = true := by decide

/-- VD21: a full packet that does not reach the length completes nothing. -/
theorem test_outh_goes_on :
    gives (exec (.outh 1) (setOutPktRdy 1 true (queue 1 .OUT 0x4000 100 0
        { sInit with rx := sInit.rx.put 1 (List.replicate 64 9) })))
      (fun t => t.upLog == [] && entryOf t 1 .OUT == some (.mem 0x4000, 100, 64)) = true := by decide

/-! ### The dispatcher -/

/-- VI1. -/
theorem test_irq_spurious : after (exec .irq sHs) = some sHs := by decide

/-- VI8. -/
theorem test_reseth :
    gives (exec .reseth (queue 1 .OUT 0x4000 2000 1024 { sHs with hsMode := false, faddr := 5, ep0state := .Transmitting }))
      (fun t => entryOf t 1 .OUT == some (.none, 0, 0) && (t.entry 1 .IN).map Entry.cap == some 64 && t.faddr == 0
        && t.index == 2 && t.upLog == [.onBusReset, .onBusReset] && t.ep0state == .Idle) = true := by decide

/-- VI10: the handlers run before the reset. -/
theorem test_irq_order :
    gives (exec .irq (BusMove.apply (.out 1 [1, 2, 3]) (BusMove.apply (.busReset true) (queue 1 .OUT 0x4000 2000 0 sHs))))
      (fun t => t.upLog == [.onBusReset, .onTransferComplete 1 .OUT 0 3, .onBusReset]
        && t.readBytes 0x4000 3 == some [1, 2, 3]) = true := by decide

/-- VI11: the reset move emptied the FIFO; nothing the faulting step did is kept. -/
theorem test_irq_no_packet :
    gives (exec .irq (BusMove.apply (.busReset true) (BusMove.apply (.out 1 [1, 2, 3]) (queue 1 .OUT 0x4000 2000 0 sHs))))
      (fun t => t.fault == some .NoPacket && t.intrOut.get 1 && t.intrUsb.reset) = true := by decide

/-! ### The Driver API -/

/-- VA1, R170's example. -/
theorem test_init :
    gives (exec .init State.reset)
      (fun t => t.phase == .On && t.domainPower && t.busConnect && packBank t.intrInE == 7 && packBank t.intrOutE == 2
        && t.intrUsbE == ⟨false, false, true⟩ && t.index == 2 && t.upLog == []) = true := by decide

/-- VA2. -/
theorem test_init_twice : after (exec .init sInit) = some { sInit with refused := some .AlreadyInitialised } := by decide

/-- VA37. -/
theorem test_shutdown :
    gives (exec .shutdown (queue 1 .OUT 0x4000 2000 512 sHs))
      (fun t => t.phase == .Off && bankIsZero t.intrInE && !t.busConnect && entryOf t 1 .OUT == some (.mem 0x4000, 2000, 512)) = true := by
  decide

/-- VA4. -/
theorem test_send_handshake :
    gives (exec (.send 0 0x1000 0) sHs)
      (fun t => t.csr0 == { Csr0.zero with inPktRdy := true, dataEnd := true } && t.txLog == [⟨0, [], true⟩]
        && t.ep0state == .Idle && entryOf t 0 .IN == some (.none, 0, 0) && t.index == 0) = true := by decide

/-- VA9. -/
theorem test_send_wrap :
    after (exec (.send 1 0xFFFFFFF0 32) sHs) = some { sHs with refused := some .BadRegion } := by decide

/-- VA16, VA17. -/
theorem test_send_absent : after (exec (.send 3 0x2000 1) sHs) = some { sHs with refused := some .NoSuchEndpoint } := by decide
theorem test_recv_absent : after (exec (.recv 2 0x4000 8) sHs) = some { sHs with refused := some .NoSuchEndpoint } := by decide

/-- VA19. -/
theorem test_recv :
    gives (exec (.recv 1 0x4000 2000) sHs) (fun t => t == queue 1 .OUT 0x4000 2000 0 sHs) = true := by decide

/-- VA25. -/
theorem test_cancelall :
    gives (exec .cancelall (setInPktRdy 1 true (queue 1 .IN 0x2000 1000 512
        { sHs with tx := (sHs.tx.put 1 [5]).put 0 [6], ep0state := .Transmitting })))
      (fun t => entryOf t 1 .IN == some (.none, 0, 0) && t.tx.get 1 == [] && t.tx.get 0 == [6]
        && !(t.inCsr.get 1).inPktRdy && t.ep0state == .Idle && t.upLog == sHs.upLog) = true := by decide

/-- VA28. -/
theorem test_stall_ep0 :
    gives (exec (.stall 0 .OUT true) sHs) (fun t => t.csr0 == { Csr0.zero with sendStall := true } && t.index == 0) = true := by
  decide

/-- VA31, VA32. -/
theorem test_isstalled :
    gives (exec (.isstalled 1 .IN) (putSendStall 1 .IN true sHs)) (fun t => t.result == some 1) = true := by decide
theorem test_isstalled_out :
    gives (exec (.isstalled 1 .OUT) (putSendStall 1 .IN true sHs)) (fun t => t.result == some 0) = true := by decide

/-- VA34, VA36. -/
theorem test_portspeed : gives (exec .portspeed sInit) (fun t => t.result == some 0) = true := by decide
theorem test_connected :
    gives (exec .connected { sHs with vbusSense := true }) (fun t => t.result == some 1) = true := by decide

/-! ### Notifications -/

theorem test_onctrlreq :
    gives (exec (.onctrlreq 8 (Vector.replicate 64 1)) State.reset)
      (fun t => t.upLog == [.onControlRequest (Vector.replicate 64 1) 8]) = true := by decide
theorem test_onxferdone :
    gives (exec (.onxferdone 0 .OUT 1 1324) State.reset) (fun t => t.upLog == [.onTransferComplete 1 .OUT 0 1324]) = true := by
  decide
theorem test_onbusreset : gives (exec .onbusreset State.reset) (fun t => t.upLog == [.onBusReset]) = true := by decide
theorem test_logev : gives (exec (.logev 2) State.reset) (fun t => t.upLog == [.log .resume]) = true := by decide

/-! ### The command port, the bus agent, the step -/

/-- VE13, VE17: an internal operation at the port. -/
theorem test_port_not_a_command :
    gives (step { State.reset with program := [.port [0x12000011#32]] })
      (fun t => t.refused == some .NotACommand && t.program == []) = true := by decide

/-- VE8, R107: one word is consumed, and the decoder resumes at the next word. -/
theorem test_port_unknown :
    gives (step { sHs with program := [.port [0x00000000#32, 0x08000000#32]] })
      (fun t => t.refused == some .UnknownOpcode && t.program == [.port [0x08000000#32]]) = true := by decide

/-- The same operation run from the reset state through the host's placement. -/
theorem test_place_fill :
    after (step (State.reset.withFetchWord 32 0x22000000)) = some State.reset := by decide
theorem test_place_init :
    gives (step (State.reset.withFetchWord 32 0x01000000)) (fun t => t == sInit) = true := by decide

/-- R160: placing IRQ enables it; invoked by its words in `phase = Off`, and while masked, it is no step (R45, D27). -/
theorem test_place_irq : gives (step (State.reset.withFetchWord 32 0x10000000)) (fun t => t.phase == .On) = true := by decide
theorem test_invoke_irq_off :
    (match step { State.reset with program := [.invoke [0x10000000#32]] } with
      | .refused r => r == .irqNotEnabled
      | .next _ => false
      | .fault _ => false) = true := by decide

/-! ### Another configuration (R6) -/

/-- One bulk pair on endpoint 3 of four, full-speed capacity 32. -/
def otherCfg : Cfg :=
  { Config.cfg with
    nep := 4
    entries := [⟨0, .OUT, .control, false⟩, ⟨0, .IN, .control, false⟩, ⟨3, .OUT, .bulk, false⟩, ⟨3, .IN, .bulk, false⟩]
    capBulkFs := 32 }

theorem test_other_cfg_wf : otherCfg.wf = true := by decide

/-- R170 in that configuration: the command port runs INIT and then SEND of 33 bytes on endpoint 3, the first 32 of which
are pushed (R172). -/
theorem test_other_cfg_run :
    (match (machine otherCfg).run 2
        { State.powerOn otherCfg with program := [.port [0x01000000#32, 0x03000003#32, 0x1000#32, 33#32]] } with
      | .next t => entryOf t 3 .IN == some (.mem 0x1000, 33, 32) && (t.tx.get 3).length == 32 && packBank t.intrInE == 9
          && packBank t.intrOutE == 8
      | .fault _ => false
      | .refused _ => false) = true := by decide

/-! ### The register words of R40 -/

theorem test_csr0_word : csr0Word Config.regBits ⟨true, false, true, true, false, true⟩ = 0x2D := by decide
theorem test_reg_power : sHs.regView Config.regMap 0x01 = some 0x50 := by decide
theorem test_reg_outcsr :
    { setOutPktRdy 1 true sHs with index := 1 }.regView Config.regMap 0x16 = some 0x01 := by decide

/-- VB7: the request is set, so the packet is not taken. -/
theorem test_bus_in_taken : (BusMove.inTaken 1).pre Config.cfg { sHs with inCsr := sHs.inCsr.put 1 ⟨true, true, false⟩ } = false := by
  decide

/-- VB8. -/
theorem test_bus_stall_sent :
    let t := BusMove.apply (.stallSent 0 .IN)
      { sHs with csr0 := { Csr0.zero with sendStall := true, inPktRdy := true }, tx := sHs.tx.put 0 [1] }
    (t.csr0 == { Csr0.zero with sentStall := true } && t.tx.get 0 == [] && t.intrIn.get 0) = true := by decide

/-- VI6: suspend alone does not raise the line. -/
theorem test_irq_line_suspend : (BusMove.apply .suspend sHs).irqLine = false := by decide

/-- R110's example of the written syntax. -/
theorem test_written : writeInstr (.send 1 0x2000 1000) = "SEND 1, 0x00002000, 1000" := by decide

/-! ### Witnesses: for every statement with hypotheses, and every clause of one, a concrete state and operands that meet
them together, at a boundary of the range where there is one. Each theorem is named after its statement. -/

/-- `sInit` holds every address below `2 ^ 32`. -/
theorem sInit_memMap : sInit.memMap = [⟨0, 4294967296⟩] := by decide
theorem holds_of_map {s : State} (h : s.memMap = [⟨0, 4294967296⟩]) {x : Nat} (hx : x < 4294967296) : s.holds x = true := by
  simp [State.holds, h, hx]

/-- An IN transfer of `len` bytes from 0x1000 queued on endpoint 1 (capacity 64), `prog` of them sent. -/
def sIn (len prog : Nat) : State := queue 1 .IN 0x1000 len prog sInit
/-- An OUT transfer of `len` bytes to 0x2000 queued on endpoint 1 (capacity 64), `prog` of them received. -/
def sOut (len prog : Nat) : State := queue 1 .OUT 0x2000 len prog sInit
/-- `n` bytes of a packet. -/
def pkt (n : Nat) : List Byte := List.replicate n 7
/-- A state whose program is one step, then the rest. -/
def sProg (p : List TopStep) : State := { sInit with program := p }

/-- The entry of a state, or an empty one. -/
def theEntry (s : State) (n : EpNum) (d : Dir) : Entry := (s.entry n d).getD ⟨.control, false, 0, .none, 0, 0⟩

theorem witness_HeadWordNamesOneRow :
    (⟨0x01#8, "INIT", .Z, .command, fun _ _ => .init⟩ : OpRow) ∈ opcodeTable
      ∧ 0x01000000#32 &&& (⟨0x01#8, "INIT", .Z, .command, fun _ _ => .init⟩ : OpRow).format.mask
        = (⟨0x01#8, "INIT", .Z, .command, fun _ _ => .init⟩ : OpRow).matchWord :=
  ⟨List.mem_cons_self, by decide⟩

theorem witness_LengthIsAFunctionOfOpcode :
    opField 0x03000000#32 = opField 0x03FFFFFF#32 ∧ (rowOf (opField 0x34000000#32)).isNone = true
      ∧ decode [0x04000001#32, 0x4000#32, 0#32, 9#32] = .op (.recv 1 0x4000 0) [9#32] := by decide

theorem witness_StepRunsTheCommandAtThePort :
    (sProg [.port [0x03000001#32, 0x2000#32, 1#32, 0x08000000#32], .irq]).fault = none
      ∧ (sProg [.port [0x03000001#32, 0x2000#32, 1#32, 0x08000000#32], .irq]).program
        = .port [0x03000001#32, 0x2000#32, 1#32, 0x08000000#32] :: [.irq]
      ∧ decode [0x03000001#32, 0x2000#32, 1#32, 0x08000000#32] = .op (.send 1 0x2000 1) [0x08000000#32]
      ∧ (Instr.send 1 0x2000 1).cls = .command := by decide

theorem witness_StepRunsTheInvokedOperation :
    (sProg [.invoke [0x12000001#32]]).fault = none ∧ (sProg [.invoke [0x12000001#32]]).program = .invoke [0x12000001#32] :: []
      ∧ decode [0x12000001#32] = .op (.inh 1) []
      ∧ ((sProg [.invoke [0x10000000#32]]).fault = none
          ∧ (sProg [.invoke [0x10000000#32]]).program = .invoke [0x10000000#32] :: []
          ∧ decode [0x10000000#32] = .op .irq [] ∧ (sProg [.invoke [0x10000000#32]]).phase = .On)
      ∧ (({ State.reset with program := [.invoke [0x10000000#32]] } : State).fault = none
          ∧ ({ State.reset with program := [.invoke [0x10000000#32]] } : State).program = .invoke [0x10000000#32] :: []
          ∧ ({ State.reset with program := [.invoke [0x10000000#32]] } : State).phase ≠ .On) := by decide

theorem witness_StepServesTheLineOrHalts :
    ((sProg [.irq]).fault = none ∧ (sProg [.irq]).program = .irq :: [] ∧ (sProg [.irq]).phase = .On
        ∧ (sProg [.irq]).irqMasked = false)
      ∧ (sInit.fault = none ∧ sInit.program = [] ∧ sInit.irqLine = false)
      ∧ ((BusMove.apply (.busReset true) sInit).program = [] ∧ (BusMove.apply (.busReset true) sInit).irqLine = true)
      ∧ ({ sInit with fault := some .NoPacket } : State).fault = some .NoPacket := by decide

/-- One witness a clause: opcode 0x34; INH at the port; INIT with bit 0 set. -/
theorem witness_PortRefusesInOrder :
    (sProg [.port [0x34000000#32]]).fault = none
      ∧ (sProg [.port [0x34000000#32]]).program = .port (0x34000000#32 :: []) :: []
      ∧ (rowOf (opField 0x34000000#32)).isNone = true
      ∧ (rowOf (opField 0x12000011#32)).map (fun r => (decide (r.format.operandWords ≤ 0), decide (r.cls ≠ .command)))
        = some (true, true)
      ∧ (rowOf (opField 0x01000001#32)).map (fun r => (decide (r.format.operandWords ≤ 0), decide (r.cls = .command),
          decide (0x01000001#32 &&& r.format.mask ≠ r.matchWord))) = some (true, true, true) := by decide

theorem witness_MarksAreSticky :
    (gives (step { sInit with refused := some .Busy }) (fun _ => true) = true)
      ∧ (gives (exec (.select 1) { sInit with fault := some .NoPacket }) (fun _ => true) = true)
      ∧ ({ sInit with fault := some .NoPacket } : State).fault = some .NoPacket := by decide

theorem witness_InitFromOff : TableShape Config.cfg State.reset ∧ State.reset.phase = .Off := by decide
theorem witness_ShutdownResult : sInit.phase = .On := by decide
theorem witness_CommandsRefusedByPhase :
    (Instr.recv 3 0 1).cls = .command ∧ Instr.recv 3 0 1 ≠ .init ∧ State.reset.phase = .Off ∧ sInit.phase = .On := by decide

theorem witness_AbsentEndpointRefused :
    sInit.phase = .On ∧ sInit.entry 3 .IN = none ∧ sInit.entry 2 .OUT = none ∧ sInit.entry 15 .OUT = none := by decide

/-- One witness a clause: the null buffer with a length; the region that passes the top of the address space; a transfer
in flight; EP0 not Idle; the null buffer on a busy data endpoint. -/
theorem witness_SendRefusals :
    sInit.phase = .On ∧ sInit.entry 1 .IN = some (theEntry sInit 1 .IN)
      ∧ (1 : Word) ≠ 0
      ∧ admits Config.cfg sInit 0xFFFFFFFF 2 = false
      ∧ (admits Config.cfg (sIn 1 0) 0xFFFFFFFF 1 = true ∧ (theEntry (sIn 1 0) 1 .IN).buf ≠ .none)
      ∧ (({ sInit with ep0state := .Transmitting } : State).ep0state ≠ .Idle
          ∧ admits Config.cfg { sInit with ep0state := .Transmitting } 1 0 = true)
      ∧ (sIn 1 0).entry 1 .IN = some (theEntry (sIn 1 0) 1 .IN) := by decide

theorem witness_RecvRefusals :
    sInit.phase = .On ∧ sInit.entry 0 .OUT = some (theEntry sInit 0 .OUT) ∧ sInit.entry 1 .OUT = some (theEntry sInit 1 .OUT)
      ∧ admits Config.cfg sInit 0xFFFFFFFF 2 = false
      ∧ (admits Config.cfg (sOut 1 0) 0xFFFFFFFF 1 = true ∧ (theEntry (sOut 1 0) 1 .OUT).buf ≠ .none)
      ∧ (sOut 1 0).entry 1 .OUT = some (theEntry (sOut 1 0) 1 .OUT) := by decide

/-- Both answers: the last byte of the address space, and one byte past it; and a region that spans two regions of memory. -/
theorem witness_AdmitMeansHeld :
    sInit.memMap.Pairwise (fun q r => q.base + q.size ≤ r.base)
      ∧ admits Config.cfg sInit 0xFFFFFFFF 1 = true ∧ admits Config.cfg sInit 0xFFFFFFFF 2 = false
      ∧ [(⟨0, 8⟩ : MemRegion), ⟨8, 8⟩].Pairwise (fun q r => q.base + q.size ≤ r.base)
      ∧ admits Config.cfg { sInit with memMap := [⟨0, 8⟩, ⟨8, 8⟩] } 7 9 = true
      ∧ admits Config.cfg { sInit with memMap := [⟨0, 8⟩, ⟨8, 8⟩] } 7 10 = false := by decide

theorem witness_NullAcknowledgementsDoNothing :
    sInit.phase = .On ∧ sInit.present 0 .IN = true ∧ sInit.present 0 .OUT = true := by decide

theorem witness_SendHandshake :
    sInit.phase = .On ∧ sInit.entry 0 .IN = some (theEntry sInit 0 .IN) ∧ (theEntry sInit 0 .IN).buf = .none
      ∧ sInit.ep0state = .Idle ∧ (1 : Word) ≠ 0 ∧ admits Config.cfg sInit 1 0 = true := by decide

/-- Both outcomes: a response of exactly the capacity, 64, and of 65. -/
theorem witness_SendControlResponse :
    sInit.phase = .On ∧ sInit.entry 0 .IN = some (theEntry sInit 0 .IN) ∧ (theEntry sInit 0 .IN).buf = .none
      ∧ sInit.ep0state = .Idle ∧ (0x1000 : Word) ≠ 0 ∧ (64 : Word) ≠ 0
      ∧ admits Config.cfg sInit 0x1000 64 = true ∧ admits Config.cfg sInit 0x1000 65 = true
      ∧ sInit.csr0.inPktRdy = false ∧ sInit.tx.get 0 = []
      ∧ sInit.readBytes 0x1000 (min 64 (theEntry sInit 0 .IN).cap) = some (List.replicate 64 0)
      ∧ sInit.readBytes 0x1000 (min 65 (theEntry sInit 0 .IN).cap) = some (List.replicate 64 0) := by decide

/-- Three lengths: 0 with packet-ready set, 64, and 65. -/
theorem witness_SendDataFirstChunk :
    sInit.phase = .On ∧ sInit.entry 1 .IN = some (theEntry sInit 1 .IN) ∧ (theEntry sInit 1 .IN).buf = .none
      ∧ (theEntry sInit 1 .IN).usesDma = false ∧ admits Config.cfg sInit 0x1000 65 = true
      ∧ (sInit.inCsr.get 1).sentStall = false ∧ sInit.tx.get 1 = [] ∧ (sInit.inCsr.get 1).inPktRdy = false
      ∧ sInit.readBytes 0x1000 (min 0 (theEntry sInit 1 .IN).cap) = some []
      ∧ sInit.readBytes 0x1000 (min 64 (theEntry sInit 1 .IN).cap) = some (List.replicate 64 0)
      ∧ sInit.readBytes 0x1000 (min 65 (theEntry sInit 1 .IN).cap) = some (List.replicate 64 0) := by decide

/-- One witness a clause: the null buffer, a sent stall, and a packet in the FIFO. -/
theorem witness_SendDataWaits :
    sInit.phase = .On ∧ sInit.entry 1 .IN = some (theEntry sInit 1 .IN) ∧ (theEntry sInit 1 .IN).buf = .none
      ∧ (theEntry sInit 1 .IN).usesDma = false ∧ admits Config.cfg sInit 0x1000 1 = true
      ∧ (({ sInit with inCsr := sInit.inCsr.put 1 ⟨false, true, true⟩ } : State).inCsr.get 1).sentStall = true
      ∧ ({ sInit with tx := sInit.tx.put 1 [1] } : State).tx.get 1 ≠ [] := by decide

theorem witness_RecvRecordsTheTransfer :
    sInit.phase = .On ∧ sInit.entry 1 .OUT = some (theEntry sInit 1 .OUT) ∧ (theEntry sInit 1 .OUT).buf = .none
      ∧ admits Config.cfg sInit 0xFFFFFFFF 1 = true := by decide

theorem witness_CancelAllResult :
    TableShape Config.cfg (sIn 65 64) ∧ (sIn 65 64).phase = .On ∧ (theEntry (sIn 65 64) 1 .IN).buf = .mem 0x1000 := by decide
theorem witness_StallWritesTheRequest :
    sInit.phase = .On ∧ sInit.present 0 .OUT = true ∧ sInit.present 2 .IN = true ∧ sInit.present 1 .OUT = true := by decide
theorem witness_QueriesReturnTheirWord :
    sInit.phase = .On ∧ sInit.present 2 .IN = true ∧ Instr.cancelall.cls = .command
      ∧ gives (exec .cancelall sInit) (fun _ => true) = true := by decide

/-- A snapshot of IN 0, IN 1 and OUT 1, each handler with its work. -/
def sSnap : State :=
  raiseIn 1 (BusMove.apply (.out 1 (pkt 3)) (BusMove.apply (.setup (pkt 8)) (queue 1 .OUT 0x2000 65 0 (sIn 65 0))))
theorem witness_IrqCallsHandlersInOrder :
    TableShape Config.cfg sSnap ∧ sSnap.noPending = false ∧ sSnap.intrIn.get 0 = true ∧ sSnap.intrIn.get 1 = true
      ∧ sSnap.intrIn.get 2 = false ∧ sSnap.intrOut.get 1 = true
      ∧ (match ctrlh Config.cfg (clearPending sSnap) with
          | .error _ => false
          | .ok s1 => match inh 1 s1 with
            | .error _ => false
            | .ok s2 => match outh Config.cfg 1 s2 with
              | .error _ => false
              | .ok s4 => s4.upLog.length == 2) = true := by decide

theorem witness_IrqWithoutHandlers :
    (∀ n, (BusMove.apply .suspend sInit).intrIn.get n = false) ∧ (∀ n, (BusMove.apply .suspend sInit).intrOut.get n = false)
      ∧ (BusMove.apply .suspend sInit).intrUsb.reset = false
      ∧ sInit.intrUsb = ⟨false, false, false⟩ ∧ sInit.dmaIntr = 0 := by decide
theorem witness_IrqLeavesNothingPending :
    gives (exec .irq sSnap) (fun t => t.fault == none && t.noPending) = true ∧ sSnap.noPending = false := by decide
theorem witness_IrqWithResetLeavesTheTableEmpty :
    (BusMove.apply (.busReset true) (sIn 65 0)).intrUsb.reset = true
      ∧ gives (exec .irq (BusMove.apply (.busReset true) (sIn 65 0))) (fun t => t.fault == none) = true := by decide
theorem witness_BusResetHandler : TableShape Config.cfg { sIn 65 64 with hsMode := true } := by decide

theorem witness_CtrlhReturnsToIdle :
    sInit.entry 0 .IN = some (theEntry sInit 0 .IN)
      ∧ ({ sInit with csr0 := ⟨true, false, false, true, true, true⟩ } : State).csr0.sentStall = true
      ∧ ({ sInit with csr0 := ⟨true, false, false, false, true, true⟩ } : State).csr0.setupEnd = true := by decide

/-- The longest packet, 64 bytes. -/
theorem witness_CtrlhReceivesSetup :
    let s := BusMove.apply (.setup (pkt 64)) sInit
    s.csr0.sentStall = false ∧ s.csr0.setupEnd = false ∧ s.ep0state = .Idle ∧ s.csr0.dataAvail = true
      ∧ s.entry 0 .OUT = some (theEntry s 0 .OUT) ∧ (theEntry s 0 .OUT).buf = .ctrl ∧ (theEntry s 0 .OUT).prog = 0
      ∧ (s.rx.get 0).length = 64 := by decide

theorem witness_CtrlhOtherwise :
    sInit.csr0.sentStall = false ∧ sInit.csr0.setupEnd = false ∧ sInit.ep0state = .Idle ∧ sInit.csr0.dataAvail = false
      ∧ ({ sInit with ep0state := .Receiving } : State).ep0state = .Receiving
      ∧ ({ sInit with ep0state := .Transmitting } : State).ep0state = .Transmitting := by decide

/-- The handshake, the first packet of 65 bytes, and its last byte. -/
theorem witness_Ep0sendSendsTheNextPacket :
    (theEntry sInit 0 .IN).len = 0 ∧ sInit.entry 0 .IN = some (theEntry sInit 0 .IN)
      ∧ (queue 0 .IN 0x1000 65 64 sInit).entry 0 .IN = some ⟨.control, false, 64, .mem 0x1000, 65, 64⟩
      ∧ (queue 0 .IN 0x1000 65 0 sInit).entry 0 .IN = some ⟨.control, false, 64, .mem 0x1000, 65, 0⟩
      ∧ sInit.csr0.inPktRdy = false ∧ sInit.tx.get 0 = []
      ∧ (queue 0 .IN 0x1000 65 64 sInit).readBytes 0x1040 1 = some [0]
      ∧ (queue 0 .IN 0x1000 65 0 sInit).readBytes 0x1000 64 = some (List.replicate 64 0) := by decide

theorem witness_HandlersGuardFirst :
    (1 : EpNum) ≠ 0 ∧ (theEntry sInit 1 .IN).buf = .none ∧ sInit.entry 2 .OUT = none
      ∧ ((sIn 1 0).putEntry 1 .IN { theEntry (sIn 1 0) 1 .IN with usesDma := true }).entry 1 .IN
        = some { theEntry (sIn 1 0) 1 .IN with usesDma := true } := by decide

theorem witness_HandlersAcknowledgeOrDefer :
    (sIn 65 0).entry 1 .IN = some (theEntry (sIn 65 0) 1 .IN) ∧ (theEntry (sIn 65 0) 1 .IN).buf ≠ .none
      ∧ (theEntry (sIn 65 0) 1 .IN).usesDma = false
      ∧ (({ sIn 65 0 with inCsr := sInit.inCsr.put 1 ⟨false, true, true⟩ } : State).inCsr.get 1).sentStall = true
      ∧ (({ sIn 65 0 with tx := sInit.tx.put 1 [1] } : State).inCsr.get 1).sentStall = false
      ∧ ({ sIn 65 0 with tx := sInit.tx.put 1 [1] } : State).tx.get 1 ≠ []
      ∧ (sOut 65 0).entry 1 .OUT = some (theEntry (sOut 65 0) 1 .OUT) ∧ (theEntry (sOut 65 0) 1 .OUT).buf ≠ .none
      ∧ (({ sOut 65 0 with outCsr := sInit.outCsr.put 1 ⟨false, true, true⟩ } : State).outCsr.get 1).sentStall = true := by
  decide

/-- Both outcomes: 65 bytes, none and 64 of them sent; and the zero-length packet with packet-ready set. -/
theorem witness_InhSendsTheNextPacket :
    (sIn 65 0).entry 1 .IN = some ⟨.bulk, false, 64, .mem 0x1000, 65, 0⟩
      ∧ (sIn 65 64).entry 1 .IN = some ⟨.bulk, false, 64, .mem 0x1000, 65, 64⟩
      ∧ (setInPktRdy 1 true (sIn 0 0)).entry 1 .IN = some ⟨.bulk, false, 64, .mem 0x1000, 0, 0⟩
      ∧ ((sIn 65 0).inCsr.get 1).sentStall = false ∧ (sIn 65 0).tx.get 1 = [] ∧ ((sIn 65 0).inCsr.get 1).inPktRdy = false
      ∧ (sIn 65 0).readBytes 0x1000 64 = some (List.replicate 64 0) ∧ (sIn 65 64).readBytes 0x1040 1 = some [0] := by decide

/-- A full packet that goes on (64 of 100), one that reaches the length (36 after 64), and a short one (0 bytes). -/
theorem witness_OuthReceivesThePacket :
    let s := fun k p => BusMove.apply (.out 1 (pkt k)) (sOut 100 p)
    (s 64 0).entry 1 .OUT = some ⟨.bulk, false, 64, .mem 0x2000, 100, 0⟩
      ∧ (s 36 64).entry 1 .OUT = some ⟨.bulk, false, 64, .mem 0x2000, 100, 64⟩
      ∧ ((s 64 0).outCsr.get 1).sentStall = false ∧ ((s 64 0).outCsr.get 1).outPktRdy = true
      ∧ ((s 0 0).outCsr.get 1).outPktRdy = true ∧ ((s 36 64).rx.get 1).length ≤ 100 - 64
      ∧ ((s 64 0).rx.get 1).length ≤ 100 - 0 ∧ Memory.wf (s 64 0).mem = true := by decide
theorem witness_OuthReceivesThePacket_held (x : Nat) (h : x < 0x2000 + 0 + 64) :
    (BusMove.apply (.out 1 (pkt 64)) (sOut 100 0)).holds x = true :=
  holds_of_map (by decide) (by omega)

/-- One witness a clause. -/
theorem witness_HandlersFault :
    (setInPktRdy 1 true (sIn 1 0)).entry 1 .IN = some ⟨.bulk, false, 64, .mem 0x1000, 1, 0⟩
      ∧ (setInPktRdy 1 true (sIn 1 0)).fault = none ∧ ((setInPktRdy 1 true (sIn 1 0)).inCsr.get 1).inPktRdy = true
      ∧ ((setInPktRdy 1 true (sIn 1 0)).inCsr.get 1).sentStall = false ∧ (setInPktRdy 1 true (sIn 1 0)).tx.get 1 = []
      ∧ (sOut 1 0).entry 1 .OUT = some ⟨.bulk, false, 64, .mem 0x2000, 1, 0⟩
      ∧ ((sOut 1 0).outCsr.get 1).sentStall = false ∧ ((sOut 1 0).outCsr.get 1).outPktRdy = false
      ∧ (((BusMove.apply (.out 1 (pkt 2)) (sOut 1 0)).outCsr.get 1).outPktRdy = true
          ∧ 1 - 0 < ((BusMove.apply (.out 1 (pkt 2)) (sOut 1 0)).rx.get 1).length)
      ∧ ((queue 0 .IN 0x1000 65 64 sInit).entry 0 .IN = some ⟨.control, false, 64, .mem 0x1000, 65, 64⟩
          ∧ (signalEp0 false (queue 0 .IN 0x1000 65 64 sInit)).csr0.inPktRdy = true)
      ∧ (let s := BusMove.apply (.setup (pkt 65)) sInit;
          s.fault = none ∧ s.entry 0 .OUT = some ⟨.control, false, 64, .ctrl, 0, 0⟩ ∧ s.csr0.sentStall = false
          ∧ s.csr0.setupEnd = false ∧ s.ep0state = .Idle ∧ s.csr0.dataAvail = true ∧ 64 < 0 + (s.rx.get 0).length) := by decide

/-- SEND behind a zero-length packet, on a data endpoint and on endpoint 0. -/
theorem witness_HandlersFault_send :
    (let s := setInPktRdy 1 true sInit;
      s.fault = none ∧ s.phase = .On ∧ s.entry 1 .IN = some ⟨.bulk, false, 64, .none, 0, 0⟩
        ∧ admits Config.cfg s 0x1000 1 = true ∧ (s.inCsr.get 1).sentStall = false ∧ s.tx.get 1 = []
        ∧ (s.inCsr.get 1).inPktRdy = true)
      ∧ (let s := signalEp0 true sInit;
          s.fault = none ∧ s.phase = .On ∧ s.entry 0 .IN = some ⟨.control, false, 64, .none, 0, 0⟩
            ∧ admits Config.cfg s 0x1000 1 = true ∧ s.ep0state = .Idle ∧ s.csr0.inPktRdy = true) := by decide

/-- One IRQ a clause, the handler of that clause the first to fault. -/
theorem witness_HandlersFault_irq :
    (let s := BusMove.apply (.setup (pkt 65)) sInit;
      TableShape Config.cfg s ∧ s.fault = none ∧ s.intrIn.get 0 = true
        ∧ (match ctrlh Config.cfg (clearPending s) with
            | .error x => x == .fault .CtrlOverrun
            | .ok _ => false) = true)
      ∧ (let s := raiseIn 1 (setInPktRdy 1 true (sIn 1 0));
          TableShape Config.cfg s ∧ s.fault = none ∧ s.intrIn.get 0 = false ∧ s.intrIn.get 1 = true
            ∧ (match inh 1 (clearPending s) with
                | .error x => x == .fault .FifoBusy
                | .ok _ => false) = true)
      ∧ (let s := raiseIn 2 (setInPktRdy 2 true (queue 2 .IN 0x1000 1 0 sInit));
          TableShape Config.cfg s ∧ s.fault = none ∧ s.intrIn.get 1 = false ∧ s.intrIn.get 2 = true
            ∧ (match inh 2 (clearPending s) with
                | .error x => x == .fault .FifoBusy
                | .ok _ => false) = true)
      ∧ (let s := raiseOut 1 (sOut 1 0);
          TableShape Config.cfg s ∧ s.fault = none ∧ s.intrIn.get 0 = false ∧ s.intrIn.get 2 = false ∧ s.intrOut.get 1 = true
            ∧ (match outh Config.cfg 1 (clearPending s) with
                | .error x => x == .fault .NoPacket
                | .ok _ => false) = true) := by decide

theorem witness_DrainToMemory :
    let s : State := { sOut 100 2 with rx := sInit.rx.put 1 (pkt 5) }
    s.entry 1 .OUT = some ⟨.bulk, false, 64, .mem 0x2000, 100, 2⟩ ∧ (5 : Word).toNat ≤ (s.rx.get 1).length
      ∧ Memory.wf s.mem = true := by decide
theorem witness_DrainToMemory_held (x : Nat) (h : x < 0x2000 + 2 + 5) :
    ({ sOut 100 2 with rx := sInit.rx.put 1 (pkt 5) } : State).holds x = true :=
  holds_of_map (by decide) (by omega)

theorem witness_DrainToControlBuffer :
    let s : State := { sInit with rx := sInit.rx.put 0 (pkt 64) }
    s.entry 0 .OUT = some ⟨.control, false, 64, .ctrl, 0, 0⟩ ∧ (64 : Word).toNat ≤ (s.rx.get 0).length
      ∧ 0 + (64 : Word).toNat ≤ 64 := by decide

/-- One witness a clause; the last one is a packet of 65 bytes. -/
theorem witness_DrainFaults :
    (sInit.entry 1 .OUT = some (theEntry sInit 1 .OUT) ∧ sInit.fault = none ∧ (theEntry sInit 1 .OUT).buf = .none)
      ∧ ((theEntry (sOut 1 0) 1 .OUT).buf ≠ .none ∧ ((sOut 1 0).rx.get 1).length < (1 : Word).toNat)
      ∧ ((theEntry sInit 0 .OUT).buf = .ctrl
          ∧ (65 : Word).toNat ≤ (({ sInit with rx := sInit.rx.put 0 (pkt 65) } : State).rx.get 0).length
          ∧ 64 < 0 + (65 : Word).toNat) := by decide

theorem witness_FillAppendsTheBytes :
    (sIn 65 0).entry 1 .IN = some ⟨.bulk, false, 64, .mem 0x1000, 65, 0⟩ ∧ (sIn 65 0).inPktRdy 1 = false
      ∧ ((sIn 65 0).tx.get 1).length + (64 : Word).toNat ≤ 64
      ∧ (sIn 65 0).readBytes (0x1000 + 0) (64 : Word).toNat = some (List.replicate 64 0) := by decide

/-- One witness a clause: 65 bytes pass the capacity of 64 by one. -/
theorem witness_FillFaults :
    (sInit.entry 1 .IN = some (theEntry sInit 1 .IN) ∧ sInit.fault = none ∧ (theEntry sInit 1 .IN).buf = .none)
      ∧ ((theEntry (sIn 65 0) 1 .IN).buf ≠ .none ∧ ((setInPktRdy 1 true (sIn 65 0)).inCsr.get 1).inPktRdy = true)
      ∧ (((sIn 65 0).inCsr.get 1).inPktRdy = false
          ∧ (theEntry (sIn 65 0) 1 .IN).cap < ((sIn 65 0).tx.get 1).length + (65 : Word).toNat) := by decide

theorem witness_FlushDiscardsThePacket :
    sInit.entry 0 .IN = some (theEntry sInit 0 .IN) ∧ (theEntry sInit 0 .IN).etype = .control
      ∧ sInit.entry 1 .OUT = some (theEntry sInit 1 .OUT) ∧ (theEntry sInit 1 .OUT).etype ≠ .control := by decide

theorem witness_WordAccessesMoveTheSameBytes : 4 * 1 + 3 ≤ (pkt 7).length := by decide

theorem witness_CompletionsAreForDataEndpoints :
    (Instr.inh 1).cls ≠ .notification
      ∧ gives (exec (.inh 1) (sIn 1 0)) (fun t => t.upLog == [.onTransferComplete 1 .IN 0 1]) = true := by decide

theorem witness_BusResetMoveEffect : sInit.phase = .On ∧ sInit.busConnect = true := by decide
theorem witness_BusMovesTouchOnlyTheBusSide :
    (sProg [.bus (.out 1 (pkt 3))]).fault = none ∧ (sProg [.bus (.out 1 (pkt 3))]).program = .bus (.out 1 (pkt 3)) :: []
      ∧ gives (step (sProg [.bus (.out 1 (pkt 3))])) (fun t => t.rx.get 1 == pkt 3) = true := by decide

/-- `sInit` meets the invariant of the machine. -/
theorem sInit_inv : Inv Config.cfg sInit where
  shape := by decide
  entries := by
    have h : ∀ n : EpNum, ∀ d ∈ [Dir.OUT, Dir.IN], ∀ e ∈ (sInit.entry n d).toList,
        e.prog = 0 ∧ e.len = 0 ∧ e.cap = resetCap Config.cfg false e.etype
          ∧ e.buf = if n = 0 ∧ d = .OUT then .ctrl else .none := by decide
    intro n d e he
    obtain ⟨h1, h2, h3, h4⟩ := h n d (by cases d <;> simp) e (by simp [he])
    refine ⟨by omega, by rw [h2]; decide, .inr h3, ?_⟩
    unfold BufOk
    by_cases hk : n = 0 ∧ d = .OUT
    · rw [h4, if_pos hk]
      exact ⟨by rw [hk.1, hk.2], h2, h1⟩
    · rw [h4, if_neg hk]
      refine ⟨fun h => hk ?_, h2, h1⟩
      exact ⟨congrArg Prod.fst h, congrArg Prod.snd h⟩
  ep0 := by
    refine ⟨by decide, fun h => absurd h (by decide), ?_⟩
    rintro ⟨e, he, hb⟩
    have h : (sInit.entry 0 .IN).map Entry.buf = some .none := by decide
    rw [he] at h
    exact absurd (Option.some.inj h) hb
  fifos := by unfold FifosOk; decide
  memory := by
    refine ⟨by decide, ?_⟩
    have h : sInit.mem = [] := by decide
    intro a b hm
    rw [h] at hm
    exact absurd hm (List.not_mem_nil)
  lifecycle := by unfold LifecycleOk; decide
  unmasked := by decide
  dma := by decide

theorem witness_StepKeepsTheInvariant : Inv Config.cfg sInit ∧ gives (step sInit) (fun t => t == sInit) = true := ⟨sInit_inv, by decide⟩
theorem witness_StepKeepsMemoryCanonical :
    Memory.wf (withMem 0x1000 [1, 0, 2] sInit).mem = true
      ∧ gives (step (withMem 0x1000 [1, 0, 2] sInit)) (fun _ => true) = true := by decide
theorem witness_LogsOnlyGrow : gives (step sInit) (fun _ => true) = true := by decide

/-- The clause on memory has its own hypothesis, `EntriesOk`; `sInit` meets it. -/
theorem witness_WhichOperationsWriteWhichState :
    EntriesOk Config.cfg sInit ∧ gives (exec (.inh 1) sInit) (fun _ => true) = true := ⟨sInit_inv.entries, by decide⟩

theorem witness_OnlyInFlightRegionsAreWritten :
    Inv Config.cfg sInit ∧ (∀ ep size, Instr.reseth ≠ .drain ep size) ∧ gives (exec .reseth sInit) (fun _ => true) = true
      ∧ ∀ n a, (sInit.entry n .OUT).map Entry.buf ≠ some (.mem a) :=
  ⟨sInit_inv, by intros; simp, by decide, fun n a h => by
    have k : ∀ n : EpNum, (sInit.entry n .OUT).map Entry.buf ∈ [none, some .none, some .ctrl] := by decide
    have := k n
    rw [h] at this
    simp at this⟩

/-- One packet more than the capacity, so two rounds. -/
theorem witness_PacketCountLaw :
    (1 : EpNum) ≠ 0 ∧ (sIn 65 0).entry 1 .IN = some ⟨.bulk, false, 64, .mem 0x1000, 65, 0⟩
      ∧ ((sIn 65 0).inCsr.get 1).sentStall = false ∧ ((sIn 65 0).inCsr.get 1).inPktRdy = false ∧ (sIn 65 0).tx.get 1 = []
      ∧ (sIn 65 0).phase = .On ∧ (sIn 65 0).busConnect = true ∧ ((sIn 65 0).inCsr.get 1).sendStall = false
      ∧ (sIn 65 0).readBytes 0x1000 65 = some (List.replicate 65 0) ∧ (65 + 64 - 1) / 64 = 2 := by decide

/-- R256: a run whose one step is SHUTDOWN is shut down; the reset state, where none ran, is not the end of such a run. -/
theorem test_shut_down :
    ShutDown Config.cfg (sProg [.port [0x02000000#32]]) (stateOf (stepIn Config.cfg (sProg [.port [0x02000000#32]]))) := by
  have h : stepIn Config.cfg (sProg [.port [0x02000000#32]])
      = .next (stateOf (stepIn Config.cfg (sProg [.port [0x02000000#32]]))) := by rfl
  exact ⟨by decide, by decide, _, _, .refl, ⟨by decide, ⟨_, rfl⟩, h⟩, .refl⟩

theorem test_reset_not_shut_down : ¬ShutDown Config.cfg State.reset State.reset := by
  rintro ⟨-, -, u, v, hu, ⟨hp, -⟩, -⟩
  have key : ∀ t, Reaches Config.cfg State.reset t → t = State.reset := by
    intro t ht
    induction ht with
    | refl => rfl
    | step _ k ih =>
      subst ih
      have e : stepIn Config.cfg State.reset = .next State.reset := by rfl
      rw [e] at k
      exact (Host.Outcome.next.inj k).symm
  rw [key u hu] at hp
  exact absurd hp (by decide)

end Sys2Proof.Tests
end

/-! ### The Endpoint Table (R28) -/

section
namespace Sys2Proof.Machine

/-- Settles O32: the law of `clearEntry` gives the table after `clear(E)` in terms of `Entry.clear`, whose fields are those
of R28. -/
theorem clearEmptiesTheEntry : Obligations.ClearEmptiesTheEntry := by
  intro s n m d c
  rw [clearEntry_entry]
  simp only [Entry.clear]

end Sys2Proof.Machine
end

/-! ### The length of an operation (R106, R107) -/

section
namespace Sys2Proof

/-- The row of an opcode is a row of the opcode map, and carries that opcode. -/
theorem mem_opcodeTable_of_rowOf_eq_some {op : BitVec 8} {r : OpRow} (h : rowOf op = some r) :
    r ∈ opcodeTable ∧ r.op = op :=
  ⟨List.mem_of_find?_eq_some h, by simpa using List.find?_some h⟩

/-- An opcode without a row is the opcode of no row of the opcode map. -/
theorem op_ne_of_rowOf_eq_none {op : BitVec 8} (h : rowOf op = none) {r : OpRow} (hr : r ∈ opcodeTable) :
    r.op ≠ op := by
  simpa using List.find?_eq_none.mp h r hr

theorem lengthOf_of_rowOf_eq_none {h : Word} (hrow : rowOf (opField h) = none) : lengthOf h = 1 := by
  simp only [lengthOf, hrow]

theorem lengthOf_of_rowOf_eq_some {h : Word} {r : OpRow} (hrow : rowOf (opField h) = some r) :
    lengthOf h = r.format.operandWords + 1 := by
  simp only [lengthOf, hrow]

/-- R107: an unknown opcode is refused as one word, and decoding resumes at the next. -/
theorem decode_cons_of_rowOf_eq_none {h : Word} (t : List Word) (hrow : rowOf (opField h) = none) :
    decode (h :: t) = .rejected .unknownOpcode t := by
  simp only [decode, hrow]

/-- What the decoder has found when it answers an operation: the row of the opcode, all its operand words, and the row's
`match` value under the mask of its format. -/
theorem decode_cons_eq_op {h : Word} {t rest : List Word} {i : Instr} (hd : decode (h :: t) = .op i rest) :
    ∃ r, rowOf (opField h) = some r ∧ r.format.operandWords ≤ t.length ∧ h &&& r.format.mask = r.matchWord
      ∧ i = r.build h (t.take r.format.operandWords) ∧ rest = t.drop r.format.operandWords := by
  cases hrow : rowOf (opField h) with
  | none => simp [decode_cons_of_rowOf_eq_none t hrow] at hd
  | some r =>
    simp only [decode, hrow] at hd
    split at hd
    · cases hd
    · rename_i hlen
      split at hd
      · cases hd
      · rename_i hmatch
        cases hd
        exact ⟨r, rfl, Nat.le_of_not_lt hlen, not_not.mp hmatch, rfl, rfl⟩

/-- The lengths R107 lists are those of the rows of the opcode map. -/
theorem operandWords_of_mem_opcodeTable : ∀ r ∈ opcodeTable, r.format.operandWords + 1 =
    if r.op = 0x03#8 ∨ r.op = 0x04#8 then 3
    else if r.op = 0x21#8 ∨ r.op = 0x22#8 ∨ r.op = 0x31#8 then 2
    else if r.op = 0x30#8 then 17
    else 1 := by
  decide

/-- Every opcode that R107 gives more than one word has a row. -/
theorem opcodes_longer_than_one_word_have_rows :
    ∀ op ∈ [0x03#8, 0x04#8, 0x21#8, 0x22#8, 0x31#8, 0x30#8], ∃ r ∈ opcodeTable, r.op = op := by
  decide

/-- R107: the length of an operation, by its opcode. -/
theorem lengthOf_eq_ite (h : Word) : lengthOf h =
    if opField h = 0x03#8 ∨ opField h = 0x04#8 then 3
    else if opField h = 0x21#8 ∨ opField h = 0x22#8 ∨ opField h = 0x31#8 then 2
    else if opField h = 0x30#8 then 17
    else 1 := by
  cases hrow : rowOf (opField h) with
  | some r =>
    obtain ⟨hmem, hop⟩ := mem_opcodeTable_of_rowOf_eq_some hrow
    rw [lengthOf_of_rowOf_eq_some hrow, ← hop]
    exact operandWords_of_mem_opcodeTable r hmem
  | none =>
    have hne : opField h ∉ [0x03#8, 0x04#8, 0x21#8, 0x22#8, 0x31#8, 0x30#8] := fun hin => by
      obtain ⟨r, hr, hop⟩ := opcodes_longer_than_one_word_have_rows _ hin
      exact op_ne_of_rowOf_eq_none hrow hr hop
    simp only [List.mem_cons, List.not_mem_nil, or_false, not_or] at hne
    simp [lengthOf_of_rowOf_eq_none hrow, hne]

/-- R107: a decoded operation takes exactly the words its opcode says, and leaves the words after them. -/
theorem decode_cons_eq_op_length {h : Word} {t rest : List Word} {i : Instr} (hd : decode (h :: t) = .op i rest) :
    (h :: t).length = lengthOf h + rest.length ∧ rest = (h :: t).drop (lengthOf h) := by
  obtain ⟨r, hrow, hlen, -, -, rfl⟩ := decode_cons_eq_op hd
  rw [lengthOf_of_rowOf_eq_some hrow]
  refine ⟨?_, rfl⟩
  rw [List.length_cons, List.length_drop]
  omega

/-- Settles O4: a length is read off the row of the opcode (`lengthOf_eq_ite`), and the decoder takes the words of that
row, or the one word of an opcode without a row. -/
theorem lengthIsAFunctionOfOpcode : Obligations.LengthIsAFunctionOfOpcode := by
  refine ⟨fun g h hop => ?_, lengthOf_eq_ite, fun _ t hrow => decode_cons_of_rowOf_eq_none t hrow,
    fun _ _ _ _ hd => decode_cons_eq_op_length hd⟩
  rw [lengthOf_eq_ite g, lengthOf_eq_ite h, hop]

end Sys2Proof
end

/-! ### The moves of the bus agent (R190 to R199) -/

section
namespace Sys2Proof.Machine

/-- R190: the bus agent may move exactly when `phase = On` and `bus_connect = 1`. -/
theorem busUp_iff (s : State) : s.busUp = true ↔ s.phase = .On ∧ s.busConnect = true := by
  simp only [State.busUp, Bool.and_eq_true, decide_eq_true_eq]

/-- A move whose precondition holds is taken while the bus is up, and its step has the effect of the move and no other. -/
theorem busStep_of_enabled {c : Cfg} {m : BusMove} {s : State} (hup : s.busUp = true) (hpre : m.pre c s = true) :
    busStep c m s = .next (m.apply s) := by
  simp only [busStep, hup, hpre, Bool.and_self, if_true]

/-- R198: B_BUS_RESET has no precondition beyond R190. -/
@[simp] theorem busReset_pre (hs : Bool) (c : Cfg) (s : State) : (BusMove.busReset hs).pre c s = true := rfl

@[simp] theorem busReset_apply (hs : Bool) (s : State) : (BusMove.busReset hs).apply s = busResetMove hs s := rfl

/-- Settles O52: with the bus up the move is enabled, since its own precondition is always met, and `busResetMove` writes
the fields of R198 and no other. -/
theorem busResetMoveEffect : Obligations.BusResetMoveEffect := by
  intro s hs hphase hconnect
  have hup : s.busUp = true := (busUp_iff s).mpr ⟨hphase, hconnect⟩
  rw [busStep_of_enabled hup (busReset_pre hs _ s), busReset_apply]
  simp only [busResetMove, Csr0.zero, InCsr.zero, OutCsr.zero]

end Sys2Proof.Machine
end

/-! ### The opcode map and the round trip of the encoder (R101 to R109) -/

section
namespace Sys2Proof

/-! #### Head words that meet the mask of their format (R102) -/

/-- A head word under a mask that keeps the opcode and the bits of no field is its `match` value when every field vanishes
under its own part of the mask. -/
theorem headWord_and_eq_match {op status : BitVec 8} {st : Bool} {d : Dir} {ep : EpNum}
    {m₁ : BitVec 8} {m₂ m₃ : BitVec 1} {m₄ : BitVec 4} (h₁ : status &&& m₁ = 0#8) (h₂ : BitVec.ofBool st &&& m₂ = 0#1)
    (h₃ : BitVec.ofBool d.bit &&& m₃ = 0#1) (h₄ : BitVec.ofNat 4 ep.val &&& m₄ = 0#4) :
    headWord op status st d ep &&& (0xFF#8 ++ m₁ ++ 0x3F#6 ++ m₂ ++ m₃ ++ 0xF#4 ++ m₄) = op ++ 0#24 := by
  have hop : op &&& 0xFF#8 = op := BitVec.and_allOnes (x := op)
  have hzero : ∀ o : BitVec 8, (o ++ 0#8 ++ 0#6 ++ 0#1 ++ 0#1 ++ 0#4 ++ 0#4 : Word) = o ++ 0#24 := by decide
  rw [← hzero op]
  change (_ : BitVec (8 + 8 + 6 + 1 + 1 + 4 + 4)) = _
  simp only [headWord]
  repeat rw [BitVec.and_append]
  rw [hop, h₁, h₂, h₃, h₄]
  rfl

theorem headWord_and_mask_Z (op : BitVec 8) : headWord op 0 false .OUT 0 &&& Format.Z.mask = op ++ 0#24 :=
  headWord_and_eq_match (m₁ := 0xFF#8) (m₂ := 1#1) (m₃ := 1#1) (m₄ := 0xF#4) rfl rfl rfl rfl

theorem headWord_and_mask_E (op : BitVec 8) (ep : EpNum) :
    headWord op 0 false .OUT ep &&& Format.E.mask = op ++ 0#24 :=
  headWord_and_eq_match (m₁ := 0xFF#8) (m₂ := 1#1) (m₃ := 1#1) rfl rfl rfl BitVec.and_zero

theorem headWord_and_mask_ED (op : BitVec 8) (d : Dir) (ep : EpNum) :
    headWord op 0 false d ep &&& Format.ED.mask = op ++ 0#24 :=
  headWord_and_eq_match (m₁ := 0xFF#8) (m₂ := 1#1) rfl rfl BitVec.and_zero BitVec.and_zero

theorem headWord_and_mask_EDS (op : BitVec 8) (st : Bool) (d : Dir) (ep : EpNum) :
    headWord op 0 st d ep &&& Format.EDS.mask = op ++ 0#24 :=
  headWord_and_eq_match (m₁ := 0xFF#8) rfl BitVec.and_zero BitVec.and_zero BitVec.and_zero

theorem headWord_and_mask_VX (op status : BitVec 8) (d : Dir) (ep : EpNum) :
    headWord op status false d ep &&& Format.VX.mask = op ++ 0#24 :=
  headWord_and_eq_match (m₂ := 1#1) BitVec.and_zero rfl BitVec.and_zero BitVec.and_zero

/-! #### The head words of ONCTRLREQ and LOGEV (R109) -/

theorem countHead_fields (count : BitVec 7) :
    let h : Word := 0x30#8 ++ 0#17 ++ count
    opField h = 0x30#8 ∧ countField h = count ∧ h &&& Format.VC.mask = 0x30#8 ++ 0#24 := by
  revert count; decide

theorem kindHead_fields (kind : BitVec 2) :
    let h : Word := 0x33#8 ++ 0#22 ++ kind
    opField h = 0x33#8 ∧ kindField h = kind ∧ h &&& Format.VL.mask = 0x33#8 ++ 0#24 := by
  revert kind; decide

/-! #### The round trip -/

/-- R107: a head word that meets the row of its opcode, with the operand words of that row and any words after them, is the
row's operation, and the words after are left. -/
theorem decode_cons_append {h : Word} {ops rest : List Word} {r : OpRow} (hrow : rowOf (opField h) = some r)
    (hmatch : h &&& r.format.mask = r.matchWord) (hlen : ops.length = r.format.operandWords) :
    decode (h :: (ops ++ rest)) = .op (r.build h ops) rest := by
  have hl : ¬ (ops ++ rest).length < ops.length := by
    rw [List.length_append]; omega
  simp only [decode, hrow, hmatch, ne_eq, not_true_eq_false, if_false, ← hlen, if_neg hl, List.take_left,
    List.drop_left]

/-- The same for a head word that the encoder made: the operation is what the row builds from the fields. -/
theorem decode_headWord {op status : BitVec 8} {st : Bool} {d : Dir} {ep : EpNum} {ops : List Word} {r : OpRow} {i : Instr}
    (rest : List Word) (hrow : rowOf op = some r)
    (hmatch : headWord op status st d ep &&& r.format.mask = r.matchWord) (hlen : ops.length = r.format.operandWords)
    (hbuild : r.build (headWord op status st d ep) ops = i) :
    decode (headWord op status st d ep :: (ops ++ rest)) = .op i rest :=
  hbuild ▸ decode_cons_append (by rw [opField_headWord]; exact hrow) hmatch hlen

/-- Settles O1: one case per row of the opcode map; the head word meets the mask of its format, and the row builds the
operation from the fields, each of which reads back as it was written. -/
theorem decodeEncodeRoundTrip : Obligations.DecodeEncodeRoundTrip := by
  intro i rest
  cases i with
  | init => exact decode_headWord (op := 0x01#8) (ops := []) rest rfl (headWord_and_mask_Z _) rfl rfl
  | shutdown => exact decode_headWord (op := 0x02#8) (ops := []) rest rfl (headWord_and_mask_Z _) rfl rfl
  | cancelall => exact decode_headWord (op := 0x05#8) (ops := []) rest rfl (headWord_and_mask_Z _) rfl rfl
  | portspeed => exact decode_headWord (op := 0x08#8) (ops := []) rest rfl (headWord_and_mask_Z _) rfl rfl
  | connected => exact decode_headWord (op := 0x09#8) (ops := []) rest rfl (headWord_and_mask_Z _) rfl rfl
  | irq => exact decode_headWord (op := 0x10#8) (ops := []) rest rfl (headWord_and_mask_Z _) rfl rfl
  | ctrlh => exact decode_headWord (op := 0x11#8) (ops := []) rest rfl (headWord_and_mask_Z _) rfl rfl
  | reseth => exact decode_headWord (op := 0x14#8) (ops := []) rest rfl (headWord_and_mask_Z _) rfl rfl
  | ep0send => exact decode_headWord (op := 0x24#8) (ops := []) rest rfl (headWord_and_mask_Z _) rfl rfl
  | onbusreset => exact decode_headWord (op := 0x32#8) (ops := []) rest rfl (headWord_and_mask_Z _) rfl rfl
  | inh ep => exact decode_headWord (op := 0x12#8) (ops := []) rest rfl (headWord_and_mask_E _ ep) rfl (by simp)
  | outh ep => exact decode_headWord (op := 0x13#8) (ops := []) rest rfl (headWord_and_mask_E _ ep) rfl (by simp)
  | select ep => exact decode_headWord (op := 0x20#8) (ops := []) rest rfl (headWord_and_mask_E _ ep) rfl (by simp)
  | send ep buf len =>
    exact decode_headWord (op := 0x03#8) (ops := [buf, len]) rest rfl (headWord_and_mask_E _ ep) rfl (by simp)
  | recv ep buf len =>
    exact decode_headWord (op := 0x04#8) (ops := [buf, len]) rest rfl (headWord_and_mask_E _ ep) rfl (by simp)
  | drain ep size =>
    exact decode_headWord (op := 0x21#8) (ops := [size]) rest rfl (headWord_and_mask_E _ ep) rfl (by simp)
  | fill ep size =>
    exact decode_headWord (op := 0x22#8) (ops := [size]) rest rfl (headWord_and_mask_E _ ep) rfl (by simp)
  | isstalled ep d => exact decode_headWord (op := 0x07#8) (ops := []) rest rfl (headWord_and_mask_ED _ d ep) rfl (by simp)
  | flush ep d => exact decode_headWord (op := 0x23#8) (ops := []) rest rfl (headWord_and_mask_ED _ d ep) rfl (by simp)
  | stall ep d st =>
    exact decode_headWord (op := 0x06#8) (ops := []) rest rfl (headWord_and_mask_EDS _ st d ep) rfl (by simp)
  | onxferdone status d ep bytes =>
    exact decode_headWord (op := 0x31#8) (ops := [bytes]) rest rfl (headWord_and_mask_VX _ status d ep) rfl (by simp)
  | onctrlreq count data =>
    obtain ⟨hop, hcount, hmatch⟩ := countHead_fields count
    refine (decode_cons_append (ops := dataWords data) (congrArg rowOf hop) hmatch (length_dataWords data)).trans ?_
    change Decoded.op (.onctrlreq (countField _) (dataBytes (dataWords data))) rest = _
    rw [hcount, dataBytes_dataWords]
  | logev kind =>
    obtain ⟨hop, hkind, hmatch⟩ := kindHead_fields kind
    refine (decode_cons_append (ops := []) (congrArg rowOf hop) hmatch rfl).trans ?_
    change Decoded.op (.logev (kindField _)) rest = _
    rw [hkind]

/-! #### One row for a head word, and no row for a reserved opcode (R104, R106) -/

/-- Every format's mask keeps the opcode, so a head word that meets a row carries the opcode of that row. -/
theorem opField_of_meets_row {h : Word} {r : OpRow} (hmatch : h &&& r.format.mask = r.matchWord) : opField h = r.op := by
  have hmask : opField r.format.mask = BitVec.allOnes 8 := by
    cases r.format <;> rfl
  have hop : opField r.matchWord = r.op := by
    have : ∀ op : BitVec 8, opField (op ++ 0#24) = op := by decide
    exact this r.op
  calc opField h = opField h &&& opField r.format.mask := by rw [hmask, BitVec.and_allOnes]
    _ = opField (h &&& r.format.mask) := BitVec.extractLsb'_and.symm
    _ = r.op := by rw [hmatch, hop]

/-- The opcode map has one row for each of its opcodes. -/
theorem opcodeTable_op_nodup : (opcodeTable.map OpRow.op).Nodup := by decide

/-- Settles O2: two rows that a head word meets carry its opcode, and the opcode map has each opcode once. -/
theorem headWordNamesOneRow : Obligations.HeadWordNamesOneRow := by
  intro h q r hq hr hmq hmr
  have hop : q.op = r.op := (opField_of_meets_row hmq).symm.trans (opField_of_meets_row hmr)
  exact List.inj_on_of_nodup_map opcodeTable_op_nodup hq hr hop

set_option maxRecDepth 4000 in
/-- Settles O3: the 256 opcodes, each looked up in the opcode map. -/
theorem reservedOpcodesHaveNoRow : Obligations.ReservedOpcodesHaveNoRow := by
  unfold Obligations.ReservedOpcodesHaveNoRow
  decide

/-- Settles O5: the decoder run on each of the words. -/
theorem wordsDecodeAsTheSpecWritesThem : Obligations.WordsDecodeAsTheSpecWritesThem := by
  unfold Obligations.WordsDecodeAsTheSpecWritesThem
  decide

end Sys2Proof
end

/-! ### What an operation can do (R8, R9) -/

section
namespace Sys2Proof.Machine

/-! #### The meaning of each operation -/

@[simp] theorem exec_init (s : State) : exec .init s = conclude s (init Config.cfg s) := rfl

@[simp] theorem exec_shutdown (s : State) :
    exec .shutdown s = conclude s (commandCheck s true (fun s => .ok (shutdown Config.cfg s))) := rfl

@[simp] theorem exec_send (ep : EpNum) (buf len : Word) (s : State) :
    exec (.send ep buf len) s = conclude s (withEntry s ep .IN (fun e s => send Config.cfg ep e buf len s)) := rfl

@[simp] theorem exec_recv (ep : EpNum) (buf len : Word) (s : State) :
    exec (.recv ep buf len) s = conclude s (withEntry s ep .OUT (fun e s => recv Config.cfg ep e buf len s)) := rfl

@[simp] theorem exec_cancelall (s : State) :
    exec .cancelall s = conclude s (commandCheck s true (fun s => .ok (cancelAll s))) := rfl

@[simp] theorem exec_stall (ep : EpNum) (d : Dir) (st : Bool) (s : State) :
    exec (.stall ep d st) s
      = conclude s (commandCheck s (s.present ep d) (fun s => .ok (putSendStall ep d st (selectEp ep s)))) := rfl

@[simp] theorem exec_isstalled (ep : EpNum) (d : Dir) (s : State) :
    exec (.isstalled ep d) s
      = conclude s (commandCheck s (s.present ep d) (fun s => .ok (answer (s.sendStall ep d) (selectEp ep s)))) := rfl

@[simp] theorem exec_portspeed (s : State) :
    exec .portspeed s = conclude s (commandCheck s true (fun s => .ok (answer s.hsMode s))) := rfl

@[simp] theorem exec_connected (s : State) :
    exec .connected s = conclude s (commandCheck s true (fun s => .ok (answer s.vbusSense s))) := rfl

@[simp] theorem exec_irq (s : State) : exec .irq s = conclude s (irq Config.cfg s) := rfl

@[simp] theorem exec_ctrlh (s : State) : exec .ctrlh s = conclude s (ctrlh Config.cfg s) := rfl

@[simp] theorem exec_inh (ep : EpNum) (s : State) : exec (.inh ep) s = conclude s (inh ep s) := rfl

@[simp] theorem exec_outh (ep : EpNum) (s : State) : exec (.outh ep) s = conclude s (outh Config.cfg ep s) := rfl

@[simp] theorem exec_reseth (s : State) : exec .reseth s = .next (reseth Config.cfg s) := rfl

@[simp] theorem exec_select (ep : EpNum) (s : State) : exec (.select ep) s = .next (selectEp ep s) := rfl

@[simp] theorem exec_drain (ep : EpNum) (size : Word) (s : State) :
    exec (.drain ep size) s = conclude s (drain Config.cfg ep size.toNat s) := rfl

@[simp] theorem exec_fill (ep : EpNum) (size : Word) (s : State) :
    exec (.fill ep size) s = conclude s (fill ep size.toNat s) := rfl

@[simp] theorem exec_flush (ep : EpNum) (d : Dir) (s : State) :
    exec (.flush ep d) s = conclude s (if s.present ep d then .ok (flush ep d s) else .error .noSuchEntry) := rfl

@[simp] theorem exec_ep0send (s : State) : exec .ep0send s = conclude s (ep0send s) := rfl

@[simp] theorem exec_onctrlreq (count : BitVec 7) (data : Vector Byte 64) (s : State) :
    exec (.onctrlreq count data) s = .next (emit (.onControlRequest data count.toNat) s) := rfl

@[simp] theorem exec_onxferdone (status : BitVec 8) (d : Dir) (n : EpNum) (bytes : Word) (s : State) :
    exec (.onxferdone status d n bytes) s = .next (emit (.onTransferComplete n d status bytes.toNat) s) := rfl

@[simp] theorem exec_onbusreset (s : State) : exec .onbusreset s = .next (emit .onBusReset s) := rfl

theorem exec_logev_of_kind {kind : BitVec 2} {k : LogKind} (h : logKindOf kind = some k) (s : State) :
    exec (.logev kind) s = .next (emit (.log k) s) := by
  change execLogev kind s = _
  simp only [execLogev, h, conclude_ok]

theorem exec_logev_of_no_kind {kind : BitVec 2} (h : logKindOf kind = none) (s : State) :
    exec (.logev kind) s = .refused .neverProduced := by
  change execLogev kind s = _
  simp only [execLogev, h]

/-! #### What is never refused: the refusals of R222 are for commands -/

/-- A rule that raises no refusal of R222. -/
def NotRefused (r : Result) : Prop := ∀ f, r ≠ .error (.refuse f)

theorem NotRefused.ok (s : State) : NotRefused (.ok s) := fun _ h => by cases h

theorem NotRefused.andThen {r : Result} {f : State → Result} (h : NotRefused r) (k : ∀ s, NotRefused (f s)) :
    NotRefused (andThen r f) := by
  cases r with
  | ok s => exact k s
  | error e => exact fun g hg => h g hg

theorem notRefused_drain (c : Cfg) (ep : EpNum) (size : Nat) (s : State) : NotRefused (drain c ep size s) := by
  intro f h
  unfold drain storeDrained at h
  grind

theorem notRefused_fill (ep : EpNum) (size : Nat) (s : State) : NotRefused (fill ep size s) := by
  intro f h
  unfold fill fetchFill at h
  grind

theorem notRefused_ep0send (s : State) : NotRefused (ep0send s) := by
  unfold ep0send
  split
  · exact fun _ h => by cases h
  · split
    · exact .ok _
    · refine (notRefused_fill _ _ _).andThen fun s1 => ?_
      simp only
      split <;> exact .ok _

theorem notRefused_ctrlh (c : Cfg) (s : State) : NotRefused (ctrlh c s) := by
  unfold ctrlh
  simp only
  split
  · exact .ok _
  split
  · exact .ok _
  split
  · split
    · exact (notRefused_drain _ _ _ _).andThen fun _ => .ok _
    · exact .ok _
  · exact notRefused_ep0send _
  · exact .ok _

theorem notRefused_inh (ep : EpNum) (s : State) : NotRefused (inh ep s) := by
  unfold inh
  split
  · exact .ok _
  split
  · exact .ok _
  simp only
  split
  · exact .ok _
  split
  · exact .ok _
  · exact (notRefused_fill _ _ _).andThen fun _ => .ok _

theorem notRefused_outh (c : Cfg) (ep : EpNum) (s : State) : NotRefused (outh c ep s) := by
  unfold outh
  split
  · exact .ok _
  split
  · exact .ok _
  simp only
  split
  · exact .ok _
  split
  · exact fun _ h => by cases h
  split
  · exact fun _ h => by cases h
  · exact (notRefused_drain _ _ _ _).andThen fun _ => .ok _

theorem notRefused_forNumbers {bits : Bank Bool} {f : EpNum → State → Result} (hf : ∀ n s, NotRefused (f n s))
    (ns : List EpNum) (s : State) : NotRefused (forNumbers ns (ifBit bits f) s) := by
  induction ns generalizing s with
  | nil => exact .ok s
  | cons n u ih =>
    refine NotRefused.andThen ?_ ih
    unfold ifBit
    split
    · exact hf n s
    · exact .ok s

theorem notRefused_irq (c : Cfg) (s : State) : NotRefused (irq c s) := by
  unfold irq
  split
  · exact .ok _
  unfold route
  refine NotRefused.andThen ?_ fun s1 => ?_
  · split
    · exact notRefused_ctrlh c _
    · exact .ok _
  refine (notRefused_forNumbers notRefused_inh _ s1).andThen fun s2 => ?_
  exact (notRefused_forNumbers (notRefused_outh c) _ s2).andThen fun s3 => .ok _

/-! #### How an operation ends -/

/-- Operation `i` on state `s` comes to the end of its rule in state `t`: no fault, no refusal. -/
inductive Completes : Instr → State → State → Prop
  | init {s : State} (hoff : s.phase = .Off) :
      Completes .init s (attach (resetSequence Config.cfg { powerUp Config.cfg s with phase := .On }))
  | shutdown {s : State} (hon : s.phase = .On) : Completes .shutdown s (Machine.shutdown Config.cfg s)
  | send {ep : EpNum} {buf len : Word} {s t : State} {e : Entry} (hon : s.phase = .On) (he : s.entry ep .IN = some e)
      (h : Machine.send Config.cfg ep e buf len s = .ok t) : Completes (.send ep buf len) s t
  | recv {ep : EpNum} {buf len : Word} {s t : State} {e : Entry} (hon : s.phase = .On) (he : s.entry ep .OUT = some e)
      (h : Machine.recv Config.cfg ep e buf len s = .ok t) : Completes (.recv ep buf len) s t
  | cancelall {s : State} (hon : s.phase = .On) : Completes .cancelall s (cancelAll s)
  | stall {ep : EpNum} {d : Dir} {st : Bool} {s : State} (hon : s.phase = .On) :
      Completes (.stall ep d st) s (putSendStall ep d st (selectEp ep s))
  | isstalled {ep : EpNum} {d : Dir} {s : State} (hon : s.phase = .On) :
      Completes (.isstalled ep d) s (answer (s.sendStall ep d) (selectEp ep s))
  | portspeed {s : State} (hon : s.phase = .On) : Completes .portspeed s (answer s.hsMode s)
  | connected {s : State} (hon : s.phase = .On) : Completes .connected s (answer s.vbusSense s)
  | irq {s t : State} (h : Machine.irq Config.cfg s = .ok t) : Completes .irq s t
  | ctrlh {s t : State} (h : Machine.ctrlh Config.cfg s = .ok t) : Completes .ctrlh s t
  | inh {ep : EpNum} {s t : State} (h : Machine.inh ep s = .ok t) : Completes (.inh ep) s t
  | outh {ep : EpNum} {s t : State} (h : Machine.outh Config.cfg ep s = .ok t) : Completes (.outh ep) s t
  | reseth {s : State} : Completes .reseth s (Machine.reseth Config.cfg s)
  | select {ep : EpNum} {s : State} : Completes (.select ep) s (selectEp ep s)
  | drain {ep : EpNum} {size : Word} {s t : State} (h : Machine.drain Config.cfg ep size.toNat s = .ok t) :
      Completes (.drain ep size) s t
  | fill {ep : EpNum} {size : Word} {s t : State} (h : Machine.fill ep size.toNat s = .ok t) :
      Completes (.fill ep size) s t
  | flush {ep : EpNum} {d : Dir} {s : State} : Completes (.flush ep d) s (Machine.flush ep d s)
  | ep0send {s t : State} (h : Machine.ep0send s = .ok t) : Completes .ep0send s t
  | onctrlreq {count : BitVec 7} {data : Vector Byte 64} {s : State} :
      Completes (.onctrlreq count data) s (emit (.onControlRequest data count.toNat) s)
  | onxferdone {status : BitVec 8} {d : Dir} {n : EpNum} {bytes : Word} {s : State} :
      Completes (.onxferdone status d n bytes) s (emit (.onTransferComplete n d status bytes.toNat) s)
  | onbusreset {s : State} : Completes .onbusreset s (emit .onBusReset s)
  | logev {kind : BitVec 2} {k : LogKind} {s : State} : Completes (.logev kind) s (emit (.log k) s)

/-- A rule that ends in a next state and cannot refuse has ended well, or has faulted (R9). -/
theorem conclude_next_of_notRefused {s t : State} {r : Result} (hr : NotRefused r) (h : conclude s r = .next t) :
    r = .ok t ∨ ∃ f, t = s.markFault f := by
  rcases conclude_next.1 h with h | ⟨f, -, h⟩ | ⟨f, h, -⟩
  · exact .inl h
  · exact .inr ⟨f, h⟩
  · exact absurd h (hr f)

theorem init_ok {c : Cfg} {s t : State} (h : init c s = .ok t) :
    s.phase = .Off ∧ t = attach (resetSequence c { powerUp c s with phase := .On }) := by
  unfold init at h
  split at h
  · cases h
  · rename_i hp
    exact ⟨by cases hs : s.phase <;> simp_all, (Except.ok.inj h).symm⟩

/-- An operation that is no command ends well or faults; it is never refused. -/
theorem exec_next_of_not_command {i : Instr} {s t : State} (hi : i.cls ≠ .command) (h : exec i s = .next t) :
    Completes i s t ∨ ∃ r, t = s.markFault r := by
  cases i with
  | irq => exact (conclude_next_of_notRefused (notRefused_irq _ s) h).imp_left .irq
  | ctrlh => exact (conclude_next_of_notRefused (notRefused_ctrlh _ s) h).imp_left .ctrlh
  | inh ep => exact (conclude_next_of_notRefused (notRefused_inh ep s) h).imp_left .inh
  | outh ep => exact (conclude_next_of_notRefused (notRefused_outh _ ep s) h).imp_left .outh
  | drain ep size => exact (conclude_next_of_notRefused (notRefused_drain _ ep _ s) h).imp_left .drain
  | fill ep size => exact (conclude_next_of_notRefused (notRefused_fill ep _ s) h).imp_left .fill
  | ep0send => exact (conclude_next_of_notRefused (notRefused_ep0send s) h).imp_left .ep0send
  | reseth => exact .inl (Host.Outcome.next.inj h ▸ .reseth)
  | select ep => cases h; exact .inl .select
  | flush ep d =>
    rw [exec_flush] at h
    split at h
    · cases h; exact .inl .flush
    · cases h
  | onctrlreq count data => cases h; exact .inl .onctrlreq
  | onxferdone status d n bytes => cases h; exact .inl .onxferdone
  | onbusreset => cases h; exact .inl .onbusreset
  | logev kind =>
    cases hk : logKindOf kind with
    | none => rw [exec_logev_of_no_kind hk] at h; cases h
    | some k => rw [exec_logev_of_kind hk] at h; cases h; exact .inl .logev
  | _ => exact absurd rfl hi

/-- A command ends well, faults, or is refused. -/
theorem exec_next_of_command {i : Instr} {s t : State} (hi : i.cls = .command) (h : exec i s = .next t) :
    Completes i s t ∨ (∃ r, t = s.markFault r) ∨ ∃ r, t = s.markRefused r := by
  have of_conclude : ∀ {r : Result}, conclude s r = .next t → (r = .ok t → Completes i s t) →
      Completes i s t ∨ (∃ r, t = s.markFault r) ∨ ∃ r, t = s.markRefused r := fun hr k =>
    (conclude_next.1 hr).imp k (Or.imp (fun ⟨f, hf⟩ => ⟨f, hf.2⟩) (fun ⟨f, hf⟩ => ⟨f, hf.2⟩))
  cases i with
  | init =>
    refine of_conclude h fun hr => ?_
    obtain ⟨hoff, rfl⟩ := init_ok hr
    exact .init hoff
  | shutdown => exact of_conclude h fun hr => by obtain ⟨hon, -, hf⟩ := commandCheck_ok hr; cases hf; exact .shutdown hon
  | send ep buf len =>
    exact of_conclude h fun hr => by obtain ⟨hon, e, he, hf⟩ := withEntry_ok hr; exact .send hon he hf
  | recv ep buf len =>
    exact of_conclude h fun hr => by obtain ⟨hon, e, he, hf⟩ := withEntry_ok hr; exact .recv hon he hf
  | cancelall =>
    exact of_conclude h fun hr => by obtain ⟨hon, -, hf⟩ := commandCheck_ok hr; exact Except.ok.inj hf ▸ .cancelall hon
  | stall ep d st => exact of_conclude h fun hr => by obtain ⟨hon, -, hf⟩ := commandCheck_ok hr; cases hf; exact .stall hon
  | isstalled ep d =>
    exact of_conclude h fun hr => by obtain ⟨hon, -, hf⟩ := commandCheck_ok hr; cases hf; exact .isstalled hon
  | portspeed => exact of_conclude h fun hr => by obtain ⟨hon, -, hf⟩ := commandCheck_ok hr; cases hf; exact .portspeed hon
  | connected => exact of_conclude h fun hr => by obtain ⟨hon, -, hf⟩ := commandCheck_ok hr; cases hf; exact .connected hon
  | _ => cases hi

/-- Everything an operation can do when it answers a next state (R9): it ends well, or it leaves the state with a mark. -/
theorem exec_next {i : Instr} {s t : State} (h : exec i s = .next t) :
    Completes i s t ∨ (∃ r, t = s.markFault r) ∨ ∃ r, t = s.markRefused r := by
  by_cases hi : i.cls = .command
  · exact exec_next_of_command hi h
  · exact (exec_next_of_not_command hi h).imp_right .inl

end Sys2Proof.Machine
end

/-! ### What a step can do (R105 to R107, R112, R160, R256) -/

section
namespace Sys2Proof

/-- An operation built by a row of the opcode map has the class of that row. -/
theorem cls_build_of_mem {r : OpRow} (hr : r ∈ opcodeTable) (h : Word) (ws : List Word) : (r.build h ws).cls = r.cls := by
  revert r
  simp only [opcodeTable, List.forall_mem_cons, Instr.cls, List.not_mem_nil, false_imp_iff, implies_true, and_self]

/-- R106: a head word that does not meet the row of its opcode is refused, and the words of that opcode are consumed. -/
theorem decode_cons_of_reserved {h : Word} {t : List Word} {r : OpRow} (hrow : rowOf (opField h) = some r)
    (hlen : r.format.operandWords ≤ t.length) (hbits : h &&& r.format.mask ≠ r.matchWord) :
    decode (h :: t) = .rejected .reservedBits (t.drop r.format.operandWords) := by
  simp only [decode, hrow, if_neg (Nat.not_lt.2 hlen), if_pos hbits]

end Sys2Proof

namespace Sys2Proof.Machine

/-! #### The command port -/

theorem portFetch_of_unknown {h : Word} (hrow : rowOf (opField h) = none) (t : List Word) (p : List TopStep) (s : State) :
    portFetch (h :: t) p s = .done (.next ((s.leavePort t p).markRefused .UnknownOpcode)) := by
  simp only [portFetch, hrow]

section
variable {h : Word} {t : List Word} {r : OpRow} (hrow : rowOf (opField h) = some r)
  (hlen : r.format.operandWords ≤ t.length)
include hrow hlen

theorem portFetch_of_not_command (hcls : r.cls ≠ .command) (p : List TopStep) (s : State) :
    portFetch (h :: t) p s
      = .done (.next ((s.leavePort (t.drop r.format.operandWords) p).markRefused .NotACommand)) := by
  simp only [portFetch, hrow, if_neg (Nat.not_lt.2 hlen), if_pos hcls]

theorem portFetch_of_reserved (hcls : r.cls = .command) (hbits : h &&& r.format.mask ≠ r.matchWord)
    (p : List TopStep) (s : State) :
    portFetch (h :: t) p s
      = .done (.next ((s.leavePort (t.drop r.format.operandWords) p).markRefused .ReservedBits)) := by
  simp only [portFetch, hrow, if_neg (Nat.not_lt.2 hlen), hcls, ne_eq, not_true_eq_false, if_false,
    decode_cons_of_reserved hrow hlen hbits, reasonOf]

end

theorem portFetch_of_command {ws rest : List Word} {i : Instr} (hd : decode ws = .op i rest) (hcls : i.cls = .command)
    (p : List TopStep) (s : State) : portFetch ws p s = .run i (s.leavePort rest p) := by
  cases ws with
  | nil => cases hd
  | cons h t =>
    obtain ⟨r, hrow, hlen, -, hi, -⟩ := decode_cons_eq_op hd
    have hr : r.cls = .command := by
      rw [← cls_build_of_mem (mem_opcodeTable_of_rowOf_eq_some hrow).1 h, ← hi, hcls]
    simp only [portFetch, hrow, if_neg (Nat.not_lt.2 hlen), hr, ne_eq, not_true_eq_false, if_false, hd]

/-- Everything the command port can do: run an operation on the state without its words, refuse, or stop. -/
theorem portFetch_cases (ws : List Word) (p : List TopStep) (s : State) :
    (∃ i q, portFetch ws p s = .run i { s with program := q })
      ∨ (∃ q r, portFetch ws p s = .done (.next (State.markRefused { s with program := q } r)))
      ∨ ∃ x, portFetch ws p s = .done (.refused x) := by
  unfold portFetch
  split
  · exact .inr (.inr ⟨_, rfl⟩)
  split
  · exact .inr (.inl ⟨_, _, rfl⟩)
  split
  · exact .inr (.inr ⟨_, rfl⟩)
  split
  · exact .inr (.inl ⟨_, _, rfl⟩)
  split
  · exact .inl ⟨_, _, rfl⟩
  · exact .inr (.inl ⟨_, _, rfl⟩)
  · exact .inr (.inr ⟨_, rfl⟩)

/-- Everything the IRQ step can do: run IRQ on the state without that step, or stop. -/
theorem irqFetch_cases (p : List TopStep) (s : State) :
    irqFetch p s = .run .irq { s with program := p } ∨ irqFetch p s = .done (.refused .irqNotEnabled) := by
  unfold irqFetch
  split
  · exact .inl rfl
  · exact .inr rfl

/-- Everything a direct invocation can do: run an operation on the state without that step, or stop. -/
theorem invokeFetch_cases (ws : List Word) (p : List TopStep) (s : State) :
    (∃ i, invokeFetch ws p s = .run i { s with program := p }) ∨ ∃ x, invokeFetch ws p s = .done (.refused x) := by
  unfold invokeFetch
  split
  · split
    · exact (irqFetch_cases p s).imp (⟨_, ·⟩) (⟨_, ·⟩)
    · exact .inl ⟨_, rfl⟩
  · exact .inr ⟨_, rfl⟩
  · exact .inr ⟨_, rfl⟩
  · exact .inr ⟨_, rfl⟩

/-! #### The step -/

/-- How a step gets from `s` to `t`: it runs an operation, does nothing, refuses words at the port, or is a move of the bus
agent or of the platform; `p` is the program that is left. -/
inductive Advances (s : State) : State → Prop
  | operation {i : Instr} {p : List TopStep} {t : State} (h : exec i { s with program := p } = .next t) : Advances s t
  | idle : Advances s s
  | refusal (p : List TopStep) (r : RefusalReason) : Advances s (State.markRefused { s with program := p } r)
  | bus {m : BusMove} {p : List TopStep} (hup : s.busUp = true)
      (hpre : m.pre Config.cfg { s with program := p } = true) : Advances s (m.apply { s with program := p })
  | vbus (b : Bool) (p : List TopStep) : Advances s { s with program := p, vbusSense := b }

theorem busStep_next {c : Cfg} {m : BusMove} {s t : State} (h : busStep c m s = .next t) :
    s.busUp = true ∧ m.pre c s = true ∧ t = m.apply s := by
  unfold busStep at h
  split at h
  · rename_i hb
    rw [Bool.and_eq_true] at hb
    exact ⟨hb.1, hb.2, (Host.Outcome.next.inj h).symm⟩
  · cases h

theorem step_of_fault {s : State} {r : FaultReason} (h : s.fault = some r) : step s = .fault (.halted r) := by
  simp only [step, fetch, h]

theorem stepIn_of_run {c : Cfg} {s t : State} {i : Instr} (hf : s.fault = none) (h : nextStep c s = .run i t) :
    stepIn c s = execIn c i t := by
  simp only [stepIn_of_no_fault hf, h]

theorem step_of_run {s t : State} {i : Instr} (hf : s.fault = none) (h : nextStep Config.cfg s = .run i t) :
    step s = exec i t := by
  simp only [step_of_no_fault hf, h]

theorem step_of_done {s : State} {o : Host.Outcome State Fault Refusal} (hf : s.fault = none)
    (h : nextStep Config.cfg s = .done o) : step s = o := by
  simp only [step_of_no_fault hf, h]

section
variable {s : State} {p : List TopStep} (c : Cfg)

theorem nextStep_port {ws : List Word} (hp : s.program = .port ws :: p) : nextStep c s = portFetch ws p s := by
  simp only [nextStep, hp]

theorem nextStep_irq (hp : s.program = .irq :: p) : nextStep c s = irqFetch p s := by
  simp only [nextStep, hp]

theorem nextStep_bus {m : BusMove} (hp : s.program = .bus m :: p) :
    nextStep c s = .done (busStep c m { s with program := p }) := by
  simp only [nextStep, hp]

theorem nextStep_vbus {b : Bool} (hp : s.program = .vbus b :: p) :
    nextStep c s = .done (.next { s with program := p, vbusSense := b }) := by
  simp only [nextStep, hp, vbusStep]

theorem nextStep_invoke {ws : List Word} (hp : s.program = .invoke ws :: p) : nextStep c s = invokeFetch ws p s := by
  simp only [nextStep, hp]

theorem nextStep_of_line (hp : s.program = []) (hl : s.irqLine = true) : nextStep c s = .run .irq s := by
  simp only [nextStep, hp, hl, if_true]

theorem nextStep_of_no_line (hp : s.program = []) (hl : s.irqLine = false) : nextStep c s = .done (.next s) := by
  simp only [nextStep, hp, hl, Bool.false_eq_true, if_false]

end

/-- A step whose fetch answers a next state by itself. -/
theorem advances_of_done {s t u : State} (hf : s.fault = none) (hn : nextStep Config.cfg s = .done (.next u))
    (h : step s = .next t) (hu : Advances s u) : Advances s t :=
  Host.Outcome.next.inj ((step_of_done hf hn).symm.trans h) ▸ hu

/-- A step whose fetch runs an operation. -/
theorem advances_of_run {s t : State} {i : Instr} {p : List TopStep} (hf : s.fault = none)
    (hn : nextStep Config.cfg s = .run i { s with program := p }) (h : step s = .next t) : Advances s t :=
  .operation ((step_of_run hf hn).symm.trans h)

/-- A step whose fetch stops answers no next state. -/
theorem step_ne_next_of_refused {s t : State} {x : Refusal} (hf : s.fault = none)
    (hn : nextStep Config.cfg s = .done (.refused x)) : step s ≠ .next t := by
  rw [step_of_done hf hn]
  exact fun h => by cases h

/-- Everything a step can do when it answers a next state. -/
theorem step_next {s t : State} (h : step s = .next t) : s.fault = none ∧ Advances s t := by
  cases hf : s.fault with
  | some r => rw [step_of_fault hf] at h; cases h
  | none =>
    refine ⟨rfl, ?_⟩
    cases hp : s.program with
    | nil =>
      cases hl : s.irqLine with
      | true => exact advances_of_run (p := s.program) hf (nextStep_of_line _ hp hl) h
      | false => exact advances_of_done hf (nextStep_of_no_line _ hp hl) h .idle
    | cons m p =>
      cases m with
      | port ws =>
        have hn := nextStep_port Config.cfg hp
        rcases portFetch_cases ws p s with ⟨i, q, hq⟩ | ⟨q, r, hq⟩ | ⟨x, hq⟩
        · exact advances_of_run hf (hn.trans hq) h
        · exact advances_of_done hf (hn.trans hq) h (.refusal q r)
        · exact absurd h (step_ne_next_of_refused hf (hn.trans hq))
      | irq =>
        have hn := nextStep_irq Config.cfg hp
        rcases irqFetch_cases p s with hq | hq
        · exact advances_of_run hf (hn.trans hq) h
        · exact absurd h (step_ne_next_of_refused hf (hn.trans hq))
      | bus m =>
        rw [step_of_done hf (nextStep_bus _ hp)] at h
        obtain ⟨hup, hpre, rfl⟩ := busStep_next h
        exact .bus hup hpre
      | vbus b => exact advances_of_done hf (nextStep_vbus _ hp) h (.vbus b p)
      | invoke ws =>
        have hn := nextStep_invoke Config.cfg hp
        rcases invokeFetch_cases ws p s with ⟨i, hq⟩ | ⟨x, hq⟩
        · exact advances_of_run hf (hn.trans hq) h
        · exact absurd h (step_ne_next_of_refused hf (hn.trans hq))

/-! #### The statements about the step -/

/-- Settles O6: the words decode, so the port finds their row and its class, and runs the operation. -/
theorem stepRunsTheCommandAtThePort : Obligations.StepRunsTheCommandAtThePort := by
  intro s ws rest p i hf hp hd hcls
  exact step_of_run hf ((nextStep_port _ hp).trans (portFetch_of_command hd hcls p s))

/-- R45, R160: when the IRQ step is enabled. -/
theorem irqEnabled_iff (s : State) : s.irqEnabled = true ↔ s.phase = .On ∧ s.irqMasked = false := by
  simp only [State.irqEnabled, Bool.and_eq_true, decide_eq_true_eq, Bool.not_eq_true']

theorem irqFetch_eq (p : List TopStep) (s : State) :
    irqFetch p s = if s.phase = .On ∧ s.irqMasked = false then .run .irq { s with program := p }
      else .done (.refused .irqNotEnabled) := by
  simp only [irqFetch, irqEnabled_iff]

/-- `exec` is `execIn` at the default configuration. -/
theorem exec_eq_execIn (i : Instr) (s : State) : exec i s = execIn Config.cfg i s := by
  cases i <;> rfl

/-- Settles O7: the words decode to one operation; IRQ goes through the enabling of the IRQ step, every other operation is
run at once. -/
theorem stepRunsTheInvokedOperation : Obligations.StepRunsTheInvokedOperation := by
  refine ⟨fun c s ws p i hf hp hd => ?_, fun s => ?_, exec_eq_execIn⟩
  · by_cases hi : i = .irq
    · have hn : nextStep c s = irqFetch p s := by
        rw [nextStep_invoke c hp, invokeFetch, hd]
        exact if_pos hi
      by_cases hen : s.phase = .On ∧ s.irqMasked = false
      · rw [irqFetch_eq, if_pos hen] at hn
        rw [stepIn_of_run hf hn, if_neg fun h => h.2 hen, hi]
      · rw [irqFetch_eq, if_neg hen] at hn
        simp only [stepIn_of_no_fault hf, hn, hi, hen, not_false_eq_true, and_self, if_true]
    · have hn : nextStep c s = .run i { s with program := p } := by
        rw [nextStep_invoke c hp, invokeFetch, hd]
        exact if_neg hi
      rw [stepIn_of_run hf hn, if_neg fun h => hi h.1]
  · cases h : fetch Config.cfg s <;> simp only [step, stepIn, h, exec_eq_execIn]

/-- A flag of a bank set together with its enable. -/
theorem bankAnyAnd_iff (f e : Bank Bool) : bankAnyAnd f e = true ↔ ∃ n, f.get n = true ∧ e.get n = true := by
  simp only [bankAnyAnd, List.any_eq_true, List.mem_finRange, true_and, Bool.and_eq_true]

/-- R45: when the interrupt line is raised. -/
theorem irqLine_iff (s : State) : s.irqLine = true ↔ s.phase = .On ∧ s.irqMasked = false
    ∧ ((s.intrUsb.suspend = true ∧ s.intrUsbE.suspend = true) ∨ (s.intrUsb.resume = true ∧ s.intrUsbE.resume = true)
      ∨ (s.intrUsb.reset = true ∧ s.intrUsbE.reset = true)
      ∨ (∃ n, s.intrIn.get n = true ∧ s.intrInE.get n = true) ∨ (∃ n, s.intrOut.get n = true ∧ s.intrOutE.get n = true)
      ∨ s.dmaIntr ≠ 0) := by
  simp only [State.irqLine, UsbFlags.anyAnd, Bool.and_eq_true, Bool.or_eq_true, decide_eq_true_eq, Bool.not_eq_true',
    bankAnyAnd_iff, or_assoc, and_assoc]

/-- Settles O8: the IRQ step at the head of the program asks for its enabling; with no program the line decides; a faulted
state stops. -/
theorem stepServesTheLineOrHalts : Obligations.StepServesTheLineOrHalts := by
  refine ⟨fun s p hf hp => ?_, fun s hf hp => ⟨irqLine_iff s, fun hl => ?_, fun hl => ?_⟩, fun s r => step_of_fault⟩
  · have hn := (nextStep_irq Config.cfg hp).trans (irqFetch_eq p s)
    by_cases hen : s.phase = .On ∧ s.irqMasked = false
    · rw [if_pos hen] at hn ⊢; exact step_of_run hf hn
    · rw [if_neg hen] at hn ⊢; exact step_of_done hf hn
  · exact step_of_run hf (nextStep_of_line _ hp ((irqLine_iff s).2 hl))
  · exact step_of_done hf (nextStep_of_no_line _ hp (by rw [← Bool.not_eq_true, irqLine_iff]; exact hl))

/-- Settles O9: the row of the opcode, its class and its mask are asked in this order, each only where the earlier ones
pass. -/
theorem portRefusesInOrder : Obligations.PortRefusesInOrder := by
  intro s h t p hf hp
  have hn := nextStep_port Config.cfg hp
  refine ⟨fun hrow => ?_, fun r hrow hlen => ⟨fun hcls => ?_, fun hcls hbits => ?_⟩⟩
  · exact step_of_done hf (hn.trans (portFetch_of_unknown hrow t p s))
  · exact step_of_done hf (hn.trans (portFetch_of_not_command hrow hlen hcls p s))
  · exact step_of_done hf (hn.trans (portFetch_of_reserved hrow hlen hcls hbits p s))

end Sys2Proof.Machine
end

/-! ### What the operations write (R22, R33, R41 to R51) -/

section
namespace Sys2Proof.Machine

/-! #### The side of the state that only INIT, SHUTDOWN, RESETH and IRQ write -/

/-- `t` differs from `s` at most in the table, EP0's state, the buffers, the FIFOs, the endpoint flags, the mask, the logs,
the memory and the result word. -/
def SideKept (s t : State) : Prop :=
  t = { s with
    epOut := t.epOut, epIn := t.epIn, ep0state := t.ep0state, ctrlBuf := t.ctrlBuf, tx := t.tx, rx := t.rx
    index := t.index, csr0 := t.csr0, inCsr := t.inCsr, outCsr := t.outCsr, irqMasked := t.irqMasked
    upLog := t.upLog, txLog := t.txLog, mem := t.mem, result := t.result }

theorem SideKept.trans {s t u : State} (h : SideKept s t) (k : SideKept t u) : SideKept s u := by
  unfold SideKept at h k ⊢
  refine k.trans ?_
  rw [h]

/-- What the handlers and the FIFO operations write at most. -/
theorem HandlerFrame.eq {s t : State} (h : HandlerFrame s t) :
    t = { s with
      epOut := t.epOut, epIn := t.epIn, ep0state := t.ep0state, ctrlBuf := t.ctrlBuf, tx := t.tx, rx := t.rx
      index := t.index, csr0 := t.csr0, inCsr := t.inCsr, outCsr := t.outCsr, upLog := t.upLog, txLog := t.txLog
      mem := t.mem } := by
  obtain ⟨-, -, h1, h2, h3, h4, h5, h6, h7, h8, h9, h10, h11, h12, h13, h14, h15, h16, h17, h18, h19, h20, h21⟩ := h
  rw [← h1, ← h2, ← h3, ← h4, ← h5, ← h6, ← h7, ← h8, ← h9, ← h10, ← h11, ← h12, ← h13, ← h14, ← h15, ← h16, ← h17,
    ← h18, ← h19, ← h20, ← h21]

theorem HandlerFrame.sideKept {s t : State} (h : HandlerFrame s t) : SideKept s t := by
  have he := h.eq
  unfold SideKept
  rw [he]

/-- The loops over the table change the table, the FIFOs, `INDEX` and the flags of the data endpoints, and nothing else. -/
theorem LoopFrame.eq {s t : State} (h : LoopFrame s t) :
    t = { s with
      epOut := t.epOut, epIn := t.epIn, tx := t.tx, rx := t.rx, index := t.index, inCsr := t.inCsr, outCsr := t.outCsr } := by
  obtain ⟨h1, h2, h3, h4, h5, h6, h7, h8, h9, h10, h11, h12, h13, h14, h15, h16, h17, h18, h19, h20, h21, h22, h23, h24,
    h25, h26, h27⟩ := h
  rw [← h1, ← h2, ← h3, ← h4, ← h5, ← h6, ← h7, ← h8, ← h9, ← h10, ← h11, ← h12, ← h13, ← h14, ← h15, ← h16, ← h17,
    ← h18, ← h19, ← h20, ← h21, ← h22, ← h23, ← h24, ← h25, ← h26, ← h27]

/-- R250: the reset sequence clears `FADDR`, makes EP0 Idle, and writes the table, the FIFOs, the flags of the data endpoints,
`INDEX` and the enables of the endpoints; nothing else. -/
theorem resetSequence_eq (c : Cfg) (s : State) :
    resetSequence c s = { s with
      faddr := 0, ep0state := .Idle
      epOut := (resetSequence c s).epOut, epIn := (resetSequence c s).epIn
      tx := (resetSequence c s).tx, rx := (resetSequence c s).rx, index := (resetSequence c s).index
      inCsr := (resetSequence c s).inCsr, outCsr := (resetSequence c s).outCsr
      intrInE := (resetSequence c s).intrInE, intrOutE := (resetSequence c s).intrOutE } := by
  obtain ⟨m, hm, he⟩ := resetSequence_loop c s
  rw [he, hm.eq]
  rfl

@[simp] theorem resetSequence_ep0state (c : Cfg) (s : State) : (resetSequence c s).ep0state = .Idle := rfl
@[simp] theorem resetSequence_upLog (c : Cfg) (s : State) : (resetSequence c s).upLog = s.upLog := by
  rw [resetSequence_eq]
@[simp] theorem resetSequence_txLog (c : Cfg) (s : State) : (resetSequence c s).txLog = s.txLog := by
  rw [resetSequence_eq]
@[simp] theorem resetSequence_mem (c : Cfg) (s : State) : (resetSequence c s).mem = s.mem := by
  rw [resetSequence_eq]
@[simp] theorem resetSequence_memMap (c : Cfg) (s : State) : (resetSequence c s).memMap = s.memMap := by
  rw [resetSequence_eq]
@[simp] theorem resetSequence_fault (c : Cfg) (s : State) : (resetSequence c s).fault = s.fault := by
  rw [resetSequence_eq]
@[simp] theorem resetSequence_refused (c : Cfg) (s : State) : (resetSequence c s).refused = s.refused := by
  rw [resetSequence_eq]
@[simp] theorem resetSequence_result (c : Cfg) (s : State) : (resetSequence c s).result = s.result := by
  rw [resetSequence_eq]
@[simp] theorem resetSequence_ctrlBuf (c : Cfg) (s : State) : (resetSequence c s).ctrlBuf = s.ctrlBuf := by
  rw [resetSequence_eq]

/-- R175: CANCELALL makes EP0 Idle and writes the table, the FIFOs, the flags of the data endpoints and `INDEX`, and the mask
ends clear; nothing else. -/
theorem cancelAll_eq (s : State) :
    cancelAll s = { s with
      ep0state := .Idle, irqMasked := false
      epOut := (cancelAll s).epOut, epIn := (cancelAll s).epIn
      tx := (cancelAll s).tx, rx := (cancelAll s).rx, index := (cancelAll s).index
      inCsr := (cancelAll s).inCsr, outCsr := (cancelAll s).outCsr } := by
  obtain ⟨m, hm, he⟩ := cancelAll_loop s
  rw [he, hm.eq]
  rfl

@[simp] theorem cancelAll_ep0state (s : State) : (cancelAll s).ep0state = .Idle := rfl
@[simp] theorem cancelAll_upLog (s : State) : (cancelAll s).upLog = s.upLog := by rw [cancelAll_eq]
@[simp] theorem cancelAll_txLog (s : State) : (cancelAll s).txLog = s.txLog := by rw [cancelAll_eq]
@[simp] theorem cancelAll_mem (s : State) : (cancelAll s).mem = s.mem := by rw [cancelAll_eq]
@[simp] theorem cancelAll_memMap (s : State) : (cancelAll s).memMap = s.memMap := by rw [cancelAll_eq]
@[simp] theorem cancelAll_ctrlBuf (s : State) : (cancelAll s).ctrlBuf = s.ctrlBuf := by rw [cancelAll_eq]

/-! #### SEND's critical section -/

/-- The state in which SEND kicks the handler: interrupts masked, the descriptor recorded (R172). -/
def sendQueued (ep : EpNum) (e : Entry) (buf len : Word) (s : State) : State :=
  (setMask true s).putEntry ep .IN (e.accept buf len)

/-- SEND's critical section is the kicked handler on the recorded descriptor, then the mask cleared. -/
theorem sendKick_eq (ep : EpNum) (e : Entry) (buf len : Word) (s : State) :
    sendKick ep e buf len s =
      andThen (if ep = 0 then ep0send { sendQueued ep e buf len s with ep0state := .Transmitting }
        else inh ep (sendQueued ep e buf len s)) (fun u => .ok (setMask false u)) := rfl

/-- Everything SEND's critical section can do when it ends well (R172). -/
theorem sendKick_ok {ep : EpNum} {e : Entry} {buf len : Word} {s t : State} (h : sendKick ep e buf len s = .ok t) :
    ∃ u, t = setMask false u
      ∧ ((ep = 0 ∧ ep0send { sendQueued ep e buf len s with ep0state := .Transmitting } = .ok u)
        ∨ (ep ≠ 0 ∧ inh ep (sendQueued ep e buf len s) = .ok u)) := by
  rw [sendKick_eq] at h
  obtain ⟨u, hu, ht⟩ := andThen_ok.1 h
  refine ⟨u, (Except.ok.inj ht).symm, ?_⟩
  split at hu
  · exact .inl ⟨‹_›, hu⟩
  · exact .inr ⟨‹_›, hu⟩

/-- The frame of SEND's critical section, with interrupts masked throughout. -/
theorem frame_sendKick {ep : EpNum} {e : Entry} {buf len : Word} {s t : State} (he : s.entry ep .IN = some e)
    (h : sendKick ep e buf len s = .ok t) : ∃ u, t = setMask false u ∧ HandlerFrame (setMask true s) u := by
  obtain ⟨u, rfl, ⟨-, hu⟩ | ⟨-, hu⟩⟩ := sendKick_ok h
  all_goals
    have hq : HandlerFrame (setMask true s) (sendQueued ep e buf len s) := frame_putEntry (e := e) (by simpa using he) rfl
    refine ⟨u, rfl, ?_⟩
  · have h0 : HandlerFrame (sendQueued ep e buf len s) { sendQueued ep e buf len s with ep0state := .Transmitting } := by
      constructor
      case table => exact fun _ d => by cases d <;> rfl
      case logs => exact LogsGrow.of_eq rfl rfl
      all_goals rfl
    exact hq.trans (h0.trans (frame_ep0send hu))
  · exact hq.trans (frame_inh hu)

/-- The frame of SEND, mask and log included. -/
theorem send_frame {c : Cfg} {ep : EpNum} {e : Entry} {buf len : Word} {s t : State} (he : s.entry ep .IN = some e)
    (h : send c ep e buf len s = .ok t) :
    SideKept s t ∧ TableKept s t ∧ LogsGrow s t ∧ t.result = s.result ∧ (s.irqMasked = false → t.irqMasked = false) := by
  obtain ⟨-, -, -, rfl⟩ | ⟨-, -, -, -, hk⟩ := send_ok h
  · exact ⟨rfl, fun _ _ => rfl, LogsGrow.refl t, rfl, id⟩
  · obtain ⟨u, rfl, hu⟩ := frame_sendKick he hk
    have hs : SideKept (setMask true s) u := hu.sideKept
    refine ⟨?_, ?_, hu.logs, hu.result, fun _ => rfl⟩
    · exact (show SideKept s (setMask true s) from rfl).trans (hs.trans rfl)
    · intro n d
      have := hu.table n d
      simpa using this

/-- The frame of RECV. -/
theorem recv_frame {c : Cfg} {ep : EpNum} {e : Entry} {buf len : Word} {s t : State} (he : s.entry ep .OUT = some e)
    (h : recv c ep e buf len s = .ok t) :
    SideKept s t ∧ TableKept s t ∧ LogsGrow s t ∧ t.result = s.result ∧ (s.irqMasked = false → t.irqMasked = false) := by
  obtain ⟨-, -, -, rfl⟩ | ⟨-, -, -, -, rfl⟩ := recv_ok h
  · exact ⟨rfl, fun _ _ => rfl, LogsGrow.refl t, rfl, id⟩
  · have hu : HandlerFrame (setMask true s) ((setMask true s).putEntry ep .OUT (e.accept buf len)) :=
      frame_putEntry (e := e) (by simpa using he) rfl
    refine ⟨(show SideKept s (setMask true s) from rfl).trans (hu.sideKept.trans rfl), ?_, hu.logs, hu.result, fun _ => rfl⟩
    intro n d
    have := hu.table n d
    simpa using this

theorem frame_putSendStall (ep : EpNum) (d : Dir) (st : Bool) (s : State) : HandlerFrame s (putSendStall ep d st s) := by
  constructor
  case table => exact fun n d' => by simp
  case logs => exact LogsGrow.of_eq (by simp) (by simp)
  all_goals simp

/-! #### What every operation keeps, INIT, SHUTDOWN, RESETH and IRQ apart -/

theorem Completes.sideKept {i : Instr} {s t : State} (h : Completes i s t) (hinit : i ≠ .init) (hshut : i ≠ .shutdown)
    (hreset : i ≠ .reseth) (hirq : i ≠ .irq) : SideKept s t := by
  cases h with
  | init => exact absurd rfl hinit
  | shutdown => exact absurd rfl hshut
  | reseth => exact absurd rfl hreset
  | irq => exact absurd rfl hirq
  | send hon he h => exact (send_frame he h).1
  | recv hon he h => exact (recv_frame he h).1
  | cancelall hon =>
    have h := cancelAll_eq s
    unfold SideKept
    generalize cancelAll s = t at h ⊢
    rw [h]
  | stall hon => exact ((frame_selectEp _ _).trans (frame_putSendStall _ _ _ _)).sideKept
  | isstalled hon => rfl
  | portspeed hon => rfl
  | connected hon => rfl
  | ctrlh h => exact (frame_ctrlh h).sideKept
  | inh h => exact (frame_inh h).sideKept
  | outh h => exact (frame_outh h).sideKept
  | select => rfl
  | drain h => exact (frame_drain h).sideKept
  | fill h => exact (frame_fill h).sideKept
  | flush => exact (frame_flush _ _ _).sideKept
  | ep0send h => exact (frame_ep0send h).sideKept
  | onctrlreq => rfl
  | onxferdone => rfl
  | onbusreset => rfl
  | logev => rfl

/-! #### IRQ -/

/-- The notifications of the bus events of R160, in their order. -/
def usbNotifications (u : UsbFlags) : List Notification :=
  (if u.reset then [.onBusReset] else []) ++ (if u.suspend then [.log .suspend] else [])
    ++ (if u.resume then [.log .resume] else [])

/-- The bus events of R160 without a bus reset. -/
theorem usbEvents_of_no_reset (c : Cfg) {u : UsbFlags} (s : State) (h : u.reset = false) :
    usbEvents c u s = { s with upLog := s.upLog ++ usbNotifications u } := by
  unfold usbEvents emit usbNotifications
  rw [h]
  cases u.suspend <;> cases u.resume
  all_goals simp only [Bool.false_eq_true, if_false, if_true, List.append_nil, List.append_assoc, List.nil_append]

/-- The bus events of R160 with a bus reset. -/
theorem usbEvents_of_reset (c : Cfg) {u : UsbFlags} (s : State) (h : u.reset = true) :
    usbEvents c u s = { resetSequence c s with upLog := s.upLog ++ usbNotifications u } := by
  have hlog := resetSequence_upLog c s
  generalize hr : resetSequence c s = r at hlog
  unfold usbEvents reseth emit usbNotifications
  rw [h, hr]
  cases u.suspend <;> cases u.resume
  all_goals simp only [Bool.false_eq_true, if_false, if_true, List.append_nil, List.append_assoc, hlog]

/-- What the bus events write at most. -/
theorem usbEvents_frame (c : Cfg) (u : UsbFlags) (s : State) :
    usbEvents c u s = { s with
      epOut := (usbEvents c u s).epOut, epIn := (usbEvents c u s).epIn, ep0state := (usbEvents c u s).ep0state
      tx := (usbEvents c u s).tx, rx := (usbEvents c u s).rx, index := (usbEvents c u s).index
      inCsr := (usbEvents c u s).inCsr, outCsr := (usbEvents c u s).outCsr, faddr := (usbEvents c u s).faddr
      intrInE := (usbEvents c u s).intrInE, intrOutE := (usbEvents c u s).intrOutE
      upLog := s.upLog ++ usbNotifications u } := by
  cases hr : u.reset
  · rw [usbEvents_of_no_reset c s hr]
  · rw [usbEvents_of_reset c s hr]
    have h := resetSequence_eq c s
    generalize resetSequence c s = r at h ⊢
    rw [h]

/-- The routing of an IRQ is its handlers, then the bus events. -/
theorem route_ok {c : Cfg} {snap s t : State} (h : route c snap s = .ok t) :
    ∃ u, HandlerFrame s u ∧ t = usbEvents c snap.intrUsb u := by
  obtain ⟨s1, h1, h⟩ := andThen_ok.1 h
  obtain ⟨s2, h2, h⟩ := andThen_ok.1 h
  obtain ⟨s3, h3, h⟩ := andThen_ok.1 h
  refine ⟨s3, HandlerFrame.trans ?_ ((frame_forNumbers (fun _ _ _ => frame_inh) h2).trans
    (frame_forNumbers (fun _ _ _ => frame_outh) h3)), (Except.ok.inj h).symm⟩
  split at h1
  · exact frame_ctrlh h1
  · exact Except.ok.inj h1 ▸ HandlerFrame.refl s

theorem usbFlags_isZero_iff (u : UsbFlags) : u.isZero = true ↔ u = ⟨false, false, false⟩ := by
  obtain ⟨a, b, c⟩ := u
  cases a <;> cases b <;> cases c <;> decide

/-- A dispatcher loop whose bits are all clear calls nothing. -/
theorem forNumbers_of_no_bits {bits : Bank Bool} (f : EpNum → State → Result) (h : ∀ n, bits.get n = false)
    (ns : List EpNum) (s : State) : forNumbers ns (ifBit bits f) s = .ok s := by
  induction ns with
  | nil => rfl
  | cons n t ih => rw [forNumbers, ifBit, h n, if_neg Bool.false_ne_true, andThen_of_ok, ih]

/-- The routing of a snapshot without endpoint flags is the bus events alone. -/
theorem route_of_no_endpoint {c : Cfg} {snap : State} (hin : ∀ n, snap.intrIn.get n = false)
    (hout : ∀ n, snap.intrOut.get n = false) (s : State) : route c snap s = .ok (usbEvents c snap.intrUsb s) := by
  rw [route, hin 0, if_neg Bool.false_ne_true, andThen_of_ok, forNumbers_of_no_bits _ hin, andThen_of_ok,
    forNumbers_of_no_bits _ hout, andThen_of_ok]

/-- IRQ is the routing of its snapshot: with nothing pending (R162) there is nothing to route. -/
theorem irq_eq_route (c : Cfg) (s : State) : irq c s = route c s (clearPending s) := by
  unfold irq
  split
  · rename_i hz
    simp only [State.noPending, bankIsZero, Bool.and_eq_true, List.all_eq_true, List.mem_finRange, forall_const,
      Bool.not_eq_true', usbFlags_isZero_iff] at hz
    obtain ⟨⟨⟨husb, hin⟩, hout⟩, -⟩ := hz
    rw [route_of_no_endpoint hin hout, husb]
    rfl
  · rfl

/-- Everything IRQ can do when it ends well (R160): the registers are cleared, the handlers run, then the bus events. -/
theorem irq_frame {c : Cfg} {s t : State} (h : irq c s = .ok t) :
    ∃ u, HandlerFrame (clearPending s) u ∧ t = usbEvents c s.intrUsb u :=
  route_ok ((irq_eq_route c s).symm.trans h)

/-- What IRQ writes at most; the four status registers end clear. -/
theorem irq_eq {c : Cfg} {s t : State} (h : irq c s = .ok t) :
    t = { s with
      epOut := t.epOut, epIn := t.epIn, ep0state := t.ep0state, ctrlBuf := t.ctrlBuf, tx := t.tx, rx := t.rx
      index := t.index, csr0 := t.csr0, inCsr := t.inCsr, outCsr := t.outCsr, faddr := t.faddr
      intrInE := t.intrInE, intrOutE := t.intrOutE, upLog := t.upLog, txLog := t.txLog, mem := t.mem
      intrUsb := UsbFlags.zero, intrIn := Bank.all false, intrOut := Bank.all false, dmaIntr := 0 } := by
  obtain ⟨u, hu, rfl⟩ := irq_frame h
  have h1 := hu.eq
  have h2 := usbEvents_frame c s.intrUsb u
  generalize usbEvents c s.intrUsb u = t at h2 ⊢
  rw [h2, h1]
  rfl

end Sys2Proof.Machine
end

/-! ### The marks, the result word and the logs (R48 to R50, R108, R211) -/

section
namespace Sys2Proof.Machine

/-! #### The marks -/

/-- No operation that ends well touches a mark (R50). -/
theorem Completes.marks {i : Instr} {s t : State} (h : Completes i s t) : t.fault = s.fault ∧ t.refused = s.refused := by
  by_cases hinit : i = .init
  · subst hinit; cases h
    simp only [attach, powerUp, resetSequence_fault, resetSequence_refused, and_self]
  by_cases hshut : i = .shutdown
  · subst hshut; cases h; exact ⟨rfl, rfl⟩
  by_cases hreset : i = .reseth
  · subst hreset; cases h
    simp only [Machine.reseth, emit, resetSequence_fault, resetSequence_refused, and_self]
  by_cases hirq : i = .irq
  · subst hirq
    cases h with
    | irq h => rw [irq_eq h]; exact ⟨rfl, rfl⟩
  have hk := h.sideKept hinit hshut hreset hirq
  unfold SideKept at hk
  rw [hk]
  exact ⟨rfl, rfl⟩

/-- A move of the bus agent writes only what R190 lists. -/
theorem apply_eq (m : BusMove) (s : State) :
    m.apply s = { s with
      csr0 := (m.apply s).csr0, inCsr := (m.apply s).inCsr, outCsr := (m.apply s).outCsr
      tx := (m.apply s).tx, rx := (m.apply s).rx, intrUsb := (m.apply s).intrUsb
      intrIn := (m.apply s).intrIn, intrOut := (m.apply s).intrOut, hsMode := (m.apply s).hsMode
      faddr := (m.apply s).faddr } := by
  cases m with
  | stallSent n d =>
    by_cases hn : n = 0
    · simp only [BusMove.apply, stallSentMove, if_pos hn]; rfl
    · cases d <;> simp only [BusMove.apply, stallSentMove, if_neg hn] <;> rfl
  | _ => rfl

/-- An operation keeps the reason of a refusal that is already marked. -/
theorem exec_keeps_refused {i : Instr} {s t : State} {r : RefusalReason} (h : exec i s = .next t)
    (hr : s.refused = some r) : t.refused = some r := by
  rcases exec_next h with h | ⟨f, rfl⟩ | ⟨f, rfl⟩
  · rw [h.marks.2, hr]
  · exact hr
  · change s.refused.or _ = _
    rw [hr]; rfl

/-- An operation keeps the reason of a fault that is already marked (log 23). -/
theorem exec_keeps_fault {i : Instr} {s t : State} {r : FaultReason} (h : exec i s = .next t)
    (hr : s.fault = some r) : t.fault = some r := by
  rcases exec_next h with h | ⟨f, rfl⟩ | ⟨f, rfl⟩
  · rw [h.marks.1, hr]
  · change s.fault.or _ = _
    rw [hr]; rfl
  · exact hr

/-- A step keeps the reason of the first refusal. -/
theorem Advances.keeps_refused {s t : State} {r : RefusalReason} (h : Advances s t) (hr : s.refused = some r) :
    t.refused = some r := by
  cases h with
  | operation h => exact exec_keeps_refused h hr
  | idle => exact hr
  | refusal p f =>
    change s.refused.or _ = _
    rw [hr]; rfl
  | bus hup hpre => rw [apply_eq]; exact hr
  | vbus b p => exact hr

/-- Settles O10: an operation that ends well touches no mark, and the two markings keep a reason that is there. -/
theorem marksAreSticky : Obligations.MarksAreSticky :=
  ⟨rfl, rfl, fun _ _ _ h hr => (step_next h).2.keeps_refused hr, fun _ _ h => (step_next h).1,
    fun _ _ _ _ h hr => exec_keeps_fault h hr⟩

/-- Settles O53: the move is the step, is taken only with the bus up, and `apply_eq` is the list of R190. -/
theorem busMovesTouchOnlyTheBusSide : Obligations.BusMovesTouchOnlyTheBusSide := by
  intro s m p hf hp
  have hstep := step_of_done hf (nextStep_bus _ hp)
  refine ⟨hstep, fun t ht => ?_⟩
  rw [hstep] at ht
  obtain ⟨hup, -, rfl⟩ := busStep_next ht
  obtain ⟨hon, hconn⟩ := (busUp_iff _).1 hup
  exact ⟨hon, hconn, apply_eq m _⟩

/-! #### The result word -/

/-- Only the three queries return a result word (R108). -/
theorem Completes.result {i : Instr} {s t : State} (h : Completes i s t) (hstalled : ∀ ep d, i ≠ .isstalled ep d)
    (hspeed : i ≠ .portspeed) (hconn : i ≠ .connected) : t.result = s.result := by
  cases h with
  | init hoff => simp only [attach, powerUp, resetSequence_result]
  | shutdown hon => rfl
  | send hon he h => exact (send_frame he h).2.2.2.1
  | recv hon he h => exact (recv_frame he h).2.2.2.1
  | cancelall hon => rw [cancelAll_eq]
  | stall hon => simp
  | isstalled hon => exact absurd rfl (hstalled _ _)
  | portspeed hon => exact absurd rfl hspeed
  | connected hon => exact absurd rfl hconn
  | irq h => rw [irq_eq h]
  | ctrlh h => exact (frame_ctrlh h).result
  | inh h => exact (frame_inh h).result
  | outh h => exact (frame_outh h).result
  | reseth => simp only [Machine.reseth, emit, resetSequence_result]
  | select => rfl
  | drain h => exact (frame_drain h).result
  | fill h => exact (frame_fill h).result
  | flush => simp
  | ep0send h => exact (frame_ep0send h).result
  | onctrlreq => rfl
  | onxferdone => rfl
  | onbusreset => rfl
  | logev => rfl

/-! #### The logs -/

/-- What the bus events add to `up_log` is no completion. -/
theorem usbEvents_logs (c : Cfg) (u : UsbFlags) (s : State) : LogsGrow s (usbEvents c u s) := by
  have htx : (usbEvents c u s).txLog = s.txLog := by rw [usbEvents_frame]
  have hup : (usbEvents c u s).upLog = s.upLog ++ usbNotifications u := by rw [usbEvents_frame]
  refine ⟨⟨usbNotifications u, hup, fun n d status bytes hm => ?_⟩, by rw [htx]⟩
  unfold usbNotifications at hm
  cases u.reset <;> cases u.suspend <;> cases u.resume <;> simp at hm

/-- What IRQ adds to the logs stands at the end, and its completions are good ones (R211). -/
theorem irq_logs {c : Cfg} {s t : State} (h : irq c s = .ok t) : LogsGrow s t := by
  obtain ⟨u, hu, rfl⟩ := irq_frame h
  exact (show LogsGrow s u from hu.logs).trans (usbEvents_logs c _ u)

/-- What an operation other than a notification adds to the logs (R211). -/
theorem Completes.logsGrow {i : Instr} {s t : State} (h : Completes i s t) (hi : i.cls ≠ .notification) :
    LogsGrow s t := by
  cases h with
  | init hoff =>
    exact LogsGrow.of_eq (by simp only [attach, powerUp, resetSequence_upLog])
      (by simp only [attach, powerUp, resetSequence_txLog])
  | shutdown hon => exact LogsGrow.of_eq rfl rfl
  | send hon he h => exact (send_frame he h).2.2.1
  | recv hon he h => exact (recv_frame he h).2.2.1
  | cancelall hon => exact LogsGrow.of_eq (cancelAll_upLog s) (cancelAll_txLog s)
  | stall hon => exact LogsGrow.of_eq (by simp) (by simp)
  | isstalled hon => exact LogsGrow.of_eq rfl rfl
  | portspeed hon => exact LogsGrow.of_eq rfl rfl
  | connected hon => exact LogsGrow.of_eq rfl rfl
  | irq h => exact irq_logs h
  | ctrlh h => exact (frame_ctrlh h).logs
  | inh h => exact (frame_inh h).logs
  | outh h => exact (frame_outh h).logs
  | reseth =>
    exact (LogsGrow.of_eq (resetSequence_upLog _ _) (resetSequence_txLog _ _)).trans
      (frame_emit (by simp [CompletionsOk]) _).logs
  | select => exact LogsGrow.of_eq rfl rfl
  | drain h => exact (frame_drain h).logs
  | fill h => exact (frame_fill h).logs
  | flush => exact (frame_flush _ _ _).logs
  | ep0send h => exact (frame_ep0send h).logs
  | onctrlreq => exact absurd rfl hi
  | onxferdone => exact absurd rfl hi
  | onbusreset => exact absurd rfl hi
  | logev => exact absurd rfl hi

theorem emit_logs_prefix (x : Notification) (s : State) :
    s.upLog <+: (emit x s).upLog ∧ s.txLog <+: (emit x s).txLog :=
  ⟨List.prefix_append _ _, List.prefix_refl _⟩

/-- Every operation extends both logs. -/
theorem Completes.logs_prefix {i : Instr} {s t : State} (h : Completes i s t) :
    s.upLog <+: t.upLog ∧ s.txLog <+: t.txLog := by
  by_cases hi : i.cls = .notification
  · cases h with
    | onctrlreq => exact emit_logs_prefix _ _
    | onxferdone => exact emit_logs_prefix _ _
    | onbusreset => exact emit_logs_prefix _ _
    | logev => exact emit_logs_prefix _ _
    | _ => cases hi
  · obtain ⟨⟨l, hl, -⟩, htx⟩ := h.logsGrow hi
    exact ⟨⟨l, hl.symm⟩, htx⟩

/-- A step extends both logs. -/
theorem Advances.logs_prefix {s t : State} (h : Advances s t) : s.upLog <+: t.upLog ∧ s.txLog <+: t.txLog := by
  cases h with
  | operation h =>
    rcases exec_next h with h | ⟨f, rfl⟩ | ⟨f, rfl⟩
    · exact h.logs_prefix
    · exact ⟨List.prefix_refl _, List.prefix_refl _⟩
    · exact ⟨List.prefix_refl _, List.prefix_refl _⟩
  | idle => exact ⟨List.prefix_refl _, List.prefix_refl _⟩
  | refusal p r => exact ⟨List.prefix_refl _, List.prefix_refl _⟩
  | bus hup hpre => rw [apply_eq]; exact ⟨List.prefix_refl _, List.prefix_refl _⟩
  | vbus b p => exact ⟨List.prefix_refl _, List.prefix_refl _⟩

/-- Settles O58: an operation, a move and a refusal each extend the two logs. -/
theorem logsOnlyGrow : Obligations.LogsOnlyGrow := fun _ _ h => (step_next h).2.logs_prefix

/-- Settles O51: the completions that the handlers emit are for data endpoints and report status 0; a fault and a refusal
add nothing. -/
theorem completionsAreForDataEndpoints : Obligations.CompletionsAreForDataEndpoints := by
  intro i s t hi h
  rcases exec_next h with h | ⟨f, rfl⟩ | ⟨f, rfl⟩
  · exact (h.logsGrow hi).1
  · exact ⟨[], (List.append_nil _).symm, CompletionsOk.nil⟩
  · exact ⟨[], (List.append_nil _).symm, CompletionsOk.nil⟩

/-! #### After an IRQ step -/

/-- An IRQ step that answers a next state ends well or faults. -/
theorem exec_irq_next {s t : State} (h : exec .irq s = .next t) : (∃ r, t = s.markFault r) ∨ irq Config.cfg s = .ok t := by
  rcases exec_next_of_not_command (by decide) h with h | h
  · cases h with | irq h => exact .inr h
  · exact .inl h

/-- Settles O29: the snapshot clears the four registers, and neither the handlers nor the bus events write them. -/
theorem irqLeavesNothingPending : Obligations.IrqLeavesNothingPending := by
  intro s t h
  refine (exec_irq_next h).imp_right fun h => ?_
  rw [irq_eq h]
  simp [State.noPending, UsbFlags.isZero, UsbFlags.zero, bankIsZero]

/-- An entry after the reset sequence is empty (R28, R250). -/
theorem resetSequence_entry_empty {c : Cfg} {s : State} {n : EpNum} {d : Dir} {e : Entry}
    (h : (resetSequence c s).entry n d = some e) :
    e.len = 0 ∧ e.prog = 0 ∧ e.buf = if n = 0 ∧ d = .OUT then .ctrl else .none := by
  rw [resetSequence_entry] at h
  obtain ⟨f, -, rfl⟩ := Option.map_eq_some_iff.1 h
  exact ⟨rfl, rfl, rfl⟩

/-- Settles O30: the bus reset comes after every handler of the snapshot, and only suspend and resume after it. -/
theorem irqWithResetLeavesTheTableEmpty : Obligations.IrqWithResetLeavesTheTableEmpty := by
  intro s t hreset h
  refine (exec_irq_next h).imp_right fun h => ?_
  obtain ⟨u, -, rfl⟩ := irq_frame h
  have hempty : ∀ n d e, (resetSequence Config.cfg u).entry n d = some e → _ := fun _ _ _ => resetSequence_entry_empty
  have hidle := resetSequence_ep0state Config.cfg u
  rw [usbEvents_of_reset _ _ hreset, usbNotifications, hreset]
  generalize resetSequence Config.cfg u = r at hempty hidle ⊢
  refine ⟨hidle, fun n d e he => hempty n d e ?_, u.upLog, by simp only [if_true, List.append_assoc]⟩
  cases d <;> exact he

end Sys2Proof.Machine
end

/-! ### The commands: their checks, and the ones that run no handler (R106, R170 to R179) -/

section
namespace Sys2Proof.Machine

/-! #### The checks that the commands share -/

theorem commandCheck_of_off {s : State} (hoff : s.phase = .Off) (found : Bool) (f : State → Result) :
    commandCheck s found f = .error (.refuse .NotInitialised) := by
  simp only [commandCheck, hoff, if_true]

theorem commandCheck_of_absent {s : State} (hon : s.phase = .On) (f : State → Result) :
    commandCheck s false f = .error (.refuse .NoSuchEndpoint) := by
  simp only [commandCheck, hon, reduceCtorEq, if_false, if_true]

theorem present_of_entry {s : State} {ep : EpNum} {d : Dir} {e : Entry} (he : s.entry ep d = some e) :
    s.present ep d = true := by
  rw [State.present, he]; rfl

theorem present_of_no_entry {s : State} {ep : EpNum} {d : Dir} (he : s.entry ep d = none) : s.present ep d = false := by
  rw [State.present, he]; rfl

theorem withEntry_of_entry {s : State} {ep : EpNum} {d : Dir} {e : Entry} (hon : s.phase = .On)
    (he : s.entry ep d = some e) (f : Entry → State → Result) : withEntry s ep d f = f e s := by
  rw [withEntry, present_of_entry he, commandCheck_on hon]
  simp only [he]

theorem withEntry_of_no_entry {s : State} {ep : EpNum} {d : Dir} (hon : s.phase = .On)
    (he : s.entry ep d = none) (f : Entry → State → Result) :
    withEntry s ep d f = .error (.refuse .NoSuchEndpoint) := by
  rw [withEntry, present_of_no_entry he, commandCheck_of_absent hon]

section
variable {s : State} {ep : EpNum} {e : Entry} (hon : s.phase = .On)
include hon

theorem exec_send_of_entry (he : s.entry ep .IN = some e) (buf len : Word) :
    exec (.send ep buf len) s = conclude s (send Config.cfg ep e buf len s) := by
  rw [exec_send, withEntry_of_entry hon he]

theorem exec_recv_of_entry (he : s.entry ep .OUT = some e) (buf len : Word) :
    exec (.recv ep buf len) s = conclude s (recv Config.cfg ep e buf len s) := by
  rw [exec_recv, withEntry_of_entry hon he]

end

/-! #### The checks of SEND and RECV -/

section
variable {c : Cfg} {s : State} {buf len : Word} {busy : Bool} (f : State → Result)

theorem transferCheck_null (hbuf : buf = 0) (hlen : len ≠ 0) :
    transferCheck c s buf len busy f = .error (.refuse .NullBufferWithLength) := if_pos ⟨hbuf, hlen⟩

theorem transferCheck_badRegion (hbuf : buf ≠ 0) (hadmit : admits c s buf.toNat len.toNat = false) :
    transferCheck c s buf len busy f = .error (.refuse .BadRegion) := by
  rw [transferCheck, if_neg fun h => hbuf h.1, if_pos ⟨hbuf, hadmit⟩]

theorem transferCheck_admitted (hnull : buf = 0 → len = 0) (hadmit : buf ≠ 0 → admits c s buf.toNat len.toNat = true) :
    transferCheck c s buf len busy f = if busy then .error (.refuse .Busy) else f s := by
  rw [transferCheck, if_neg fun h => h.2 (hnull h.1), if_neg fun h => by simp [hadmit h.1] at h]

end

/-- The busy test of SEND (R172): a transfer queued, or a control transfer under way. -/
def sendBusy (ep : EpNum) (e : Entry) (s : State) : Bool :=
  decide (e.buf ≠ .none) || (decide (ep = 0) && decide (s.ep0state ≠ .Idle))

theorem sendBusy_iff (ep : EpNum) (e : Entry) (s : State) :
    sendBusy ep e s = true ↔ e.buf ≠ .none ∨ (ep = 0 ∧ s.ep0state ≠ .Idle) := by
  simp only [sendBusy, Bool.or_eq_true, Bool.and_eq_true, decide_eq_true_eq]

theorem send_eq_transferCheck {c : Cfg} {ep : EpNum} {buf len : Word} (h : ¬(ep = 0 ∧ buf = 0 ∧ len = 0)) (e : Entry)
    (s : State) :
    send c ep e buf len s = transferCheck c s buf len (sendBusy ep e s) (sendKick ep e buf len) := if_neg h

theorem send_null_ep0 (c : Cfg) (e : Entry) (s : State) : send c 0 e 0 0 s = .ok s := rfl

/-- SEND reaches its critical section when no test of R172 refuses it. -/
theorem send_eq_sendKick {c : Cfg} {ep : EpNum} {e : Entry} {buf len : Word} {s : State}
    (hack : ¬(ep = 0 ∧ buf = 0 ∧ len = 0)) (hnull : buf = 0 → len = 0)
    (hadmit : buf ≠ 0 → admits c s buf.toNat len.toNat = true) (hfree : e.buf = .none) (hidle : ep = 0 → s.ep0state = .Idle) :
    send c ep e buf len s = sendKick ep e buf len s := by
  have hbusy : ¬ sendBusy ep e s = true := by
    rw [sendBusy_iff]
    rintro (h | ⟨h0, h⟩)
    · exact h hfree
    · exact h (hidle h0)
  rw [send_eq_transferCheck hack, transferCheck_admitted _ hnull hadmit, if_neg hbusy]

theorem recv_eq_transferCheck {c : Cfg} {ep : EpNum} (h : ep ≠ 0) (e : Entry) (buf len : Word) (s : State) :
    recv c ep e buf len s = transferCheck c s buf len (decide (e.buf ≠ .none)) (recvRecord ep e buf len) := if_neg h

theorem recv_null_ep0 (c : Cfg) (e : Entry) (s : State) : recv c 0 e 0 0 s = .ok s := rfl

theorem recv_ep0_refused (c : Cfg) (e : Entry) {buf len : Word} (h : ¬(buf = 0 ∧ len = 0)) (s : State) :
    recv c 0 e buf len s = .error (.refuse .ControlReceiveUnsupported) := if_neg h

/-! #### The statements about refusals -/

/-- Settles O13: every command but INIT asks the phase first, and INIT asks it for itself. -/
theorem commandsRefusedByPhase : Obligations.CommandsRefusedByPhase := by
  refine ⟨fun i s hcls hinit hoff => ?_, fun s hon => ?_⟩
  · cases i with
    | init => exact absurd rfl hinit
    | shutdown => rw [exec_shutdown, commandCheck_of_off hoff, conclude_refuse]
    | send ep buf len => rw [exec_send, withEntry, commandCheck_of_off hoff, conclude_refuse]
    | recv ep buf len => rw [exec_recv, withEntry, commandCheck_of_off hoff, conclude_refuse]
    | cancelall => rw [exec_cancelall, commandCheck_of_off hoff, conclude_refuse]
    | stall ep d st => rw [exec_stall, commandCheck_of_off hoff, conclude_refuse]
    | isstalled ep d => rw [exec_isstalled, commandCheck_of_off hoff, conclude_refuse]
    | portspeed => rw [exec_portspeed, commandCheck_of_off hoff, conclude_refuse]
    | connected => rw [exec_connected, commandCheck_of_off hoff, conclude_refuse]
    | _ => cases hcls
  · rw [exec_init, init, if_pos hon, conclude_refuse]

/-- Settles O14: the check of the entry comes right after that of the phase. -/
theorem absentEndpointRefused : Obligations.AbsentEndpointRefused := by
  intro s ep d buf len st hon
  refine ⟨fun he => ?_, fun he => ?_, fun he => ⟨?_, ?_⟩⟩
  · rw [exec_send, withEntry_of_no_entry hon he, conclude_refuse]
  · rw [exec_recv, withEntry_of_no_entry hon he, conclude_refuse]
  · rw [exec_stall, present_of_no_entry he, commandCheck_of_absent hon, conclude_refuse]
  · rw [exec_isstalled, present_of_no_entry he, commandCheck_of_absent hon, conclude_refuse]

/-- Settles O15: the tests of `transferCheck` in their order, the busy test last. -/
theorem sendRefusals : Obligations.SendRefusals := by
  intro s ep e buf len hon he
  have busy_refused (hack : ¬(ep = 0 ∧ buf = 0 ∧ len = 0)) (hnull : buf = 0 → len = 0)
      (hadmit : buf ≠ 0 → admits Config.cfg s buf.toNat len.toNat = true)
      (hbusy : e.buf ≠ .none ∨ (ep = 0 ∧ s.ep0state ≠ .Idle)) :
      exec (.send ep buf len) s = .next (s.markRefused .Busy) := by
    rw [exec_send_of_entry hon he, send_eq_transferCheck hack, transferCheck_admitted _ hnull hadmit,
      if_pos ((sendBusy_iff ep e s).2 hbusy), conclude_refuse]
  refine ⟨fun hbuf hlen => ?_, fun hbuf hadmit => ?_, fun hbuf hadmit hbusy => ?_, fun hbuf hlen hep hfree => ?_⟩
  · rw [exec_send_of_entry hon he, send_eq_transferCheck fun h => hlen h.2.2, transferCheck_null _ hbuf hlen,
      conclude_refuse]
  · rw [exec_send_of_entry hon he, send_eq_transferCheck fun h => hbuf h.2.1, transferCheck_badRegion _ hbuf hadmit,
      conclude_refuse]
  · exact busy_refused (fun h => hbuf h.2.1) (fun h => absurd h hbuf) (fun _ => hadmit) hbusy
  · exact busy_refused (fun h => hep h.1) (fun _ => hlen) (fun h => absurd hbuf h) (.inl hfree)

/-- Settles O16: endpoint 0 receives nothing; the tests of `transferCheck` in their order for the others. -/
theorem recvRefusals : Obligations.RecvRefusals := by
  intro s ep e buf len hon he
  rw [exec_recv_of_entry hon he]
  have busy_refused (hep : ep ≠ 0) (hnull : buf = 0 → len = 0)
      (hadmit : buf ≠ 0 → admits Config.cfg s buf.toNat len.toNat = true) (hbusy : e.buf ≠ .none) :
      conclude s (recv Config.cfg ep e buf len s) = .next (s.markRefused .Busy) := by
    rw [recv_eq_transferCheck hep, transferCheck_admitted _ hnull hadmit, if_pos (decide_eq_true hbusy), conclude_refuse]
  refine ⟨fun hep h => ?_, fun hep hbuf hlen => ?_, fun hep hbuf hadmit => ?_, fun hep hbuf hadmit hbusy => ?_,
    fun hep hbuf hlen hbusy => ?_⟩
  · subst hep
    rw [recv_ep0_refused _ _ (by tauto), conclude_refuse]
  · rw [recv_eq_transferCheck hep, transferCheck_null _ hbuf hlen, conclude_refuse]
  · rw [recv_eq_transferCheck hep, transferCheck_badRegion _ hbuf hadmit, conclude_refuse]
  · exact busy_refused hep (fun h => absurd h hbuf) (fun _ => hadmit) hbusy
  · exact busy_refused hep (fun _ => hlen) (fun h => absurd hbuf h) hbusy

/-! #### The commands that run no handler -/

/-- Settles O12: SHUTDOWN passes the check of the phase and is one update. -/
theorem shutdownResult : Obligations.ShutdownResult := by
  intro s hon
  rw [exec_shutdown, commandCheck_on hon, conclude_ok]
  rfl

/-- Settles O18: the first test of SEND and of RECV. -/
theorem nullAcknowledgementsDoNothing : Obligations.NullAcknowledgementsDoNothing := by
  intro s hon
  refine ⟨fun h => ?_, fun h => ?_⟩
  all_goals obtain ⟨e, he⟩ := Option.isSome_iff_exists.1 h
  · rw [exec_send_of_entry hon he, send_null_ep0, conclude_ok]
  · rw [exec_recv_of_entry hon he, recv_null_ep0, conclude_ok]

/-- Settles O23: with no test refusing, RECV is `recvRecord`, one update of the entry under the mask. -/
theorem recvRecordsTheTransfer : Obligations.RecvRecordsTheTransfer := by
  intro s ep e buf len hon hep he hfree hnull hadmit
  rw [exec_recv_of_entry hon he, recv_eq_transferCheck hep, transferCheck_admitted _ hnull hadmit,
    if_neg (by simp [hfree])]
  rfl

/-- Settles O25: the stall request is one flag of the register of the endpoint and direction, `CSR0` for endpoint 0. -/
theorem stallWritesTheRequest : Obligations.StallWritesTheRequest := by
  intro s ep d st hon hpres
  rw [exec_stall, hpres, commandCheck_on hon, conclude_ok]
  by_cases hep : ep = 0
  · subst hep; rfl
  · rw [if_neg hep]
    cases d <;> simp only [putSendStall, if_neg hep] <;> rfl

/-- Settles O26: each query is one update of the result word, and `Completes.result` says no other command writes it. -/
theorem queriesReturnTheirWord : Obligations.QueriesReturnTheirWord := by
  refine ⟨fun s ep d hon hpres => ?_, fun s hon => ⟨?_, ?_⟩, fun i s t hcls hstalled hspeed hconn h => ?_⟩
  · rw [exec_isstalled, hpres, commandCheck_on hon, conclude_ok]
    cases d <;> rfl
  · rw [exec_portspeed, commandCheck_on hon, conclude_ok]
    rfl
  · rw [exec_connected, commandCheck_on hon, conclude_ok]
    rfl
  · rcases exec_next_of_command hcls h with h | ⟨f, rfl⟩ | ⟨f, rfl⟩
    · exact h.result hstalled hspeed hconn
    · rfl
    · rfl

/-! #### Single updates: SELECT, FLUSH, the notifications -/

/-- Settles O42: SELECT is `selectEp`. -/
theorem selectWritesIndex : Obligations.SelectWritesIndex := fun s ep => exec_select ep s

/-- FLUSH of an entry that is there (R133). -/
theorem flush_of_entry {s : State} {ep : EpNum} {d : Dir} {e : Entry} (he : s.entry ep d = some e) :
    flush ep d s = if e.etype = .control then s else flushAction ep d (selectEp ep s) := by
  simp only [flush, he]

/-- Settles O48: a control entry has no flush action; a data entry's is that of its direction. -/
theorem flushDiscardsThePacket : Obligations.FlushDiscardsThePacket := by
  intro s ep d e he
  rw [exec_flush, present_of_entry he, if_pos rfl, conclude_ok, flush_of_entry he]
  split
  · rfl
  · cases d <;> rfl

/-- Settles O50: each notification is one `emit`; the kinds 0 and 3 of a log record name none. -/
theorem notificationsAppendOneElement : Obligations.NotificationsAppendOneElement :=
  ⟨fun s count data => exec_onctrlreq count data s, fun s status d n bytes => exec_onxferdone status d n bytes s,
    fun s => exec_onbusreset s, fun s => ⟨exec_logev_of_kind rfl s, exec_logev_of_kind rfl s, exec_logev_of_no_kind rfl s,
      exec_logev_of_no_kind rfl s⟩⟩

end Sys2Proof.Machine
end

/-! ### The FIFO Transfer Engine (R130 to R134) -/

section
namespace Sys2Proof.Machine

/-! #### DRAIN -/

section
variable {c : Cfg} {ep : EpNum} {size : Nat} {s : State} {e : Entry} (he : s.entry ep .OUT = some e)
include he

theorem drain_eq : drain c ep size s =
    if e.buf = .none then .error (.fault .DrainNoBuffer)
    else if (s.rx.get ep).length < size then .error (.fault .FifoUnderrun)
    else if e.buf = .ctrl ∧ c.ctrlBufSize < e.prog + size then .error (.fault .CtrlOverrun)
    else storeDrained e ((s.rx.get ep).take size) { s with rx := s.rx.put ep ((s.rx.get ep).drop size) } := by
  simp only [drain, he]

theorem drain_noBuffer (hbuf : e.buf = .none) : drain c ep size s = .error (.fault .DrainNoBuffer) := by
  rw [drain_eq he, if_pos hbuf]

theorem drain_underrun (hbuf : e.buf ≠ .none) (hlen : (s.rx.get ep).length < size) :
    drain c ep size s = .error (.fault .FifoUnderrun) := by
  rw [drain_eq he, if_neg hbuf, if_pos hlen]

theorem drain_ctrlOverrun (hbuf : e.buf = .ctrl) (hlen : size ≤ (s.rx.get ep).length)
    (hover : c.ctrlBufSize < e.prog + size) : drain c ep size s = .error (.fault .CtrlOverrun) := by
  rw [drain_eq he, if_neg (by simp [hbuf]), if_neg (Nat.not_lt.2 hlen), if_pos ⟨hbuf, hover⟩]

/-- DRAIN into the control buffer. -/
theorem drain_to_ctrl (hbuf : e.buf = .ctrl) (hlen : size ≤ (s.rx.get ep).length) (hfit : e.prog + size ≤ c.ctrlBufSize) :
    drain c ep size s = .ok { s with
      rx := s.rx.put ep ((s.rx.get ep).drop size)
      ctrlBuf := writeCtrl s.ctrlBuf e.prog ((s.rx.get ep).take size) } := by
  rw [drain_eq he, if_neg (by simp [hbuf]), if_neg (Nat.not_lt.2 hlen), if_neg fun h => Nat.not_lt.2 hfit h.2]
  simp only [storeDrained, hbuf]

/-- DRAIN into a caller's region that the memory holds: the packet is read back there, every other address as before. -/
theorem drain_to_mem {a : Nat} (hbuf : e.buf = .mem a) (hlen : size ≤ (s.rx.get ep).length) (hwf : Memory.wf s.mem = true)
    (hheld : ∀ x, a + e.prog ≤ x → x < a + e.prog + size → s.holds x = true) :
    ∃ m : List Host.Cell,
      drain c ep size s = .ok { s with mem := m, rx := s.rx.put ep ((s.rx.get ep).drop size) }
      ∧ ∀ x, State.readByte { s with mem := m } x =
          if hx : a + e.prog ≤ x ∧ x < a + e.prog + size then some ((s.rx.get ep)[x - (a + e.prog)]'(by omega))
          else s.readByte x := by
  have htake : ((s.rx.get ep).take size).length = size := List.length_take_of_le hlen
  obtain ⟨t, ht⟩ := writeBytes_isSome (bs := (s.rx.get ep).take size) (a := a + e.prog)
    (s := { s with rx := s.rx.put ep ((s.rx.get ep).drop size) })
    (fun x h1 h2 => hheld x h1 (by rwa [htake] at h2))
  obtain ⟨m, rfl, -, -, hread⟩ := writeBytes_some (s := { s with rx := s.rx.put ep ((s.rx.get ep).drop size) }) hwf ht
  refine ⟨m, ?_, fun x => ?_⟩
  · rw [drain_eq he, if_neg (by simp [hbuf]), if_neg (Nat.not_lt.2 hlen), if_neg (by simp [hbuf])]
    simp only [storeDrained, hbuf, ht]
  · refine (hread x).trans ?_
    simp only [htake, List.getElem_take]
    rfl

end

/-- A byte of the control buffer after a write of bytes (R33). -/
theorem writeCtrl_getElem (cb : Vector Byte 64) (i : Nat) (bs : List Byte) (k : Nat) (hk : k < 64) :
    (writeCtrl cb i bs)[k] = if h : i ≤ k ∧ k < i + bs.length then bs[k - i]'(by omega) else cb[k] := by
  induction bs generalizing cb i with
  | nil => rw [dif_neg (by simp)]; rfl
  | cons b t ih =>
    rw [writeCtrl, ih]
    by_cases hik : k = i
    · subst hik
      rw [dif_neg (by omega), dif_pos (by simp), Vector.getElem_setIfInBounds_self]
      simp
    · by_cases hin : i + 1 ≤ k ∧ k < i + 1 + t.length
      · rw [dif_pos hin, dif_pos (by simp only [List.length_cons]; omega)]
        have hk1 : k - i = k - (i + 1) + 1 := by omega
        simp only [hk1, List.getElem_cons_succ]
      · rw [dif_neg hin, dif_neg (by simp only [List.length_cons]; omega),
          Vector.getElem_setIfInBounds_ne hk (Ne.symm hik)]

/-- Settles O43: DRAIN's last step is a write of the oldest `size` bytes, and a read after it finds them. -/
theorem drainToMemory : Obligations.DrainToMemory := by
  intro s ep size e a he hbuf hlen hwf hheld
  obtain ⟨m, hm, hread⟩ := drain_to_mem (c := Config.cfg) he hbuf hlen hwf hheld
  refine ⟨m, hread, ?_⟩
  rw [exec_drain, hm, conclude_ok]

/-- Settles O44: the control buffer takes the bytes index by index. -/
theorem drainToControlBuffer : Obligations.DrainToControlBuffer := by
  intro s ep size e he hbuf hlen hfit
  refine ⟨writeCtrl s.ctrlBuf e.prog ((s.rx.get ep).take size.toNat), fun k => ?_, ?_⟩
  · refine (writeCtrl_getElem _ _ _ k.val k.isLt).trans ?_
    simp only [List.length_take_of_le hlen, List.getElem_take]
    rfl
  · rw [exec_drain, drain_to_ctrl he hbuf hlen hfit, conclude_ok]

/-- The mark of a fault on a state that has none. -/
theorem markFault_of_no_fault {s : State} (hf : s.fault = none) (r : FaultReason) :
    s.markFault r = { s with fault := some r } := by
  simp only [State.markFault, hf, Option.none_or]

/-- Settles O45: the tests of DRAIN in their order. -/
theorem drainFaults : Obligations.DrainFaults := by
  intro s ep size e he hf
  refine ⟨fun hbuf => ?_, fun hbuf hlen => ?_, fun hbuf hlen hover => ?_⟩
  · rw [exec_drain, drain_noBuffer he hbuf, conclude_fault, markFault_of_no_fault hf]
  · rw [exec_drain, drain_underrun he hbuf hlen, conclude_fault, markFault_of_no_fault hf]
  · rw [exec_drain, drain_ctrlOverrun he hbuf hlen hover, conclude_fault, markFault_of_no_fault hf]

/-! #### FILL -/

section
variable {ep : EpNum} {size : Nat} {s : State} {e : Entry} (he : s.entry ep .IN = some e)
include he

theorem fill_zero : fill ep 0 s = .ok s := by
  simp only [fill, he, if_true]

theorem fill_noBuffer (hsize : size ≠ 0) (hbuf : e.buf = .none) : fill ep size s = .error (.fault .FillNoBuffer) := by
  simp only [fill, he, if_neg hsize, if_pos hbuf]

theorem fill_busy (hsize : size ≠ 0) (hbuf : e.buf ≠ .none) (hrdy : s.inPktRdy ep = true) :
    fill ep size s = .error (.fault .FifoBusy) := by
  simp only [fill, he, if_neg hsize, if_neg hbuf, if_pos hrdy]

theorem fill_overrun (hsize : size ≠ 0) (hbuf : e.buf ≠ .none) (hrdy : s.inPktRdy ep = false)
    (hover : e.cap < (s.tx.get ep).length + size) : fill ep size s = .error (.fault .FifoOverrun) := by
  simp only [fill, he, if_neg hsize, if_neg hbuf, hrdy, Bool.false_eq_true, if_false, if_pos hover]

/-- FILL from a caller's region that can be read. -/
theorem fill_from_mem {a : Nat} {bs : List Byte} (hsize : size ≠ 0) (hbuf : e.buf = .mem a) (hrdy : s.inPktRdy ep = false)
    (hfit : (s.tx.get ep).length + size ≤ e.cap) (hread : s.readBytes (a + e.prog) size = some bs) :
    fill ep size s = .ok { s with tx := s.tx.put ep (s.tx.get ep ++ bs) } := by
  simp only [fill, he, if_neg hsize, hbuf, reduceCtorEq, if_false, hrdy, Bool.false_eq_true,
    if_neg (Nat.not_lt.2 hfit), fetchFill, hread]

/-- FILL into an empty FIFO: it holds the bytes read and no others, none where none were asked for. -/
theorem fill_empty {a : Nat} {bs : List Byte} (hbuf : e.buf = .mem a) (hempty : s.tx.get ep = [])
    (hrdy : size = 0 ∨ s.inPktRdy ep = false) (hfit : size ≤ e.cap) (hread : s.readBytes (a + e.prog) size = some bs) :
    fill ep size s = .ok { s with tx := s.tx.put ep bs } := by
  by_cases hsize : size = 0
  · subst hsize
    have hbs : bs = s.tx.get ep := by
      rw [hempty]; exact (Option.some.inj hread).symm
    rw [fill_zero he, hbs, Bank.put_get]
  · have hrdy : s.inPktRdy ep = false := hrdy.resolve_left hsize
    rw [fill_from_mem he hsize hbuf hrdy (by rw [hempty]; simpa using hfit) hread, hempty, List.nil_append]

end

theorem inPktRdy_eq (s : State) (ep : EpNum) :
    s.inPktRdy ep = if ep = 0 then s.csr0.inPktRdy else (s.inCsr.get ep).inPktRdy := rfl

/-- Settles O46: FILL asks for nothing when `size` is 0, and otherwise appends what it reads. -/
theorem fillAppendsTheBytes : Obligations.FillAppendsTheBytes := by
  intro s ep size e he
  refine ⟨fun hsize => ?_, fun a bs hbuf hrdy hfit hread => ⟨?_, readBytes_some hread⟩⟩
  · subst hsize
    rw [exec_fill]
    exact congrArg (conclude s) (fill_zero he)
  · rw [exec_fill]
    by_cases hsize : size.toNat = 0
    · have hbs : bs = [] := List.eq_nil_of_length_eq_zero ((readBytes_some hread).1.trans hsize)
      rw [hsize, fill_zero he, conclude_ok, hbs, List.append_nil, Bank.put_get]
    · rw [fill_from_mem he hsize hbuf hrdy hfit hread, conclude_ok]

/-- Settles O47: the tests of FILL in their order. -/
theorem fillFaults : Obligations.FillFaults := by
  intro s ep size e he hsize hf
  have hsize : size.toNat ≠ 0 := fun h => hsize (BitVec.eq_of_toNat_eq h)
  refine ⟨fun hbuf => ?_, fun hbuf hrdy => ?_, fun hbuf hrdy hover => ?_⟩
  · rw [exec_fill, fill_noBuffer he hsize hbuf, conclude_fault, markFault_of_no_fault hf]
  · rw [exec_fill, fill_busy he hsize hbuf hrdy, conclude_fault, markFault_of_no_fault hf]
  · rw [exec_fill, fill_overrun he hsize hbuf hrdy hover, conclude_fault, markFault_of_no_fault hf]

/-! #### 32-bit accesses (R71, R72) -/

/-- A push of the word of four bytes is a push of the bytes. -/
theorem portPushWord_leWord (fifo : List Byte) (b0 b1 b2 b3 : Byte) :
    portPushWord fifo (leWord b0 b1 b2 b3) = fifo ++ [b0, b1, b2, b3] := by
  rw [portPushWord, leByte_leWord_0, leByte_leWord_1, leByte_leWord_2, leByte_leWord_3]

/-- A 32-bit read of memory and a push of the word is a read of four bytes and a push of them. -/
theorem readWord_push (s : State) (fifo : List Byte) (a : Nat) :
    (s.readWord a).map (portPushWord fifo) = (s.readBytes a 4).map (fun bs => fifo ++ bs) := by
  simp only [State.readWord, State.readBytes]
  cases s.readByte a <;> cases s.readByte (a + 1) <;> cases s.readByte (a + 1 + 1) <;> cases s.readByte (a + 1 + 1 + 1)
  all_goals simp only [Option.map_some, Option.map_none, portPushWord_leWord]

/-- `k` word accesses and then `n` byte accesses push what `4k + n` byte accesses push. -/
theorem pushWordsThenBytes_eq (s : State) (fifo : List Byte) (a k n : Nat) :
    s.pushWordsThenBytes fifo a k n = (s.readBytes a (4 * k + n)).map (fun bs => fifo ++ bs) := by
  induction k generalizing fifo a with
  | zero =>
    rw [Nat.mul_zero, Nat.zero_add, State.pushWordsThenBytes]
    cases s.readBytes a n <;> rfl
  | succ k ih =>
    have hsplit : 4 * (k + 1) + n = 4 + (4 * k + n) := by omega
    have hpush := readWord_push s fifo a
    rw [hsplit, readBytes_add, State.pushWordsThenBytes]
    cases hw : s.readWord a with
    | none =>
      cases hb : s.readBytes a 4 with
      | none => rfl
      | some x => rw [hw, hb] at hpush; cases hpush
    | some w =>
      cases hb : s.readBytes a 4 with
      | none => rw [hw, hb] at hpush; cases hpush
      | some x =>
        rw [hw, hb] at hpush
        have hfifo : portPushWord fifo w = fifo ++ x := Option.some.inj hpush
        simp only [ih, hfifo]
        cases s.readBytes (a + 4) (4 * k + n) <;> simp

/-- A write of two runs of bytes is the first, and then the second behind it. -/
theorem writeBytes_append (s : State) (a : Nat) (xs ys : List Byte) :
    s.writeBytes a (xs ++ ys) = (s.writeBytes a xs).bind (fun t => t.writeBytes (a + xs.length) ys) := by
  induction xs generalizing s a with
  | nil => rfl
  | cons x xs ih =>
    simp only [List.cons_append, State.writeBytes]
    cases s.writeByte a x with
    | none => rfl
    | some t =>
      simp only [ih, List.length_cons]
      congr 2
      funext u
      rw [Nat.add_assoc, Nat.add_comm 1]

/-- A FIFO with four bytes gives a word that stores as those bytes. -/
theorem popWordsThenBytes_eq (s : State) (fifo : List Byte) (a k n : Nat) (hlen : 4 * k + n ≤ fifo.length) :
    s.popWordsThenBytes fifo a k n =
      (s.writeBytes a (fifo.take (4 * k + n))).map (fun t => (t, fifo.drop (4 * k + n))) := by
  induction k generalizing s fifo a with
  | zero =>
    rw [Nat.mul_zero, Nat.zero_add, State.popWordsThenBytes]
    cases s.writeBytes a (fifo.take n) <;> rfl
  | succ k ih =>
    match fifo, hlen with
    | b0 :: b1 :: b2 :: b3 :: t, hlen =>
      have hsplit : 4 * (k + 1) + n = 4 * k + n + 4 := by omega
      have ht : 4 * k + n ≤ t.length := by
        simp only [List.length_cons] at hlen
        omega
      have happend := writeBytes_append s a [b0, b1, b2, b3] (t.take (4 * k + n))
      simp only [List.cons_append, List.nil_append, List.length_cons, List.length_nil] at happend
      rw [hsplit]
      simp only [List.take_succ_cons, List.drop_succ_cons, happend, State.popWordsThenBytes, portPopWord, State.writeWord,
        leByte_leWord_0, leByte_leWord_1, leByte_leWord_2, leByte_leWord_3]
      cases s.writeBytes a [b0, b1, b2, b3] with
      | none => rfl
      | some u => exact ih u t (a + 4) ht
    | [], hlen | [_], hlen | [_, _], hlen | [_, _, _], hlen =>
      simp only [List.length_cons, List.length_nil] at hlen
      omega

/-- Settles O49: a word access is four byte accesses on either side, and the pattern of R72 moves `size` bytes by either
branch. -/
theorem wordAccessesMoveTheSameBytes : Obligations.WordAccessesMoveTheSameBytes := by
  refine ⟨fun s fifo a size => ?_, popWordsThenBytes_eq⟩
  unfold State.pushByPattern
  split
  · rw [pushWordsThenBytes_eq, Nat.div_add_mod]
  · rw [pushWordsThenBytes_eq, Nat.mul_zero, Nat.zero_add]

end Sys2Proof.Machine
end

/-! ### The handlers, and SEND's kick (R140 to R152, R172) -/

section
namespace Sys2Proof.Machine

/-! #### Reading memory: only `mem` and `memMap` are read -/

theorem readByte_congr {s t : State} (hmem : t.mem = s.mem) (hmap : t.memMap = s.memMap) (a : Nat) :
    t.readByte a = s.readByte a := by
  have hholds : t.holds a = s.holds a := by simp only [State.holds, hmap]
  simp only [State.readByte, hholds, hmem]

theorem readBytes_congr {s t : State} (hmem : t.mem = s.mem) (hmap : t.memMap = s.memMap) (a n : Nat) :
    t.readBytes a n = s.readBytes a n := by
  induction n generalizing a with
  | zero => rfl
  | succ n ih => simp only [State.readBytes, readByte_congr hmem hmap, ih]

theorem readBytes_selectEp (ep : EpNum) (s : State) (a n : Nat) : (selectEp ep s).readBytes a n = s.readBytes a n :=
  readBytes_congr (s := s) (t := selectEp ep s) rfl rfl a n

/-! #### The control endpoint -/

section
variable {s : State} {e : Entry} (he : s.entry 0 .IN = some e)
include he

/-- `ep0_to_idle`, written out for the entry (0,IN) (R142). -/
theorem ep0ToIdle_eq : ep0ToIdle s = { s with
    ep0state := .Idle, epIn := s.epIn.put 0 (some { e with buf := .none, len := 0, prog := 0 }) } := by
  have he' : ({ s with ep0state := .Idle } : State).entry 0 .IN = some e := he
  simp only [ep0ToIdle, clearEntry, he', State.putEntry, Entry.clear, reduceCtorEq, and_false, if_false]

/-- A pure handshake, or the last packet (R141). -/
theorem ep0Last_eq : ep0Last s = { s with
    epIn := s.epIn.put 0 (some { e with buf := .none, len := 0, prog := 0 })
    ep0state := .Idle
    csr0 := { s.csr0 with inPktRdy := true, dataEnd := true }
    txLog := s.txLog ++ [⟨0, s.tx.get 0, true⟩] } := by
  have he' : (commitPacket 0 true (signalEp0 true s)).entry 0 .IN = some e := by simpa using he
  rw [ep0Last, ep0ToIdle_eq he']
  simp only [commitPacket, signalEp0, Bool.or_true]

theorem ep0send_eq : ep0send s =
    if e.len = 0 then .ok (ep0Last (selectEp 0 s))
    else andThen (fill 0 e.chunk (selectEp 0 s)) (fun s1 =>
      if e.len ≤ e.prog + e.chunk then .ok (ep0Last (s1.putEntry 0 .IN { e with prog := e.prog + e.chunk }))
      else .ok (ep0More (s1.putEntry 0 .IN { e with prog := e.prog + e.chunk }))) := by
  simp only [ep0send, he]

/-- EP0SEND of a length of 0: a handshake (R141). -/
theorem ep0send_handshake (hlen : e.len = 0) : ep0send s = .ok { s with
    epIn := s.epIn.put 0 (some { e with buf := .none, len := 0, prog := 0 })
    ep0state := .Idle
    csr0 := { s.csr0 with inPktRdy := true, dataEnd := true }
    txLog := s.txLog ++ [⟨0, s.tx.get 0, true⟩], index := 0 } := by
  have he' : (selectEp 0 s).entry 0 .IN = some e := by simpa using he
  rw [ep0send_eq he, if_pos hlen, ep0Last_eq he']
  rfl

/-- EP0SEND of the next packet of a response, the FIFO empty and its last packet taken (R141, R85). -/
theorem ep0send_packet {a : Nat} {bs : List Byte} (hlen : e.len ≠ 0) (hbuf : e.buf = .mem a)
    (hrdy : e.chunk = 0 ∨ s.csr0.inPktRdy = false)
    (hempty : s.tx.get 0 = []) (hread : s.readBytes (a + e.prog) e.chunk = some bs) :
    ep0send s = .ok (if e.len ≤ e.prog + e.chunk then
      { s with
        epIn := s.epIn.put 0 (some { e with buf := .none, len := 0, prog := 0 })
        ep0state := .Idle
        tx := s.tx.put 0 bs
        csr0 := { s.csr0 with inPktRdy := true, dataEnd := true }
        txLog := s.txLog ++ [⟨0, bs, true⟩], index := 0 }
    else
      { s with
        epIn := s.epIn.put 0 (some { e with prog := e.prog + e.chunk })
        tx := s.tx.put 0 bs
        csr0 := { s.csr0 with inPktRdy := true }
        txLog := s.txLog ++ [⟨0, bs, false⟩], index := 0 }) := by
  have he' : (selectEp 0 s).entry 0 .IN = some e := by simpa using he
  have hfill := fill_empty (s := selectEp 0 s) he' hbuf hempty hrdy (Nat.min_le_right _ _)
    ((readBytes_selectEp _ _ _ _).trans hread)
  rw [ep0send_eq he, if_neg hlen, hfill, andThen_of_ok]
  split
  · rw [ep0Last_eq (putEntry_entry_self _ _ _ _)]
    simp only [State.putEntry, selectEp, Bank.put_put_self, Bank.get_put_self]
  · simp only [ep0More, commitPacket, signalEp0, State.putEntry, selectEp, Bank.get_put_self, Bool.or_false]

end

/-! #### INH -/

/-- The missing-transfer guard (R150 to R152). -/
theorem guarded_iff (e : Entry) : e.guarded = true ↔ e.buf = .none ∨ e.usesDma = true := by
  simp only [Entry.guarded, Bool.or_eq_true, decide_eq_true_eq]

theorem not_guarded {e : Entry} (hbuf : e.buf ≠ .none) (hdma : e.usesDma = false) : e.guarded = false := by
  rw [← Bool.not_eq_true, guarded_iff, hdma]
  exact fun h => h.elim hbuf Bool.false_ne_true

/-- INH without a transfer is a no-op (R150). -/
theorem inh_of_guarded {ep : EpNum} {s : State} (h : ∀ e, s.entry ep .IN = some e → e.guarded = true) :
    inh ep s = .ok s := by
  unfold inh State.dataEntry
  by_cases hep : ep = 0
  · simp only [hep, if_true]
  · cases he : s.entry ep .IN with
    | none => simp only [if_neg hep]
    | some e => simp only [if_neg hep, h e he, if_true]

/-- OUTH without a transfer is a no-op (R151). -/
theorem outh_of_guarded {c : Cfg} {ep : EpNum} {s : State} (h : ∀ e, s.entry ep .OUT = some e → e.guarded = true) :
    outh c ep s = .ok s := by
  unfold outh State.dataEntry
  by_cases hep : ep = 0
  · simp only [hep, if_true]
  · cases he : s.entry ep .OUT with
    | none => simp only [if_neg hep]
    | some e => simp only [if_neg hep, h e he, if_true]

/-- What INH leaves when it has sent packet `bs` of the transfer in `e` (R150): the packet in the FIFO, committed, and the
transfer advanced, or completed with its length and the entry empty. -/
def inhSent (ep : EpNum) (e : Entry) (bs : List Byte) (s : State) : State :=
  if e.len ≤ e.prog + e.chunk then
    { s with
      epIn := s.epIn.put ep (some { e with buf := .none, len := 0, prog := 0 })
      tx := s.tx.put ep bs
      inCsr := s.inCsr.put ep { s.inCsr.get ep with inPktRdy := true }
      txLog := s.txLog ++ [⟨ep, bs, false⟩]
      upLog := s.upLog ++ [.onTransferComplete ep .IN 0 (e.prog + e.chunk)]
      index := ep }
  else
    { s with
      epIn := s.epIn.put ep (some { e with prog := e.prog + e.chunk })
      tx := s.tx.put ep bs
      inCsr := s.inCsr.put ep { s.inCsr.get ep with inPktRdy := true }
      txLog := s.txLog ++ [⟨ep, bs, false⟩]
      index := ep }

/-- What OUTH leaves when it has stored a packet of `cnt` bytes of the transfer in `e` in memory `m` (R151). -/
def outhStored (ep : EpNum) (e : Entry) (cnt : Nat) (m : List Host.Cell) (s : State) : State :=
  if cnt < e.cap ∨ e.len ≤ e.prog + cnt then
    { s with
      mem := m, rx := s.rx.put ep []
      outCsr := s.outCsr.put ep { s.outCsr.get ep with outPktRdy := false }, index := ep
      epOut := s.epOut.put ep (some { e with buf := .none, len := 0, prog := 0 })
      upLog := s.upLog ++ [.onTransferComplete ep .OUT 0 (e.prog + cnt)] }
  else
    { s with
      mem := m, rx := s.rx.put ep []
      outCsr := s.outCsr.put ep { s.outCsr.get ep with outPktRdy := false }, index := ep
      epOut := s.epOut.put ep (some { e with prog := e.prog + cnt }) }

theorem clearEntry_in {ep : EpNum} {s : State} {e : Entry} (h : s.entry ep .IN = some e) :
    clearEntry ep .IN s = { s with epIn := s.epIn.put ep (some { e with buf := .none, len := 0, prog := 0 }) } := by
  simp only [clearEntry, h, State.putEntry, Entry.clear, reduceCtorEq, and_false, if_false]

section
variable {ep : EpNum} {s : State} {e : Entry} (hep : ep ≠ 0)
include hep

theorem clearEntry_out (h : s.entry ep .OUT = some e) :
    clearEntry ep .OUT s = { s with epOut := s.epOut.put ep (some { e with buf := .none, len := 0, prog := 0 }) } := by
  simp only [clearEntry, h, State.putEntry, Entry.clear, hep, false_and, if_false]

/-- INH with a transfer that is not on the DMA path (R150). -/
theorem inh_eq (he : s.entry ep .IN = some e) (hg : e.guarded = false) : inh ep s =
    if (s.inCsr.get ep).sentStall then .ok (clearSentStallIn ep (selectEp ep s))
    else if s.tx.get ep ≠ [] then .ok (selectEp ep s)
    else andThen (fill ep e.chunk (selectEp ep s)) (fun s1 => .ok (inhAfterFill ep e s1)) := by
  have hfifo : (s.fifoNotEmpty ep = true) = (s.tx.get ep ≠ []) := by
    simp only [State.fifoNotEmpty, decide_eq_true_eq, List.length_pos_iff]
  unfold inh State.dataEntry
  simp only [if_neg hep, he, hg, Bool.false_eq_true, if_false]
  rw [show (selectEp ep s).fifoNotEmpty ep = s.fifoNotEmpty ep from rfl]
  simp only [hfifo, selectEp_inCsr]

/-- OUTH with a transfer that is not on the DMA path (R151). -/
theorem outh_eq {c : Cfg} (he : s.entry ep .OUT = some e) (hg : e.guarded = false) : outh c ep s =
    if (s.outCsr.get ep).sentStall then .ok (clearSentStallOut ep (selectEp ep s))
    else if (s.outCsr.get ep).outPktRdy = false then .error (.fault .NoPacket)
    else if e.remaining < (s.rx.get ep).length then .error (.fault .BufferOverrun)
    else andThen (drain c ep (s.rx.get ep).length (selectEp ep s))
      (fun s1 => .ok (outhAfterDrain ep e (s.rx.get ep).length s1)) := by
  unfold outh State.dataEntry
  simp only [if_neg hep, he, hg, Bool.false_eq_true, if_false]
  rfl

/-- INH on a free FIFO sends the next packet (R150, R85). -/
theorem inh_packet {a : Nat} {bs : List Byte} (he : s.entry ep .IN = some e) (hbuf : e.buf = .mem a)
    (hdma : e.usesDma = false) (hstall : (s.inCsr.get ep).sentStall = false) (hempty : s.tx.get ep = [])
    (hrdy : e.chunk = 0 ∨ (s.inCsr.get ep).inPktRdy = false) (hread : s.readBytes (a + e.prog) e.chunk = some bs) :
    inh ep s = .ok (inhSent ep e bs s) := by
  have he' : (selectEp ep s).entry ep .IN = some e := by simpa using he
  have hrdy' : e.chunk = 0 ∨ (selectEp ep s).inPktRdy ep = false := by
    rwa [inPktRdy_eq, if_neg hep]
  have hfill := fill_empty (s := selectEp ep s) he' hbuf hempty hrdy' (Nat.min_le_right _ _)
    ((readBytes_selectEp _ _ _ _).trans hread)
  rw [inh_eq hep he (not_guarded (by simp [hbuf]) hdma), if_neg (by simp [hstall]), if_neg (by simp [hempty]), hfill,
    andThen_of_ok]
  unfold inhAfterFill inhSent
  simp only
  split
  · rw [clearEntry_in (e := { e with prog := e.prog + e.chunk }) (by simp)]
    simp only [emit, State.putEntry, commitPacket, setInPktRdy, selectEp, Bank.put_put_self, Bank.get_put_self]
  · simp only [State.putEntry, commitPacket, setInPktRdy, selectEp, Bank.get_put_self]

/-- OUTH with a packet that fits in a held region stores it, and every other address reads as before (R151, R77). -/
theorem outh_packet {c : Cfg} {a : Nat} (he : s.entry ep .OUT = some e) (hbuf : e.buf = .mem a)
    (hdma : e.usesDma = false) (hstall : (s.outCsr.get ep).sentStall = false) (hrdy : (s.outCsr.get ep).outPktRdy = true)
    (hfit : (s.rx.get ep).length ≤ e.len - e.prog) (hwf : Memory.wf s.mem = true)
    (hheld : ∀ x, a + e.prog ≤ x → x < a + e.prog + (s.rx.get ep).length → s.holds x = true) :
    ∃ m, outh c ep s = .ok (outhStored ep e (s.rx.get ep).length m s)
      ∧ ∀ x, State.readByte { s with mem := m } x =
          if hx : a + e.prog ≤ x ∧ x < a + e.prog + (s.rx.get ep).length then
            some ((s.rx.get ep)[x - (a + e.prog)]'(by omega))
          else s.readByte x := by
  have he' : (selectEp ep s).entry ep .OUT = some e := by simpa using he
  obtain ⟨m, hm, hread⟩ := drain_to_mem (c := c) (s := selectEp ep s) he' hbuf (Nat.le_refl _) hwf hheld
  refine ⟨m, ?_, hread⟩
  rw [outh_eq hep he (not_guarded (by simp [hbuf]) hdma), if_neg (by simp [hstall]), if_neg (by simp [hrdy]),
    if_neg (show ¬ e.remaining < _ from Nat.not_lt.2 hfit)]
  simp only [selectEp_rx] at hm
  rw [hm, andThen_of_ok]
  unfold outhAfterDrain outhStored
  simp only [List.drop_length]
  split
  · rw [clearEntry_out hep (e := { e with prog := e.prog + (s.rx.get ep).length }) (by simp)]
    simp only [emit, State.putEntry, setOutPktRdy, selectEp, Bank.put_put_self]
  · simp only [State.putEntry, setOutPktRdy, selectEp]

end

/-! #### CTRLH -/

section
variable {c : Cfg} {s : State} (hstall : s.csr0.sentStall = false) (hend : s.csr0.setupEnd = false)
include hstall hend

/-- CTRLH in Idle with a packet reported (R140 step 3). -/
theorem ctrlh_setup (hidle : s.ep0state = .Idle) (havail : s.csr0.dataAvail = true) :
    ctrlh c s = receiveSetup c (selectEp 0 s) := by
  simp only [ctrlh, selectEp, hstall, hend, Bool.false_eq_true, if_false, hidle, havail, if_true]

theorem ctrlh_nothing (hidle : s.ep0state = .Idle) (havail : s.csr0.dataAvail = false) :
    ctrlh c s = .ok (selectEp 0 s) := by
  simp only [ctrlh, selectEp, hstall, hend, Bool.false_eq_true, if_false, hidle, havail]

theorem ctrlh_receiving (hrec : s.ep0state = .Receiving) : ctrlh c s = .ok (selectEp 0 s) := by
  simp only [ctrlh, selectEp, hstall, hend, Bool.false_eq_true, if_false, hrec]

/-- EP0SEND selects endpoint 0 itself, so CTRLH in Transmitting is EP0SEND (R140 step 4). -/
theorem ctrlh_transmitting (htrans : s.ep0state = .Transmitting) : ctrlh c s = ep0send s := by
  have hsel : ep0send (selectEp 0 s) = ep0send s := by
    simp only [ep0send, selectEp_entry]
    rfl
  rw [← hsel]
  simp only [ctrlh, selectEp, hstall, hend, Bool.false_eq_true, if_false, htrans]

end

theorem receiveSetup_eq (c : Cfg) (s : State) :
    receiveSetup c s = andThen (drain c 0 (s.rx.get 0).length s) (fun s1 =>
      .ok (emit (.onControlRequest s1.ctrlBuf (s.rx.get 0).length) (clearDataAvail s1))) := rfl

/-- Settles O33: the first two tests of CTRLH, and `ep0_to_idle`. -/
theorem ctrlhReturnsToIdle : Obligations.CtrlhReturnsToIdle := by
  intro s e he
  have idle (r : Csr0) : ep0ToIdle { s with csr0 := r, index := 0 } = { s with
      csr0 := r, index := 0, ep0state := .Idle
      epIn := s.epIn.put 0 (some { e with len := 0, prog := 0, buf := .none }) } :=
    ep0ToIdle_eq (s := { s with csr0 := r, index := 0 }) he
  refine ⟨fun hstall => ?_, fun hstall hend => ?_⟩
  · rw [exec_ctrlh, ctrlh, if_pos (show (selectEp 0 s).csr0.sentStall = true from hstall), conclude_ok]
    exact congrArg _ (idle _)
  · rw [exec_ctrlh, ctrlh, if_neg (by simp [hstall]), if_pos (show (selectEp 0 s).csr0.setupEnd = true from hend),
      conclude_ok]
    exact congrArg _ (idle _)

/-- Settles O34: with the control buffer at progress 0 the drain of the whole packet succeeds, and the notification carries
the buffer after it. -/
theorem ctrlhReceivesSetup : Obligations.CtrlhReceivesSetup := by
  intro s e hstall hend hidle havail he hbuf hprog hlen
  have he' : (selectEp 0 s).entry 0 .OUT = some e := by simpa using he
  have hdrain := drain_to_ctrl (c := Config.cfg) (s := selectEp 0 s) (size := (s.rx.get 0).length) he' hbuf (Nat.le_refl _)
    (by rw [hprog, Nat.zero_add]; exact hlen)
  simp only [selectEp_rx, selectEp_ctrlBuf, hprog, List.take_length, List.drop_length] at hdrain
  refine ⟨writeCtrl s.ctrlBuf 0 (s.rx.get 0), fun k => ?_, ?_⟩
  · refine (writeCtrl_getElem _ _ _ k.val k.isLt).trans ?_
    simp only [Nat.zero_le, true_and, Nat.zero_add, Nat.sub_zero]
    rfl
  · rw [exec_ctrlh, ctrlh_setup hstall hend hidle havail, receiveSetup_eq, selectEp_rx, hdrain]
    rfl

/-- Settles O35: the three states of EP0 in the match of CTRLH. -/
theorem ctrlhOtherwise : Obligations.CtrlhOtherwise := by
  intro s hstall hend
  refine ⟨fun hidle havail => ?_, fun hrec => ?_, fun htrans => ?_⟩
  · rw [exec_ctrlh, ctrlh_nothing hstall hend hidle havail]
    rfl
  · rw [exec_ctrlh, ctrlh_receiving hstall hend hrec]
    rfl
  · rw [exec_ctrlh, ctrlh_transmitting hstall hend htrans, exec_ep0send]

/-- Settles O36: a handshake, or a packet from an empty FIFO. -/
theorem ep0sendSendsTheNextPacket : Obligations.Ep0sendSendsTheNextPacket := by
  intro s e he
  refine ⟨fun hlen => ?_, fun a bs hlen hbuf hrdy hempty hread => ?_⟩
  · rw [exec_ep0send, ep0send_handshake he hlen, conclude_ok]
  · rw [exec_ep0send, ep0send_packet he hlen hbuf (.inr hrdy) hempty hread, conclude_ok]
    rfl

/-! #### The data-endpoint handlers -/

/-- Settles O37: the guard of the two handlers comes before `SELECT`. -/
theorem handlersGuardFirst : Obligations.HandlersGuardFirst := by
  refine fun s ep _ => ⟨fun h => ?_, fun h => ?_⟩
  · rw [exec_inh, inh_of_guarded fun e he => (guarded_iff e).2 (h e he), conclude_ok]
  · rw [exec_outh, outh_of_guarded fun e he => (guarded_iff e).2 (h e he), conclude_ok]

/-- Settles O38: the tests after the guard, in their order. -/
theorem handlersAcknowledgeOrDefer : Obligations.HandlersAcknowledgeOrDefer := by
  intro s ep e hep hbuf hdma
  have hg := not_guarded hbuf hdma
  refine ⟨fun he hstall => ?_, fun he hstall hfifo => ?_, fun he hstall => ?_⟩
  · rw [exec_inh, inh_eq hep he hg, if_pos hstall]
    rfl
  · rw [exec_inh, inh_eq hep he hg, if_neg (by simp [hstall]), if_pos hfifo]
    rfl
  · rw [exec_outh, outh_eq hep he hg, if_pos hstall]
    rfl

/-- Settles O39: `inh_packet`, whose `inhSent` is the next state R150 gives. -/
theorem inhSendsTheNextPacket : Obligations.InhSendsTheNextPacket := by
  intro s ep e a bs hep he hbuf hdma hstall hempty hrdy hread
  rw [exec_inh, inh_packet hep he hbuf hdma hstall hempty hrdy hread, conclude_ok]
  rfl

/-- Settles O40: `outh_packet`, whose `outhStored` is the next state R151 gives. -/
theorem outhReceivesThePacket : Obligations.OuthReceivesThePacket := by
  intro s ep e a hep he hbuf hdma hstall hrdy hfit hwf hheld
  obtain ⟨m, hm, hread⟩ := outh_packet (c := Config.cfg) hep he hbuf hdma hstall hrdy hfit hwf hheld
  refine ⟨m, hread, ?_⟩
  rw [exec_outh, hm, conclude_ok]
  rfl

/-! #### SEND -/

/-- SEND's critical section from the state that `inh` finds. -/
theorem exec_send_eq_sendKick {s : State} {ep : EpNum} {e : Entry} {buf len : Word} (hon : s.phase = .On)
    (he : s.entry ep .IN = some e) (hack : ¬(ep = 0 ∧ buf = 0 ∧ len = 0)) (hnull : buf = 0 → len = 0)
    (hadmit : buf ≠ 0 → admits Config.cfg s buf.toNat len.toNat = true) (hfree : e.buf = .none)
    (hidle : ep = 0 → s.ep0state = .Idle) :
    exec (.send ep buf len) s = conclude s (sendKick ep e buf len s) := by
  rw [exec_send_of_entry hon he, send_eq_sendKick hack hnull hadmit hfree hidle]

end Sys2Proof.Machine
end

/-! ### SEND (R172), and where the handlers fault (R222) -/

section
namespace Sys2Proof.Machine

/-! #### The state in which SEND kicks the handler -/

theorem sendQueued_entry (ep : EpNum) (e : Entry) (buf len : Word) (s : State) :
    (sendQueued ep e buf len s).entry ep .IN = some (e.accept buf len) := putEntry_entry_self _ _ _ _

/-- The descriptor SEND records for a non-null buffer. -/
theorem accept_of_ne {e : Entry} {buf : Word} (hbuf : buf ≠ 0) (len : Word) :
    e.accept buf len = { e with buf := .mem buf.toNat, len := len.toNat, prog := 0 } := by
  simp only [Entry.accept, bufOfWord, if_neg hbuf]

/-- The first chunk of the descriptor SEND records. -/
theorem accept_chunk (e : Entry) (buf len : Word) : (e.accept buf len).chunk = min len.toNat e.cap := rfl

theorem sendQueued_readBytes (ep : EpNum) (e : Entry) (buf len : Word) (s : State) (a n : Nat) :
    (sendQueued ep e buf len s).readBytes a n = s.readBytes a n :=
  readBytes_congr (s := s) (t := sendQueued ep e buf len s) rfl rfl a n

@[simp] theorem sendQueued_inCsr (ep : EpNum) (e : Entry) (buf len : Word) (s : State) :
    (sendQueued ep e buf len s).inCsr = s.inCsr := rfl

@[simp] theorem sendQueued_tx (ep : EpNum) (e : Entry) (buf len : Word) (s : State) :
    (sendQueued ep e buf len s).tx = s.tx := rfl

/-- The state in which SEND kicks EP0SEND: EP0 is Transmitting besides (R172). -/
def ep0Queued (e : Entry) (buf len : Word) (s : State) : State :=
  { sendQueued 0 e buf len s with ep0state := .Transmitting }

theorem ep0Queued_entry (e : Entry) (buf len : Word) (s : State) :
    (ep0Queued e buf len s).entry 0 .IN = some (e.accept buf len) := sendQueued_entry 0 e buf len s

theorem ep0Queued_readBytes (e : Entry) (buf len : Word) (s : State) (a n : Nat) :
    (ep0Queued e buf len s).readBytes a n = s.readBytes a n :=
  readBytes_congr (s := s) (t := ep0Queued e buf len s) rfl rfl a n

/-- SEND on endpoint 0 kicks EP0SEND in Transmitting. -/
theorem sendKick_ep0 (e : Entry) (buf len : Word) (s : State) :
    sendKick 0 e buf len s = andThen (ep0send (ep0Queued e buf len s)) (fun u => .ok (setMask false u)) := by
  rw [sendKick_eq, if_pos rfl]
  rfl

/-- SEND on a data endpoint kicks INH. -/
theorem sendKick_data {ep : EpNum} (hep : ep ≠ 0) (e : Entry) (buf len : Word) (s : State) :
    sendKick ep e buf len s = andThen (inh ep (sendQueued ep e buf len s)) (fun u => .ok (setMask false u)) := by
  rw [sendKick_eq, if_neg hep]

/-! #### SEND on endpoint 0 -/

/-- Settles O19: EP0SEND of the recorded length 0. -/
theorem sendHandshake : Obligations.SendHandshake := by
  intro s e buf hon he hfree hidle hbuf hadmit
  rw [exec_send_eq_sendKick (len := 0) hon he (fun h => hbuf h.2.1) (fun h => absurd h hbuf) (fun _ => hadmit) hfree
      fun _ => hidle, sendKick_ep0, ep0send_handshake (ep0Queued_entry e buf 0 s) rfl]
  simp only [andThen_of_ok, conclude_ok, ep0Queued, sendQueued, State.putEntry, setMask, Entry.accept,
    Bank.put_put_self, hidle]

/-- Settles O20: EP0SEND of the first chunk of the recorded response. -/
theorem sendControlResponse : Obligations.SendControlResponse := by
  intro s e buf len bs hon he hfree hidle hbuf hlen hadmit hrdy hempty hread
  have hlen' : (e.accept buf len).len ≠ 0 := fun h => hlen (BitVec.eq_of_toNat_eq h)
  have hbuf' : (e.accept buf len).buf = .mem buf.toNat := by rw [accept_of_ne hbuf]
  have hread' : (ep0Queued e buf len s).readBytes (buf.toNat + (e.accept buf len).prog) (e.accept buf len).chunk
      = some bs := by
    rw [ep0Queued_readBytes]
    exact hread
  rw [exec_send_eq_sendKick hon he (fun h => hbuf h.2.1) (fun h => absurd h hbuf) (fun _ => hadmit) hfree fun _ => hidle,
    sendKick_ep0, ep0send_packet (ep0Queued_entry e buf len s) hlen' hbuf' (.inr hrdy) hempty hread', accept_chunk,
    accept_of_ne hbuf]
  have hdone : (len.toNat ≤ 0 + min len.toNat e.cap) = (len.toNat ≤ e.cap) := by
    simp only [eq_iff_iff]; omega
  simp only [andThen_of_ok, conclude_ok, hdone, ep0Queued, sendQueued, State.putEntry, setMask, accept_of_ne hbuf, Bank.put_put_self]
  by_cases hle : len.toNat ≤ e.cap
  · simp only [if_pos hle, hidle]
  · have hmin : min len.toNat e.cap = e.cap := by omega
    simp only [if_neg hle, hmin, Nat.zero_add]

/-! #### SEND on a data endpoint -/

/-- Settles O21: INH of the first chunk of the recorded transfer. -/
theorem sendDataFirstChunk : Obligations.SendDataFirstChunk := by
  intro s ep e buf len bs hon hep he hfree hdma hbuf hadmit hstall hempty hrdy hread
  have hrdy' : (e.accept buf len).chunk = 0 ∨ ((sendQueued ep e buf len s).inCsr.get ep).inPktRdy = false :=
    hrdy.imp_left fun h => by rw [accept_chunk, h]; rfl
  have hread' : (sendQueued ep e buf len s).readBytes (buf.toNat + (e.accept buf len).prog) (e.accept buf len).chunk
      = some bs := by
    rw [sendQueued_readBytes]
    exact hread
  rw [exec_send_eq_sendKick hon he (fun h => hbuf h.2.1) (fun h => absurd h hbuf) (fun _ => hadmit) hfree
      fun h => absurd h hep, sendKick_data hep,
    inh_packet hep (sendQueued_entry ep e buf len s) (by rw [accept_of_ne hbuf]) hdma hstall hempty hrdy' hread']
  have hdone : (len.toNat ≤ 0 + min len.toNat e.cap) = (len.toNat ≤ e.cap) := by
    simp only [eq_iff_iff]; omega
  simp only [andThen_of_ok, conclude_ok, inhSent, accept_chunk]
  simp only [hdone, sendQueued, State.putEntry, accept_of_ne hbuf, Bank.put_put_self]
  by_cases hle : len.toNat ≤ e.cap
  · have hmin : min len.toNat e.cap = len.toNat := by omega
    simp only [if_pos hle, hmin, Nat.zero_add, setMask]
  · have hmin : min len.toNat e.cap = e.cap := by omega
    simp only [if_neg hle, hmin, Nat.zero_add, setMask]

/-- Settles O22: the three ways in which INH sends nothing. -/
theorem sendDataWaits : Obligations.SendDataWaits := by
  intro s ep e buf len hon hep he hfree hnull hadmit
  rw [exec_send_eq_sendKick hon he (fun h => hep h.1) hnull hadmit hfree fun h => absurd h hep, sendKick_data hep]
  have hq := sendQueued_entry ep e buf len s
  have hguard (hbuf : buf ≠ 0) (hdma : e.usesDma = false) : (e.accept buf len).guarded = false :=
    not_guarded (by rw [accept_of_ne hbuf]; simp) hdma
  refine ⟨fun h => ?_, fun hbuf hdma hstall => ?_, fun hbuf hdma hstall hfifo => ?_⟩
  · have hg : ∀ f, (sendQueued ep e buf len s).entry ep .IN = some f → f.guarded = true := by
      intro f hf
      rw [hq] at hf
      rw [← Option.some.inj hf, guarded_iff]
      exact h.imp_left fun hb => by rw [Entry.accept, bufOfWord, if_pos hb]
    rw [inh_of_guarded hg]
    rfl
  · rw [inh_eq hep hq (hguard hbuf hdma), sendQueued_inCsr, if_pos hstall]
    rfl
  · rw [inh_eq hep hq (hguard hbuf hdma), sendQueued_inCsr, if_neg (by simp [hstall]), sendQueued_tx, if_pos hfifo]
    rfl

end Sys2Proof.Machine
end

/-! ### The dispatcher and the loops over the default table (R160 to R162, R170, R175, R250) -/

section
namespace Sys2Proof.Machine

/-! #### The shape of the default table -/

theorem shape_of_tableKept {c : Cfg} {s t : State} (h : TableKept s t) (hs : TableShape c s) : TableShape c t := by
  have key (n : EpNum) (d : Dir) :
      (t.entry n d).map (fun e => (e.etype, e.usesDma)) = (s.entry n d).map (fun e => (e.etype, e.usesDma)) := by
    have := congrArg (Option.map fun x : EpType × Bool × Nat => (x.1, x.2.1)) (h n d)
    rw [Option.map_map, Option.map_map] at this
    exact this
  exact fun n => ⟨(key n .OUT).trans (hs n).1, (key n .IN).trans (hs n).2⟩

/-- An entry of a table of the shape of `c` has the immutable fields of its build-time entry. -/
theorem shape_entry {c : Cfg} {s : State} (hs : TableShape c s) (n : EpNum) (d : Dir) :
    (s.entry n d).map (fun e => (e.etype, e.usesDma)) = (c.entryAt n d).map (fun k => (k.etype, k.usesDma)) := by
  cases d
  · exact (hs n).1
  · exact (hs n).2

theorem shape_etype {c : Cfg} {s : State} (hs : TableShape c s) (n : EpNum) (d : Dir) :
    (s.entry n d).map Entry.etype = (c.entryAt n d).map EntryCfg.etype := by
  have := congrArg (Option.map (Prod.fst (α := EpType) (β := Bool))) (shape_entry hs n d)
  rw [Option.map_map, Option.map_map] at this
  exact this

theorem shape_present {c : Cfg} {s : State} (hs : TableShape c s) (n : EpNum) (d : Dir) : s.present n d = c.present n d := by
  have := congrArg Option.isSome (shape_etype hs n d)
  rw [Option.isSome_map, Option.isSome_map] at this
  exact this

theorem shape_clearPending {c : Cfg} {s : State} (hs : TableShape c s) : TableShape c (clearPending s) := hs

/-! #### The dispatcher's loops: the numbers without an entry are skipped (R162 d) -/

theorem forNumbers_of_noop {f : EpNum → State → Result} {ns : List EpNum} {s : State} (h : ∀ n ∈ ns, f n s = .ok s) :
    forNumbers ns f s = .ok s := by
  induction ns with
  | nil => rfl
  | cons n t ih =>
    rw [forNumbers, h n List.mem_cons_self, andThen_of_ok, ih fun m hm => h m (List.mem_cons_of_mem n hm)]

/-- A handler call of a dispatcher loop keeps what every handler keeps. -/
theorem frame_ifBit {bits : Bank Bool} {f : EpNum → State → Result} (hf : ∀ n s t, f n s = .ok t → HandlerFrame s t)
    {n : EpNum} {s t : State} (h : ifBit bits f n s = .ok t) : HandlerFrame s t := by
  unfold ifBit at h
  split at h
  · exact hf n s t h
  · exact Except.ok.inj h ▸ HandlerFrame.refl s

theorem ifBit_of_noop {bits : Bank Bool} {f : EpNum → State → Result} {n : EpNum} {s : State} (h : f n s = .ok s) :
    ifBit bits f n s = .ok s := by
  unfold ifBit
  split
  · exact h
  · rfl

/-- The IN loop of the default table calls INH 1 and INH 2. -/
theorem forNumbers_inh_default {bits : Bank Bool} {s : State} (hs : TableShape Config.cfg s) :
    forNumbers dataNumbers (ifBit bits inh) s = andThen (ifBit bits inh 1 s) (ifBit bits inh 2) := by
  have hrest : ∃ rest, dataNumbers = 1 :: 2 :: rest ∧ ∀ n ∈ rest, Config.cfg.present n .IN = false :=
    ⟨dataNumbers.drop 2, by decide, by decide⟩
  obtain ⟨rest, hn, hrest⟩ := hrest
  rw [hn]
  simp only [forNumbers]
  cases h1 : ifBit bits inh 1 s with
  | error e => rfl
  | ok s1 =>
    rw [andThen_of_ok, andThen_of_ok]
    cases h2 : ifBit bits inh 2 s1 with
    | error e => rfl
    | ok s2 =>
      have hf := (frame_ifBit (fun _ _ _ => frame_inh) h1).trans (frame_ifBit (fun _ _ _ => frame_inh) h2)
      refine forNumbers_of_noop fun n hn => ifBit_of_noop (inh_of_guarded fun e he => ?_)
      have hpres := shape_present (shape_of_tableKept hf.table hs) n .IN
      rw [present_of_entry he, hrest n hn] at hpres
      cases hpres

/-- The OUT loop of the default table calls OUTH 1. -/
theorem forNumbers_outh_default {bits : Bank Bool} {s : State} (hs : TableShape Config.cfg s) :
    forNumbers dataNumbers (ifBit bits (outh Config.cfg)) s = ifBit bits (outh Config.cfg) 1 s := by
  have hrest : ∃ rest, dataNumbers = 1 :: rest ∧ ∀ n ∈ rest, Config.cfg.present n .OUT = false :=
    ⟨dataNumbers.drop 1, by decide, by decide⟩
  obtain ⟨rest, hn, hrest⟩ := hrest
  rw [hn]
  simp only [forNumbers]
  cases h1 : ifBit bits (outh Config.cfg) 1 s with
  | error e => rfl
  | ok s1 =>
    have hf := frame_ifBit (fun _ _ _ => frame_outh) h1
    refine forNumbers_of_noop fun n hn => ifBit_of_noop (outh_of_guarded fun e he => ?_)
    have hpres := shape_present (shape_of_tableKept hf.table hs) n .OUT
    rw [present_of_entry he, hrest n hn] at hpres
    cases hpres

/-- The routing over the default table: CTRLH, INH 1, INH 2, OUTH 1, then the bus events (R160). -/
theorem irq_default {s : State} (hs : TableShape Config.cfg s) : irq Config.cfg s =
    andThen (if s.intrIn.get 0 then ctrlh Config.cfg (clearPending s) else .ok (clearPending s)) fun s1 =>
      andThen (ifBit s.intrIn inh 1 s1) fun s2 =>
        andThen (ifBit s.intrIn inh 2 s2) fun s3 =>
          andThen (ifBit s.intrOut (outh Config.cfg) 1 s3) fun s4 => .ok (usbEvents Config.cfg s.intrUsb s4) := by
  rw [irq_eq_route, route]
  cases h1 : (if s.intrIn.get 0 then ctrlh Config.cfg (clearPending s) else .ok (clearPending s)) with
  | error e => rfl
  | ok s1 =>
    have hf1 : HandlerFrame (clearPending s) s1 := by
      split at h1
      · exact frame_ctrlh h1
      · exact Except.ok.inj h1 ▸ HandlerFrame.refl _
    have hs1 := shape_of_tableKept hf1.table (shape_clearPending hs)
    rw [andThen_of_ok, andThen_of_ok, forNumbers_inh_default hs1]
    cases h2 : ifBit s.intrIn inh 1 s1 with
    | error e => rfl
    | ok s2 =>
      rw [andThen_of_ok, andThen_of_ok]
      cases h3 : ifBit s.intrIn inh 2 s2 with
      | error e => rfl
      | ok s3 =>
        have hf3 := (frame_ifBit (fun _ _ _ => frame_inh) h2).trans (frame_ifBit (fun _ _ _ => frame_inh) h3)
        rw [andThen_of_ok, andThen_of_ok, forNumbers_outh_default (shape_of_tableKept hf3.table hs1)]

/-- Settles O27: the routing over the default table, with the four calls as given. -/
theorem irqCallsHandlersInOrder : Obligations.IrqCallsHandlersInOrder := by
  intro s s1 s2 s3 s4 hs _ h1 h2 h3 h4
  rw [exec_irq, irq_default hs, h1, andThen_of_ok, ifBit, h2, andThen_of_ok, ifBit, h3, andThen_of_ok, ifBit, h4,
    andThen_of_ok, conclude_ok]

theorem clearPending_of_none {s : State} (hin : ∀ n, s.intrIn.get n = false) (hout : ∀ n, s.intrOut.get n = false)
    (husb : s.intrUsb = ⟨false, false, false⟩) (hdma : s.dmaIntr = 0) : clearPending s = s := by
  have hI : s.intrIn = Bank.all false := Bank.ext_get fun n => by rw [Bank.get_all, hin]
  have hO : s.intrOut = Bank.all false := Bank.ext_get fun n => by rw [Bank.get_all, hout]
  have key : ∀ u i o d, s.intrUsb = u → s.intrIn = i → s.intrOut = o → s.dmaIntr = d →
      { s with intrUsb := u, intrIn := i, intrOut := o, dmaIntr := d } = s := by
    rintro _ _ _ _ rfl rfl rfl rfl
    rfl
  exact key _ _ _ _ husb hI hO hdma

/-- Settles O28: without endpoint flags the routing is the bus events, and without a bus reset these are notifications. -/
theorem irqWithoutHandlers : Obligations.IrqWithoutHandlers := by
  intro s hin hout hreset
  have hirq : exec .irq s = .next (usbEvents Config.cfg s.intrUsb (clearPending s)) := by
    rw [exec_irq, irq_eq_route, route_of_no_endpoint hin hout, conclude_ok]
  refine ⟨?_, fun husb hdma => ?_⟩
  · rw [hirq, usbEvents_of_no_reset _ _ hreset, usbNotifications, hreset]
    simp only [Bool.false_eq_true, if_false, List.nil_append, clearPending, UsbFlags.zero, List.append_assoc]
  · rw [hirq, clearPending_of_none hin hout husb hdma, husb]
    rfl

/-! #### Where the handlers, SEND and IRQ fault -/

/-- An operation whose rule faults, on a state that has no fault yet. -/
theorem conclude_fault_of_no_fault {s : State} {r : Result} {f : FaultReason} (hf : s.fault = none)
    (hr : r = .error (.fault f)) : conclude s r = .next { s with fault := some f } := by
  rw [hr, conclude_fault, markFault_of_no_fault hf]

/-- INH faults where FILL finds a packet that has not been taken (R150, R132). -/
theorem inh_busy {ep : EpNum} {s : State} {e : Entry} (hep : ep ≠ 0) (he : s.entry ep .IN = some e) (hbuf : e.buf ≠ .none)
    (hdma : e.usesDma = false) (hstall : (s.inCsr.get ep).sentStall = false) (hempty : s.tx.get ep = [])
    (hchunk : e.chunk ≠ 0) (hrdy : (s.inCsr.get ep).inPktRdy = true) : inh ep s = .error (.fault .FifoBusy) := by
  have he' : (selectEp ep s).entry ep .IN = some e := by simpa using he
  have hrdy' : (selectEp ep s).inPktRdy ep = true := by rwa [inPktRdy_eq, if_neg hep]
  rw [inh_eq hep he (not_guarded hbuf hdma), if_neg (by simp [hstall]), if_neg (by simp [hempty]),
    fill_busy he' hchunk hbuf hrdy', andThen_of_error]

/-- EP0SEND faults where FILL finds a packet that has not been taken (R141, R132). -/
theorem ep0send_busy {s : State} {e : Entry} (he : s.entry 0 .IN = some e) (hbuf : e.buf ≠ .none)
    (hchunk : e.chunk ≠ 0) (hrdy : s.csr0.inPktRdy = true) : ep0send s = .error (.fault .FifoBusy) := by
  have he' : (selectEp 0 s).entry 0 .IN = some e := by simpa using he
  have hlen : e.len ≠ 0 := fun h => hchunk (by rw [Entry.chunk, Entry.remaining, h, Nat.zero_sub, Nat.zero_min])
  rw [ep0send_eq he, if_neg hlen, fill_busy he' hchunk hbuf hrdy, andThen_of_error]

/-- Settles O41: the faults of FILL and DRAIN pass through the handler, SEND's kick and the routing; `conclude` keeps the
start state but for the mark. -/
theorem handlersFault : Obligations.HandlersFault := by
  intro s hf
  refine ⟨fun ep e hep hbuf hdma => ⟨fun he hstall hempty hchunk hrdy => ?_, fun he hstall hrdy => ?_,
    fun he hstall hrdy hover => ?_⟩, fun e he hbuf hchunk hrdy => ?_, fun e he hbuf hstall hend hidle havail hover => ?_,
    fun ep e buf len hon he hfree hcap hbuf hlen hadmit hpend => ?_, fun hs r => ⟨fun hbit hc => ?_, fun s1 h1 =>
    ⟨fun hbit hc => ?_, fun s2 h2 => ⟨fun hbit hc => ?_, fun s3 h3 hbit hc => ?_⟩⟩⟩⟩
  · exact conclude_fault_of_no_fault hf (inh_busy hep he hbuf hdma hstall hempty hchunk hrdy)
  · refine conclude_fault_of_no_fault hf ?_
    rw [outh_eq hep he (not_guarded hbuf hdma), if_neg (by simp [hstall]), if_pos hrdy]
  · refine conclude_fault_of_no_fault hf ?_
    rw [outh_eq hep he (not_guarded hbuf hdma), if_neg (by simp [hstall]), if_neg (by simp [hrdy]),
      if_pos (show e.remaining < _ from hover)]
  · exact conclude_fault_of_no_fault hf (ep0send_busy he hbuf hchunk hrdy)
  · refine conclude_fault_of_no_fault hf ?_
    have he' : (selectEp 0 s).entry 0 .OUT = some e := by simpa using he
    rw [ctrlh_setup hstall hend hidle havail, receiveSetup_eq,
      drain_ctrlOverrun he' hbuf (Nat.le_refl _) hover, andThen_of_error]
  · have hchunk : (e.accept buf len).chunk ≠ 0 := by
      have hlen : len.toNat ≠ 0 := fun h => hlen (BitVec.eq_of_toNat_eq h)
      rw [accept_chunk]
      omega
    have hbuf' : (e.accept buf len).buf ≠ .none := by rw [accept_of_ne hbuf]; simp
    by_cases hep : ep = 0
    · subst hep
      obtain ⟨hidle, hrdy⟩ := (if_pos rfl : _ = _) ▸ hpend
      rw [exec_send_eq_sendKick hon he (fun h => hbuf h.2.1) (fun h => absurd h hbuf) (fun _ => hadmit) hfree
        fun _ => hidle]
      refine conclude_fault_of_no_fault hf ?_
      rw [sendKick_ep0, ep0send_busy (ep0Queued_entry e buf len s) hbuf' hchunk hrdy, andThen_of_error]
    · rw [if_neg hep] at hpend
      obtain ⟨hdma, hstall, hempty, hrdy⟩ := hpend
      rw [exec_send_eq_sendKick hon he (fun h => hbuf h.2.1) (fun h => absurd h hbuf) (fun _ => hadmit) hfree
        fun h => absurd h hep]
      refine conclude_fault_of_no_fault hf ?_
      rw [sendKick_data hep, inh_busy hep (sendQueued_entry ep e buf len s) hbuf' hdma hstall hempty hchunk hrdy,
        andThen_of_error]
  · refine conclude_fault_of_no_fault hf ?_
    rw [irq_default hs, if_pos hbit, hc, andThen_of_error]
  · refine conclude_fault_of_no_fault hf ?_
    rw [irq_default hs, h1, andThen_of_ok, ifBit, if_pos hbit, hc, andThen_of_error]
  · refine conclude_fault_of_no_fault hf ?_
    rw [irq_default hs, h1, andThen_of_ok, ifBit, h2, andThen_of_ok, ifBit, if_pos hbit, hc, andThen_of_error]
  · refine conclude_fault_of_no_fault hf ?_
    rw [irq_default hs, h1, andThen_of_ok, ifBit, h2, andThen_of_ok, ifBit, h3, andThen_of_ok, ifBit, if_pos hbit, hc,
      andThen_of_error]

/-! #### The loops over the default table (R175, R250) -/

/-- The FIFOs, the flags of the data endpoints and `INDEX`: what FLUSH writes (R133). -/
structure FifoSide where
  tx     : Bank (List Byte)
  rx     : Bank (List Byte)
  inCsr  : Bank InCsr
  outCsr : Bank OutCsr
  index  : EpNum

def State.fifoSide (s : State) : FifoSide := ⟨s.tx, s.rx, s.inCsr, s.outCsr, s.index⟩

/-- FLUSH of a data entry, on what it writes (R133). -/
def FifoSide.flush (n : EpNum) (d : Dir) (x : FifoSide) : FifoSide :=
  match d with
  | .IN => { x with tx := x.tx.put n [], inCsr := x.inCsr.put n { x.inCsr.get n with inPktRdy := false }, index := n }
  | .OUT => { x with rx := x.rx.put n [], outCsr := x.outCsr.put n { x.outCsr.get n with outPktRdy := false }, index := n }

/-- The three data entries of the default table flushed, in table order. -/
def FifoSide.flushDefault (x : FifoSide) : FifoSide where
  tx := (x.tx.put 1 []).put 2 []
  rx := x.rx.put 1 []
  inCsr := (x.inCsr.put 1 { x.inCsr.get 1 with inPktRdy := false }).put 2 { x.inCsr.get 2 with inPktRdy := false }
  outCsr := x.outCsr.put 1 { x.outCsr.get 1 with outPktRdy := false }
  index := 2

theorem FifoSide.flush_data_entries (x : FifoSide) : ((x.flush 1 .OUT).flush 1 .IN).flush 2 .IN = x.flushDefault := by
  have hget (r : InCsr) : (x.inCsr.put 1 r).get 2 = x.inCsr.get 2 := by rw [Bank.get_put, if_neg (by decide)]
  simp only [FifoSide.flush, FifoSide.flushDefault, hget]

theorem flush_of_absent {s : State} {n : EpNum} {d : Dir} (h : s.entry n d = none) : flush n d s = s := by
  simp only [flush, h]

/-- FLUSH on what it writes: nothing for a control entry, the packet of the direction for a data entry. -/
theorem flush_fifoSide {s : State} {n : EpNum} {d : Dir} {t : EpType} (h : (s.entry n d).map Entry.etype = some t) :
    (flush n d s).fifoSide = if t = .control then s.fifoSide else s.fifoSide.flush n d := by
  obtain ⟨e, he, rfl⟩ := Option.map_eq_some_iff.1 h
  rw [flush_of_entry he]
  split
  · rfl
  · cases d <;> rfl

/-- A pass of a loop over the table: nothing on an absent key, the types of the entries kept, and what FLUSH writes written
as FLUSH writes it. -/
structure TablePass (f : EpNum → Dir → State → State) : Prop where
  absent : ∀ {n d s}, s.entry n d = none → f n d s = s
  etype : ∀ n d s m d', ((f n d s).entry m d').map Entry.etype = (s.entry m d').map Entry.etype
  fifoSide : ∀ n d s, (f n d s).fifoSide = (flush n d s).fifoSide

theorem clearEntry_of_absent {s : State} {n : EpNum} {d : Dir} (h : s.entry n d = none) : clearEntry n d s = s := by
  simp only [clearEntry, h]

theorem clearEntry_fifoSide (n : EpNum) (d : Dir) (s : State) : (clearEntry n d s).fifoSide = s.fifoSide := by
  simp only [State.fifoSide, clearEntry_tx, clearEntry_rx, clearEntry_inCsr, clearEntry_outCsr, clearEntry_index]

theorem tablePass_cancelEntry : TablePass cancelEntry where
  absent h := by rw [cancelEntry, flush_of_absent h, clearEntry_of_absent h]
  etype n d s m d' := by
    rw [cancelEntry_entry]
    split
    · rw [Option.map_map]; rfl
    · rfl
  fifoSide n d s := clearEntry_fifoSide n d _

theorem rederiveCap_of_absent {c : Cfg} {s : State} {n : EpNum} {d : Dir} (h : s.entry n d = none) :
    rederiveCap c n d s = s := by
  simp only [rederiveCap, h]

/-- A capacity re-derived changes nothing that FLUSH reads or writes. -/
theorem flush_rederiveCap_fifoSide (c : Cfg) (n : EpNum) (d : Dir) (s : State) :
    (flush n d (rederiveCap c n d s)).fifoSide = (flush n d s).fifoSide := by
  cases he : s.entry n d with
  | none => rw [rederiveCap_of_absent he]
  | some e =>
    have hr : (rederiveCap c n d s).entry n d = some { e with cap := resetCap c s.hsMode e.etype } := by
      rw [rederiveCap_entry, if_pos ⟨rfl, rfl⟩, he]; rfl
    have hside : (rederiveCap c n d s).fifoSide = s.fifoSide := by
      simp only [rederiveCap, he, State.fifoSide, putEntry_tx, putEntry_rx, putEntry_inCsr, putEntry_outCsr,
        putEntry_index]
    rw [flush_fifoSide (t := e.etype) (by rw [hr]; rfl), flush_fifoSide (t := e.etype) (by rw [he]; rfl), hside]

theorem tablePass_resetEntry (c : Cfg) : TablePass (resetEntry c) where
  absent h := by rw [resetEntry, rederiveCap_of_absent h, flush_of_absent h, clearEntry_of_absent h]
  etype n d s m d' := by
    rw [resetEntry_entry]
    split
    · rw [Option.map_map]; rfl
    · rfl
  fifoSide n d s := (clearEntry_fifoSide n d _).trans (flush_rederiveCap_fifoSide c n d s)

/-- The keys of the default table, in table order (R21). -/
def defaultKeys : List (EpNum × Dir) := [(0, .OUT), (0, .IN), (1, .OUT), (1, .IN), (2, .IN)]

theorem filter_present_tableOrder : tableOrder.filter (fun k => Config.cfg.present k.1 k.2) = defaultKeys := by decide

section
variable {f : EpNum → Dir → State → State} (hf : TablePass f)
include hf

/-- A loop over the table is the loop over its present keys. -/
theorem TablePass.forKeys_filter (ks : List (EpNum × Dir)) (s : State) :
    forKeys ks f s = forKeys (ks.filter fun k => s.present k.1 k.2) f s := by
  induction ks generalizing s with
  | nil => rfl
  | cons k t ih =>
    obtain ⟨n, d⟩ := k
    have hpres : (fun k : EpNum × Dir => (f n d s).present k.1 k.2) = fun k => s.present k.1 k.2 := by
      funext k
      have := congrArg Option.isSome (hf.etype n d s k.1 k.2)
      rw [Option.isSome_map, Option.isSome_map] at this
      exact this
    cases he : s.entry n d with
    | none =>
      rw [List.filter_cons_of_neg (by simp [present_of_no_entry he]), forKeys, hf.absent he]
      exact ih s
    | some e =>
      rw [List.filter_cons_of_pos (p := fun k => s.present k.1 k.2) (a := (n, d)) (present_of_entry he), forKeys, forKeys, ih, hpres]

theorem TablePass.forKeys_default {s : State} (hs : TableShape Config.cfg s) :
    forKeys tableOrder f s = forKeys defaultKeys f s := by
  have hpres : (fun k : EpNum × Dir => s.present k.1 k.2) = fun k => Config.cfg.present k.1 k.2 :=
    funext fun k => shape_present hs k.1 k.2
  rw [hf.forKeys_filter, hpres, filter_present_tableOrder]

/-- What the loop over the default table writes of what FLUSH writes: the three data entries are flushed in turn. -/
theorem TablePass.fifoSide_default {s : State} (hs : TableShape Config.cfg s) :
    (forKeys tableOrder f s).fifoSide = s.fifoSide.flushDefault := by
  have pass {n d t u} (h : (s.entry n d).map Entry.etype = some t)
      (hu : (u.entry n d).map Entry.etype = (s.entry n d).map Entry.etype) :
      (f n d u).fifoSide = if t = .control then u.fifoSide else u.fifoSide.flush n d := by
    rw [hf.fifoSide, flush_fifoSide (hu.trans h)]
  have het (n d) := shape_etype hs n d
  rw [hf.forKeys_default hs]
  simp only [defaultKeys, forKeys]
  rw [pass (het 2 .IN) (by simp only [hf.etype]), pass (het 1 .IN) (by simp only [hf.etype]),
    pass (het 1 .OUT) (by simp only [hf.etype]), pass (het 0 .IN) (by simp only [hf.etype]), pass (het 0 .OUT) rfl]
  exact FifoSide.flush_data_entries s.fifoSide

end

theorem cancelAll_fifoSide (s : State) :
    (cancelAll s).fifoSide = (forKeys tableOrder cancelEntry (setMask true s)).fifoSide := by
  rw [cancelAll]
  generalize forKeys tableOrder cancelEntry (setMask true s) = m
  rfl

theorem resetSequence_fifoSide (c : Cfg) (s : State) :
    (resetSequence c s).fifoSide = (forKeys tableOrder (resetEntry c) { s with faddr := 0 }).fifoSide := by
  rw [resetSequence]
  generalize forKeys tableOrder (resetEntry c) { s with faddr := 0 } = m
  rfl

/-- CANCELALL over the default table (R175): the whole next state. -/
theorem cancelAll_default {s : State} (hs : TableShape Config.cfg s) : cancelAll s = { s with
    epOut := Vector.ofFn (fun n : EpNum => (s.epOut.get n).map (fun e =>
      { e with len := 0, prog := 0, buf := if n = 0 then .ctrl else .none }))
    epIn := Vector.ofFn (fun n : EpNum => (s.epIn.get n).map (fun e => { e with len := 0, prog := 0, buf := .none }))
    ep0state := .Idle
    tx := (s.tx.put 1 []).put 2 []
    rx := s.rx.put 1 []
    inCsr := (s.inCsr.put 1 { s.inCsr.get 1 with inPktRdy := false }).put 2 { s.inCsr.get 2 with inPktRdy := false }
    outCsr := s.outCsr.put 1 { s.outCsr.get 1 with outPktRdy := false }
    index := 2, irqMasked := false } := by
  have hside : (cancelAll s).fifoSide = s.fifoSide.flushDefault := by
    rw [cancelAll_fifoSide, tablePass_cancelEntry.fifoSide_default (s := setMask true s) hs]
    rfl
  have hent := cancelAll_entry s
  have heq := cancelAll_eq s
  generalize cancelAll s = t at hside hent heq ⊢
  have hOut : t.epOut = Vector.ofFn (fun n : EpNum => (s.epOut.get n).map (fun e =>
      { e with len := 0, prog := 0, buf := if n = 0 then .ctrl else .none })) := by
    refine Bank.ext_get fun n => ?_
    rw [Bank.get_ofFn]
    refine (hent n .OUT).trans ?_
    simp only [Entry.clear, and_true]
    rfl
  have hIn : t.epIn = Vector.ofFn (fun n : EpNum => (s.epIn.get n).map (fun e =>
      { e with len := 0, prog := 0, buf := .none })) := by
    refine Bank.ext_get fun n => ?_
    rw [Bank.get_ofFn]
    refine (hent n .IN).trans ?_
    simp only [Entry.clear, reduceCtorEq, and_false, if_false]
    rfl
  obtain ⟨htx, hrx, hinCsr, houtCsr, hindex⟩ := FifoSide.mk.injEq .. ▸ hside
  rw [heq, hOut, hIn, htx, hrx, hinCsr, houtCsr, hindex]
  rfl

/-- The enables after the reset sequence: those of the data entries are set, the others as they were (R250). -/
theorem resetSequence_enables (c : Cfg) (s : State) :
    (∀ n, (resetSequence c s).intrInE.get n = if n ≠ 0 ∧ s.present n .IN then true else s.intrInE.get n)
    ∧ ∀ n, (resetSequence c s).intrOutE.get n = if n ≠ 0 ∧ s.present n .OUT then true else s.intrOutE.get n := by
  have hpres (n : EpNum) (d : Dir) : (resetSequence c s).present n d = s.present n d := by
    rw [State.present, State.present, resetSequence_entry, Option.isSome_map]
  obtain ⟨m, hm, he⟩ := resetSequence_loop c s
  rw [he] at hpres ⊢
  refine ⟨fun n => ?_, fun n => ?_⟩
  · rw [enableData, Bank.get_ofFn, hm.intrInE, ← hpres]
    rfl
  · rw [enableData, Bank.get_ofFn, hm.intrOutE, ← hpres]
    rfl

/-- The reset sequence over the default table (R250): the whole next state. -/
theorem resetSequence_default {s : State} (hs : TableShape Config.cfg s) : resetSequence Config.cfg s = { s with
    faddr := 0
    epOut := Vector.ofFn (fun n : EpNum => (s.epOut.get n).map (fun e =>
      { e with cap := resetCap Config.cfg s.hsMode e.etype, len := 0, prog := 0, buf := if n = 0 then .ctrl else .none }))
    epIn := Vector.ofFn (fun n : EpNum => (s.epIn.get n).map (fun e =>
      { e with cap := resetCap Config.cfg s.hsMode e.etype, len := 0, prog := 0, buf := .none }))
    ep0state := .Idle
    tx := (s.tx.put 1 []).put 2 []
    rx := s.rx.put 1 []
    inCsr := (s.inCsr.put 1 { s.inCsr.get 1 with inPktRdy := false }).put 2 { s.inCsr.get 2 with inPktRdy := false }
    outCsr := s.outCsr.put 1 { s.outCsr.get 1 with outPktRdy := false }
    intrInE := (s.intrInE.put 1 true).put 2 true
    intrOutE := s.intrOutE.put 1 true
    index := 2 } := by
  have hside : (resetSequence Config.cfg s).fifoSide = s.fifoSide.flushDefault := by
    rw [resetSequence_fifoSide, (tablePass_resetEntry _).fifoSide_default (s := { s with faddr := 0 }) hs]
    rfl
  have hent := resetSequence_entry Config.cfg s
  have heq := resetSequence_eq Config.cfg s
  have hInE : (resetSequence Config.cfg s).intrInE = (s.intrInE.put 1 true).put 2 true := by
    have hkeys : ∀ n : EpNum, (n ≠ 0 ∧ Config.cfg.present n .IN = true) ↔ n = 1 ∨ n = 2 := by decide
    refine Bank.ext_get fun n => ?_
    rw [(resetSequence_enables _ s).1, shape_present hs, Bank.get_put, Bank.get_put]
    simp only [hkeys, eq_comm (a := n)]
    by_cases h1 : 1 = n <;> by_cases h2 : 2 = n <;> simp only [h1, h2, if_true, if_false, or_true, or_false]
  have hOutE : (resetSequence Config.cfg s).intrOutE = s.intrOutE.put 1 true := by
    have hkeys : ∀ n : EpNum, (n ≠ 0 ∧ Config.cfg.present n .OUT = true) ↔ n = 1 := by decide
    refine Bank.ext_get fun n => ?_
    rw [(resetSequence_enables _ s).2, shape_present hs, Bank.get_put]
    simp only [hkeys, eq_comm (a := n)]
  generalize resetSequence Config.cfg s = t at hside hent heq hInE hOutE ⊢
  have hOut : t.epOut = Vector.ofFn (fun n : EpNum => (s.epOut.get n).map (fun e =>
      { e with cap := resetCap Config.cfg s.hsMode e.etype, len := 0, prog := 0, buf := if n = 0 then .ctrl else .none })) := by
    refine Bank.ext_get fun n => ?_
    rw [Bank.get_ofFn]
    refine (hent n .OUT).trans ?_
    simp only [Entry.reset, and_true]
    rfl
  have hIn : t.epIn = Vector.ofFn (fun n : EpNum => (s.epIn.get n).map (fun e =>
      { e with cap := resetCap Config.cfg s.hsMode e.etype, len := 0, prog := 0, buf := .none })) := by
    refine Bank.ext_get fun n => ?_
    rw [Bank.get_ofFn]
    refine (hent n .IN).trans ?_
    simp only [Entry.reset, reduceCtorEq, and_false, if_false]
    rfl
  obtain ⟨htx, hrx, hinCsr, houtCsr, hindex⟩ := FifoSide.mk.injEq .. ▸ hside
  rw [heq, hOut, hIn, htx, hrx, hinCsr, houtCsr, hindex, hInE, hOutE]
  rfl

/-- Settles O24: `cancelAll_default`. -/
theorem cancelAllResult : Obligations.CancelAllResult := by
  intro s hs hon
  rw [exec_cancelall, commandCheck_on hon, conclude_ok, cancelAll_default hs]

/-- Settles O31: `resetSequence_default`, and the notification. -/
theorem busResetHandler : Obligations.BusResetHandler := by
  intro s hs
  rw [exec_reseth, reseth, resetSequence_default hs]
  rfl

/-- Settles O11: `resetSequence_default` on the powered-up state, whose banks are closed terms, and the attachment. -/
theorem initFromOff : Obligations.InitFromOff := by
  intro s hs hoff
  have hs' : TableShape Config.cfg { powerUp Config.cfg s with phase := .On } := hs
  rw [exec_init, init, if_neg (by simp [hoff]), conclude_ok, resetSequence_default hs']
  rfl

end Sys2Proof.Machine
end

/-! ### Caller memory and the control buffer: who writes them (R33, R51, R70, R77) -/

section
namespace Sys2Proof.Machine

/-! #### Writes to a set of addresses -/

/-- From `s` to `t` caller memory is written at addresses in `W` at most: the addresses held stay, and where the memory of `s`
is canonical so is that of `t`, it lists held addresses besides those of `s`, and reads outside `W` as before. -/
structure Writes (W : Nat → Prop) (s t : State) : Prop where
  memMap : t.memMap = s.memMap
  wf : Memory.wf s.mem = true → Memory.wf t.mem = true
  listed : Memory.wf s.mem = true → ∀ x b, (x, b) ∈ t.mem → (x, b) ∈ s.mem ∨ s.holds x = true
  outside : Memory.wf s.mem = true → ∀ x, ¬ W x → t.readByte x = s.readByte x

theorem holds_congr {s t : State} (h : t.memMap = s.memMap) (x : Nat) : t.holds x = s.holds x := by
  simp only [State.holds, h]

theorem Writes.of_mem_eq {W : Nat → Prop} {s t : State} (hmem : t.mem = s.mem) (hmap : t.memMap = s.memMap) :
    Writes W s t where
  memMap := hmap
  wf h := hmem ▸ h
  listed _ _ _ h := .inl (hmem ▸ h)
  outside _ x _ := readByte_congr hmem hmap x

theorem Writes.trans {W : Nat → Prop} {s t u : State} (h : Writes W s t) (k : Writes W t u) : Writes W s u where
  memMap := k.memMap.trans h.memMap
  wf hs := k.wf (h.wf hs)
  listed hs x b hx := by
    rcases k.listed (h.wf hs) x b hx with hx | hx
    · exact h.listed hs x b hx
    · exact .inr ((holds_congr h.memMap x) ▸ hx)
  outside hs x hx := (k.outside (h.wf hs) x hx).trans (h.outside hs x hx)

theorem Writes.mono {W V : Nat → Prop} {s t : State} (h : Writes W s t) (hWV : ∀ x, W x → V x) : Writes V s t where
  memMap := h.memMap
  wf := h.wf
  listed := h.listed
  outside hs x hx := h.outside hs x fun hw => hx (hWV x hw)

/-- A write of bytes writes the addresses of its run. -/
theorem writes_writeBytes {bs : List Byte} {s t : State} {a : Nat} (h : s.writeBytes a bs = some t) :
    Writes (fun x => a ≤ x ∧ x < a + bs.length) s t := by
  obtain ⟨m, rfl⟩ := writeBytes_only_mem h
  refine ⟨rfl, fun hs => ?_, fun hs => ?_, fun hs x hx => ?_⟩
  all_goals obtain ⟨m', hm, hwf, hlisted, hread⟩ := writeBytes_some hs h
  · rw [hm]; exact hwf
  · rw [hm]; exact hlisted
  · rw [hread x, dif_neg hx]

/-! #### The region of DRAIN, and the regions of the transfers in flight -/

/-- Address `x` is in the region of `size` bytes at the progress of entry `(ep,OUT)`. -/
def DrainRegion (s : State) (ep : EpNum) (size : Nat) (x : Nat) : Prop :=
  ∃ e a, s.entry ep .OUT = some e ∧ e.buf = .mem a ∧ a + e.prog ≤ x ∧ x < a + e.prog + size

/-- Address `x` is in the part of a caller's region that an OUT transfer in flight has still to fill. -/
def InFlight (s : State) (x : Nat) : Prop :=
  ∃ n e a, s.entry n .OUT = some e ∧ e.buf = .mem a ∧ a + e.prog ≤ x ∧ x < a + e.len

/-- DRAIN writes memory in its region alone. -/
theorem writes_drain {c : Cfg} {ep : EpNum} {size : Nat} {s t : State} (h : drain c ep size s = .ok t) :
    Writes (DrainRegion s ep size) s t := by
  obtain ⟨e, he, hlen, ⟨-, -, rfl⟩ | ⟨a, hbuf, hw⟩⟩ := drain_ok h
  · exact .of_mem_eq rfl rfl
  · have hput : Writes (DrainRegion s ep size) s { s with rx := s.rx.put ep ((s.rx.get ep).drop size) } :=
      .of_mem_eq rfl rfl
    refine hput.trans ((writes_writeBytes hw).mono fun x hx => ?_)
    rw [List.length_take_of_le hlen] at hx
    exact ⟨e, a, he, hbuf, hx⟩

/-! #### The operations that write no memory and no control buffer -/

theorem fill_kept {ep : EpNum} {size : Nat} {s t : State} (h : fill ep size s = .ok t) :
    t.mem = s.mem ∧ t.ctrlBuf = s.ctrlBuf := by
  obtain ⟨e, -, ⟨-, rfl⟩ | ⟨-, -, -, a, bs, -, -, rfl⟩⟩ := fill_ok h
  · exact ⟨rfl, rfl⟩
  · exact ⟨rfl, rfl⟩

theorem ep0send_kept {s t : State} (h : ep0send s = .ok t) : t.mem = s.mem ∧ t.ctrlBuf = s.ctrlBuf := by
  obtain ⟨e, -, ⟨-, rfl⟩ | ⟨-, s1, hf, ⟨-, rfl⟩ | ⟨-, rfl⟩⟩⟩ := ep0send_ok h
  · simp [ep0Last]
  · simpa [ep0Last] using fill_kept hf
  · simpa [ep0More] using fill_kept hf

theorem inh_kept {ep : EpNum} {s t : State} (h : inh ep s = .ok t) : t.mem = s.mem ∧ t.ctrlBuf = s.ctrlBuf := by
  rcases inh_ok h with rfl | ⟨-, e, -, -, rfl | rfl | ⟨-, s1, hf, rfl⟩⟩
  · exact ⟨rfl, rfl⟩
  · exact ⟨rfl, rfl⟩
  · exact ⟨rfl, rfl⟩
  · unfold inhAfterFill
    simp only
    split <;> simpa using fill_kept hf

theorem send_kept {c : Cfg} {ep : EpNum} {e : Entry} {buf len : Word} {s t : State} (h : send c ep e buf len s = .ok t) :
    t.mem = s.mem ∧ t.ctrlBuf = s.ctrlBuf := by
  obtain ⟨-, -, -, rfl⟩ | ⟨-, -, -, -, hk⟩ := send_ok h
  · exact ⟨rfl, rfl⟩
  · obtain ⟨u, rfl, ⟨-, hu⟩ | ⟨-, hu⟩⟩ := sendKick_ok hk
    · have hk := ep0send_kept hu
      exact hk
    · have hk := inh_kept hu
      exact hk

theorem recv_kept {c : Cfg} {ep : EpNum} {e : Entry} {buf len : Word} {s t : State} (h : recv c ep e buf len s = .ok t) :
    t.mem = s.mem ∧ t.ctrlBuf = s.ctrlBuf := by
  obtain ⟨-, -, -, rfl⟩ | ⟨-, -, -, -, rfl⟩ := recv_ok h
  · exact ⟨rfl, rfl⟩
  · exact ⟨rfl, rfl⟩

theorem usbEvents_kept (c : Cfg) (u : UsbFlags) (s : State) :
    (usbEvents c u s).mem = s.mem ∧ (usbEvents c u s).memMap = s.memMap := by
  rw [usbEvents_frame]
  exact ⟨rfl, rfl⟩

/-! #### The handlers that call DRAIN -/

/-- What OUTH leaves of a state after its drain: memory, control buffer and the other OUT entries as they are; its own entry
advanced by the packet, or empty. -/
theorem outhAfterDrain_entry {ep : EpNum} (hep : ep ≠ 0) (e : Entry) (cnt : Nat) (s : State) (n : EpNum) :
    (outhAfterDrain ep e cnt s).entry n .OUT = if ep = n then
      some (if cnt < e.cap ∨ e.len ≤ e.prog + cnt then { e with buf := .none, len := 0, prog := 0 }
        else { e with prog := e.prog + cnt })
      else s.entry n .OUT := by
  unfold outhAfterDrain
  by_cases hn : ep = n
  · subst hn
    simp only [if_true]
    split
    · rw [clearEntry_entry, if_pos ⟨rfl, rfl⟩]
      simp [Entry.clear, hep]
    · simp
  · simp only [if_neg hn]
    split
    · rw [clearEntry_entry, if_neg fun h => hn h.1]
      simp [putEntry_entry, hn]
    · simp [putEntry_entry, hn]

theorem outhAfterDrain_kept (ep : EpNum) (e : Entry) (cnt : Nat) (s : State) :
    (outhAfterDrain ep e cnt s).mem = s.mem ∧ (outhAfterDrain ep e cnt s).memMap = s.memMap
      ∧ (outhAfterDrain ep e cnt s).ctrlBuf = s.ctrlBuf := by
  unfold outhAfterDrain
  simp only
  split <;> simp

/-- OUTH writes the region of its transfer that is still to fill, and no region in flight grows (R151). -/
theorem outh_inFlight {c : Cfg} {ep : EpNum} {s t : State} (h : outh c ep s = .ok t) :
    Writes (InFlight s) s t ∧ ∀ x, InFlight t x → InFlight s x := by
  rcases outh_ok h with rfl | ⟨hep, e, he, -, rfl | ⟨hfit, s1, hd, rfl⟩⟩
  · exact ⟨.of_mem_eq rfl rfl, fun _ => id⟩
  · exact ⟨.of_mem_eq rfl rfl, fun _ => id⟩
  · have hsel : Writes (InFlight s) s (selectEp ep s) := .of_mem_eq rfl rfl
    have hdrain : Writes (InFlight s) (selectEp ep s) s1 := (writes_drain hd).mono fun x hx => by
      obtain ⟨f, a, hf, hbuf, hlo, hhi⟩ := hx
      have hf : s.entry ep .OUT = some f := by simpa using hf
      obtain rfl : e = f := Option.some.inj (he.symm.trans hf)
      refine ⟨ep, e, a, he, hbuf, hlo, ?_⟩
      simp only [Entry.remaining] at hfit
      omega
    obtain ⟨hmem, hmap, -⟩ := outhAfterDrain_kept ep e (s.rxCount ep) s1
    refine ⟨hsel.trans (hdrain.trans (.of_mem_eq hmem hmap)), fun x hx => ?_⟩
    obtain ⟨n, f, a, hf, hbuf, hlo, hhi⟩ := hx
    rw [outhAfterDrain_entry hep, drain_entry hd, selectEp_entry] at hf
    split at hf
    · subst n
      split at hf
      · rw [← Option.some.inj hf] at hbuf
        cases hbuf
      · rw [← Option.some.inj hf] at hbuf hlo hhi
        exact ⟨ep, e, a, he, hbuf, by simp only at hlo; omega, hhi⟩
    · exact ⟨n, f, a, hf, hbuf, hlo, hhi⟩

/-- CTRLH writes memory nowhere but in the region of a drain of its packet. -/
theorem ctrlh_writes {c : Cfg} {s t : State} (h : ctrlh c s = .ok t) : Writes (DrainRegion s 0 (s.rxCount 0)) s t := by
  rcases ctrlh_ok h with rfl | rfl | rfl | ⟨-, s1, hd, rfl⟩ | ⟨-, h2⟩
  · exact .of_mem_eq (by simp) (by simp)
  · exact .of_mem_eq (by simp) (by simp)
  · exact .of_mem_eq rfl rfl
  · have hsel : Writes (DrainRegion s 0 (s.rxCount 0)) s (selectEp 0 s) := .of_mem_eq rfl rfl
    exact hsel.trans ((writes_drain hd).trans (.of_mem_eq rfl rfl))
  · exact .of_mem_eq (ep0send_kept h2).1 (frame_ep0send h2).memMap

/-- CTRLH writes no memory where (0,OUT) has no caller's region (R27). -/
theorem ctrlh_mem {c : Cfg} {s t : State} (h0 : ∀ e a, s.entry 0 .OUT = some e → e.buf ≠ .mem a) (h : ctrlh c s = .ok t) :
    t.mem = s.mem := by
  rcases ctrlh_ok h with rfl | rfl | rfl | ⟨-, s1, hd, rfl⟩ | ⟨-, h2⟩
  · simp
  · simp
  · rfl
  · obtain ⟨e, he, -, ⟨-, -, rfl⟩ | ⟨a, hbuf, -⟩⟩ := drain_ok hd
    · rfl
    · exact absurd hbuf (h0 e a (by simpa using he))
  · exact (ep0send_kept h2).1

/-- OUTH leaves the control buffer where no data endpoint has it (R27). -/
theorem outh_ctrlBuf {c : Cfg} {ep : EpNum} {s t : State}
    (hctrl : ∀ n e, n ≠ 0 → s.entry n .OUT = some e → e.buf ≠ .ctrl) (h : outh c ep s = .ok t) : t.ctrlBuf = s.ctrlBuf := by
  rcases outh_ok h with rfl | ⟨hep, e, he, -, rfl | ⟨-, s1, hd, rfl⟩⟩
  · rfl
  · rfl
  · rw [(outhAfterDrain_kept ep e _ s1).2.2]
    obtain ⟨f, hf, -, ⟨hbuf, -, -⟩ | ⟨a, -, hw⟩⟩ := drain_ok hd
    · exact absurd hbuf (hctrl ep f hep (by simpa using hf))
    · obtain ⟨m, rfl⟩ := writeBytes_only_mem hw
      rfl

/-! #### The OUT entries under the handlers of the IN side -/

theorem ep0send_entry_out {s t : State} (h : ep0send s = .ok t) (n : EpNum) : t.entry n .OUT = s.entry n .OUT := by
  obtain ⟨e, -, ⟨-, rfl⟩ | ⟨-, s1, hf, ⟨-, rfl⟩ | ⟨-, rfl⟩⟩⟩ := ep0send_ok h
  · simp [ep0Last, ep0ToIdle_entry]
  · simp [ep0Last, ep0ToIdle_entry, putEntry_entry, fill_entry hf]
  · simp [ep0More, putEntry_entry, fill_entry hf]

theorem inh_entry_out {ep : EpNum} {s t : State} (h : inh ep s = .ok t) (n : EpNum) : t.entry n .OUT = s.entry n .OUT := by
  rcases inh_ok h with rfl | ⟨-, e, -, -, rfl | rfl | ⟨-, s1, hf, rfl⟩⟩
  · rfl
  · rfl
  · rfl
  · unfold inhAfterFill
    simp only
    split <;> simp [clearEntry_entry, putEntry_entry, fill_entry hf]

theorem ctrlh_entry_out {c : Cfg} {s t : State} (h : ctrlh c s = .ok t) (n : EpNum) :
    t.entry n .OUT = s.entry n .OUT := by
  rcases ctrlh_ok h with rfl | rfl | rfl | ⟨-, s1, hd, rfl⟩ | ⟨-, h2⟩
  · simp [ep0ToIdle_entry]
  · simp [ep0ToIdle_entry]
  · rfl
  · simp [drain_entry hd]
  · exact ep0send_entry_out h2 n

/-! #### The dispatcher -/

/-- Memory is written in the regions in flight alone, and no region in flight grows. -/
def InFlightStep (s t : State) : Prop := Writes (InFlight s) s t ∧ ∀ x, InFlight t x → InFlight s x

theorem InFlightStep.refl (s : State) : InFlightStep s s := ⟨.of_mem_eq rfl rfl, fun _ => id⟩

theorem InFlightStep.trans {s t u : State} (h : InFlightStep s t) (k : InFlightStep t u) : InFlightStep s u :=
  ⟨h.1.trans (k.1.mono h.2), fun x hx => h.2 x (k.2 x hx)⟩

theorem InFlightStep.of_kept {s t : State} (hmem : t.mem = s.mem) (hmap : t.memMap = s.memMap)
    (hentry : ∀ n, t.entry n .OUT = s.entry n .OUT) : InFlightStep s t :=
  ⟨.of_mem_eq hmem hmap, fun _ ⟨n, e, a, he, hx⟩ => ⟨n, e, a, (hentry n).symm.trans he, hx⟩⟩

/-- A dispatcher loop whose handlers are each a step of a reflexive and transitive relation is a step of it. -/
theorem forNumbers_rel {R : State → State → Prop} (hrefl : ∀ s, R s s) (htrans : ∀ {s t u}, R s t → R t u → R s u)
    {bits : Bank Bool} {f : EpNum → State → Result} (hf : ∀ n s t, f n s = .ok t → R s t) {ns : List EpNum} {s t : State}
    (h : forNumbers ns (ifBit bits f) s = .ok t) : R s t :=
  forNumbers_induct (P := R s) (fun n u v hu hv => htrans hu (by
    unfold ifBit at hv
    split at hv
    · exact hf n u v hv
    · exact Except.ok.inj hv ▸ hrefl u)) ns (hrefl s) h

/-- What the handlers and the bus events of an IRQ each do to a state, the IRQ does to the snapshot's (R160). -/
theorem irq_rel {R : State → State → Prop} (hrefl : ∀ s, R s s) (htrans : ∀ {s t u}, R s t → R t u → R s u) {c : Cfg}
    {s t : State} (hctrlh : ∀ t, ctrlh c (clearPending s) = .ok t → R (clearPending s) t)
    (hinh : ∀ n s t, inh n s = .ok t → R s t) (houth : ∀ n s t, outh c n s = .ok t → R s t)
    (husb : ∀ s u, R s (usbEvents c u s)) (h : irq c s = .ok t) : R (clearPending s) t := by
  obtain rfl | ⟨s1, s2, s3, h1, h2, h3, rfl⟩ := irq_ok h
  · exact hrefl _
  · have r1 : R (clearPending s) s1 := by
      rcases h1 with rfl | h1
      · exact hrefl _
      · exact hctrlh s1 h1
    exact htrans r1 (htrans (forNumbers_rel hrefl htrans hinh h2)
      (htrans (forNumbers_rel hrefl htrans houth h3) (husb _ _)))

/-- Where IRQ writes memory it is anywhere at most. -/
theorem irq_writes {c : Cfg} {s t : State} (h : irq c s = .ok t) : Writes (fun _ => True) s t := by
  have hclear : Writes (fun _ => True) s (clearPending s) := .of_mem_eq rfl rfl
  refine hclear.trans (irq_rel (R := Writes fun _ => True) (fun _ => .of_mem_eq rfl rfl) (·.trans ·) ?_ ?_ ?_ ?_ h)
  · exact fun _ h => (ctrlh_writes h).mono fun _ _ => trivial
  · exact fun _ _ _ h => .of_mem_eq (inh_kept h).1 (frame_inh h).memMap
  · exact fun _ _ _ h => (outh_inFlight h).1.mono fun _ _ => trivial
  · exact fun s u => .of_mem_eq (usbEvents_kept c u s).1 (usbEvents_kept c u s).2

theorem SideKept.memMap {s t : State} (h : SideKept s t) : t.memMap = s.memMap := by
  unfold SideKept at h
  rw [h]

/-- Every operation keeps the memory canonical and lists held addresses only. -/
theorem Completes.writes {i : Instr} {s t : State} (h : Completes i s t) : Writes (fun _ => True) s t := by
  cases h with
  | init hoff =>
    exact .of_mem_eq (by simp only [attach, powerUp, resetSequence_mem])
      (by simp only [attach, powerUp, resetSequence_memMap])
  | shutdown hon => exact .of_mem_eq rfl rfl
  | send hon he h => exact .of_mem_eq (send_kept h).1 (send_frame he h).1.memMap
  | recv hon he h => exact .of_mem_eq (recv_kept h).1 (recv_frame he h).1.memMap
  | cancelall hon => exact .of_mem_eq (cancelAll_mem s) (cancelAll_memMap s)
  | stall hon => exact .of_mem_eq (by simp) (by simp)
  | isstalled hon => exact .of_mem_eq rfl rfl
  | portspeed hon => exact .of_mem_eq rfl rfl
  | connected hon => exact .of_mem_eq rfl rfl
  | irq h => exact irq_writes h
  | ctrlh h => exact (ctrlh_writes h).mono fun _ _ => trivial
  | inh h => exact .of_mem_eq (inh_kept h).1 (frame_inh h).memMap
  | outh h => exact (outh_inFlight h).1.mono fun _ _ => trivial
  | reseth =>
    exact .of_mem_eq (by simp only [Machine.reseth, emit, resetSequence_mem])
      (by simp only [Machine.reseth, emit, resetSequence_memMap])
  | select => exact .of_mem_eq rfl rfl
  | drain h => exact (writes_drain h).mono fun _ _ => trivial
  | fill h => exact .of_mem_eq (fill_kept h).1 (frame_fill h).memMap
  | flush => exact .of_mem_eq (by simp) (by simp)
  | ep0send h => exact .of_mem_eq (ep0send_kept h).1 (frame_ep0send h).memMap
  | onctrlreq => exact .of_mem_eq rfl rfl
  | onxferdone => exact .of_mem_eq rfl rfl
  | onbusreset => exact .of_mem_eq rfl rfl
  | logev => exact .of_mem_eq rfl rfl

/-- Every step keeps the memory canonical and lists held addresses only. -/
theorem Advances.writes {s t : State} (h : Advances s t) : Writes (fun _ => True) s t := by
  cases h with
  | @operation i p _ h =>
    rcases exec_next h with h | ⟨f, rfl⟩ | ⟨f, rfl⟩
    · exact (show Writes _ s { s with program := p } from .of_mem_eq rfl rfl).trans h.writes
    · exact .of_mem_eq rfl rfl
    · exact .of_mem_eq rfl rfl
  | idle => exact .of_mem_eq rfl rfl
  | refusal p r => exact .of_mem_eq rfl rfl
  | bus hup hpre => rw [apply_eq]; exact .of_mem_eq rfl rfl
  | vbus b p => exact .of_mem_eq rfl rfl

/-- Settles O57: the one store of the machine, `Memory.store`, keeps the canonical form, and every step writes by it alone. -/
theorem stepKeepsMemoryCanonical : Obligations.StepKeepsMemoryCanonical := fun _ _ hwf h => (step_next h).2.writes.wf hwf

/-! #### What the invariant says of the OUT buffers (R27) -/

/-- The entry (0,OUT) has no caller's region. -/
theorem EntriesOk.ep0_no_region {c : Cfg} {s : State} (h : EntriesOk c s) :
    ∀ e a, s.entry 0 .OUT = some e → e.buf ≠ .mem a := by
  intro e a he hbuf
  obtain ⟨-, -, -, hok⟩ := h 0 .OUT e he
  simp only [BufOk, hbuf] at hok
  exact hok.1 rfl

/-- No data endpoint has the control buffer. -/
theorem EntriesOk.data_no_ctrl {c : Cfg} {s : State} (h : EntriesOk c s) :
    ∀ n e, n ≠ 0 → s.entry n .OUT = some e → e.buf ≠ .ctrl := by
  intro n e hn he hbuf
  obtain ⟨-, -, -, hok⟩ := h n .OUT e he
  simp only [BufOk, hbuf] at hok
  exact hn (Prod.mk.inj hok.1).1

/-- The bus events write no memory, and a reset leaves no region in flight (R250). -/
theorem usbEvents_inFlight (c : Cfg) (u : UsbFlags) (s : State) : InFlightStep s (usbEvents c u s) := by
  obtain ⟨hmem, hmap⟩ := usbEvents_kept c u s
  cases hr : u.reset with
  | false =>
    refine .of_kept hmem hmap fun n => ?_
    rw [usbEvents_of_no_reset c s hr]
    rfl
  | true =>
    refine ⟨.of_mem_eq hmem hmap, fun x ⟨n, e, a, he, hbuf, _⟩ => ?_⟩
    have hempty : ∀ n e, (resetSequence c s).entry n .OUT = some e → e.buf = if n = 0 ∧ Dir.OUT = .OUT then .ctrl else .none :=
      fun _ _ h => (resetSequence_entry_empty h).2.2
    rw [usbEvents_of_reset c s hr] at he
    generalize resetSequence c s = r at he hempty
    have hb := hempty n e he
    rw [hbuf] at hb
    split at hb <;> cases hb

/-- From a state with good entries IRQ writes memory in the regions in flight alone. -/
theorem irq_inFlight {c : Cfg} {s t : State} (hs : EntriesOk c s) (h : irq c s = .ok t) : InFlightStep s t := by
  have hclear : InFlightStep s (clearPending s) := .of_kept rfl rfl fun _ => rfl
  refine hclear.trans (irq_rel InFlightStep.refl (·.trans ·) ?_ ?_ ?_ (fun s u => usbEvents_inFlight c u s) h)
  · exact fun t h => .of_kept (ctrlh_mem hs.ep0_no_region h) (frame_ctrlh h).memMap (ctrlh_entry_out h)
  · exact fun n s t h => .of_kept (inh_kept h).1 (frame_inh h).memMap (inh_entry_out h)
  · exact fun n s t h => outh_inFlight h

/-! #### Which operations write memory and the control buffer -/

/-- Caller memory is written by OUTH, DRAIN and IRQ only (R51). -/
theorem Completes.mem_kept {i : Instr} {s t : State} (h : Completes i s t) (hs : EntriesOk Config.cfg s)
    (hirq : i ≠ .irq) (houth : ∀ ep, i ≠ .outh ep) (hdrain : ∀ ep size, i ≠ .drain ep size) : t.mem = s.mem := by
  cases h with
  | init hoff => simp only [attach, powerUp, resetSequence_mem]
  | shutdown hon => rfl
  | send hon he h => exact (send_kept h).1
  | recv hon he h => exact (recv_kept h).1
  | cancelall hon => exact cancelAll_mem s
  | stall hon => simp
  | isstalled hon => rfl
  | portspeed hon => rfl
  | connected hon => rfl
  | irq h => exact absurd rfl hirq
  | ctrlh h => exact ctrlh_mem hs.ep0_no_region h
  | inh h => exact (inh_kept h).1
  | outh h => exact absurd rfl (houth _)
  | reseth => simp only [Machine.reseth, emit, resetSequence_mem]
  | select => rfl
  | drain h => exact absurd rfl (hdrain _ _)
  | fill h => exact (fill_kept h).1
  | flush => simp
  | ep0send h => exact (ep0send_kept h).1
  | onctrlreq => rfl
  | onxferdone => rfl
  | onbusreset => rfl
  | logev => rfl

/-- The control buffer is written by CTRLH, DRAIN and IRQ only (R33). -/
theorem Completes.ctrlBuf_kept {i : Instr} {s t : State} (h : Completes i s t) (hs : EntriesOk Config.cfg s)
    (hctrlh : i ≠ .ctrlh) (hirq : i ≠ .irq) (hdrain : ∀ ep size, i ≠ .drain ep size) : t.ctrlBuf = s.ctrlBuf := by
  cases h with
  | init hoff => simp only [attach, powerUp, resetSequence_ctrlBuf]
  | shutdown hon => rfl
  | send hon he h => exact (send_kept h).2
  | recv hon he h => exact (recv_kept h).2
  | cancelall hon => exact cancelAll_ctrlBuf s
  | stall hon => simp
  | isstalled hon => rfl
  | portspeed hon => rfl
  | connected hon => rfl
  | irq h => exact absurd rfl hirq
  | ctrlh h => exact absurd rfl hctrlh
  | inh h => exact (inh_kept h).2
  | outh h => exact outh_ctrlBuf hs.data_no_ctrl h
  | reseth => simp only [Machine.reseth, emit, resetSequence_ctrlBuf]
  | select => rfl
  | drain h => exact absurd rfl (hdrain _ _)
  | fill h => exact (fill_kept h).2
  | flush => simp
  | ep0send h => exact (ep0send_kept h).2
  | onctrlreq => rfl
  | onxferdone => rfl
  | onbusreset => rfl
  | logev => rfl

/-- Settles O59: OUTH writes the region of its own transfer that is still to fill, IRQ runs OUTH for regions that only
shrink, and no other operation but DRAIN writes memory. -/
theorem onlyInFlightRegionsAreWritten : Obligations.OnlyInFlightRegionsAreWritten := by
  intro i s t hinv hdrain h
  have hs := hinv.entries
  have hwf := hinv.memory.1
  rcases exec_next h with h | ⟨f, rfl⟩ | ⟨f, rfl⟩
  · have hw : Writes (InFlight s) s t := by
      by_cases hirq : i = .irq
      · subst hirq
        cases h with | irq h => exact (irq_inFlight hs h).1
      by_cases houth : ∃ ep, i = .outh ep
      · obtain ⟨ep, rfl⟩ := houth
        cases h with | outh h => exact (outh_inFlight h).1
      · exact .of_mem_eq (h.mem_kept hs hirq (fun ep he => houth ⟨ep, he⟩) hdrain) h.writes.memMap
    refine ⟨hw.memMap, fun x hx => hw.outside hwf x fun ⟨n, e, a, he, hbuf, hlohi⟩ => hx n e a he hbuf hlohi⟩
  · exact ⟨rfl, fun _ _ => rfl⟩
  · exact ⟨rfl, fun _ _ => rfl⟩

/-- The platform's input, the addresses that memory holds and the program are written by no operation (R47, R253). -/
theorem Completes.platform_kept {i : Instr} {s t : State} (h : Completes i s t) :
    t.vbusSense = s.vbusSense ∧ t.memMap = s.memMap ∧ t.program = s.program := by
  by_cases hinit : i = .init
  · subst hinit; cases h
    unfold attach
    rw [resetSequence_eq]
    exact ⟨rfl, rfl, rfl⟩
  by_cases hshut : i = .shutdown
  · subst hshut; cases h; exact ⟨rfl, rfl, rfl⟩
  by_cases hreset : i = .reseth
  · subst hreset; cases h
    unfold Machine.reseth emit
    rw [resetSequence_eq]
    exact ⟨rfl, rfl, rfl⟩
  by_cases hirq : i = .irq
  · subst hirq
    cases h with | irq h => rw [irq_eq h]; exact ⟨rfl, rfl, rfl⟩
  have hk := h.sideKept hinit hshut hreset hirq
  unfold SideKept at hk
  rw [hk]
  exact ⟨rfl, rfl, rfl⟩

/-- The status registers are written by INIT and IRQ only (R41). -/
theorem Completes.status_kept {i : Instr} {s t : State} (h : Completes i s t) (hinit : i ≠ .init) (hirq : i ≠ .irq) :
    t.intrUsb = s.intrUsb ∧ t.intrIn = s.intrIn ∧ t.intrOut = s.intrOut ∧ t.dmaIntr = s.dmaIntr := by
  by_cases hshut : i = .shutdown
  · subst hshut; cases h; exact ⟨rfl, rfl, rfl, rfl⟩
  by_cases hreset : i = .reseth
  · subst hreset; cases h
    unfold Machine.reseth emit
    rw [resetSequence_eq]
    exact ⟨rfl, rfl, rfl, rfl⟩
  have hk := h.sideKept hinit hshut hreset hirq
  unfold SideKept at hk
  rw [hk]
  exact ⟨rfl, rfl, rfl, rfl⟩

/-- The power, lifecycle, test-mode, DMA and bus-event enable state is written by INIT and SHUTDOWN only (R42, R43, R46). -/
theorem Completes.lifecycle_kept {i : Instr} {s t : State} (h : Completes i s t) (hinit : i ≠ .init)
    (hshut : i ≠ .shutdown) :
    t.intrUsbE = s.intrUsbE ∧ t.hsMode = s.hsMode ∧ t.testMode = s.testMode ∧ t.dmaCntl = s.dmaCntl
      ∧ t.phase = s.phase ∧ t.domainPower = s.domainPower ∧ t.busConnect = s.busConnect := by
  by_cases hreset : i = .reseth
  · subst hreset; cases h
    unfold Machine.reseth emit
    rw [resetSequence_eq]
    exact ⟨rfl, rfl, rfl, rfl, rfl, rfl, rfl⟩
  by_cases hirq : i = .irq
  · subst hirq
    cases h with | irq h => rw [irq_eq h]; exact ⟨rfl, rfl, rfl, rfl, rfl, rfl, rfl⟩
  have hk := h.sideKept hinit hshut hreset hirq
  unfold SideKept at hk
  rw [hk]
  exact ⟨rfl, rfl, rfl, rfl, rfl, rfl, rfl⟩

/-- The endpoint enables and `FADDR` are written by INIT, SHUTDOWN, RESETH and IRQ only (R42, R43). -/
theorem SideKept.enables {s t : State} (h : SideKept s t) :
    t.intrInE = s.intrInE ∧ t.intrOutE = s.intrOutE ∧ t.faddr = s.faddr := by
  unfold SideKept at h
  rw [h]
  exact ⟨rfl, rfl, rfl⟩

/-- Settles O54: an operation that ends well has the frames above; a fault and a refusal write a mark alone. -/
theorem whichOperationsWriteWhichState : Obligations.WhichOperationsWriteWhichState := by
  intro i s t h
  rcases exec_next h with h | ⟨f, rfl⟩ | ⟨f, rfl⟩
  · obtain ⟨hvbus, hmap, hprog⟩ := h.platform_kept
    exact ⟨hvbus, hmap, hprog, h.status_kept, fun hinit hshut hreset hirq => (h.sideKept hinit hshut hreset hirq).enables,
      h.lifecycle_kept, fun hs => ⟨h.ctrlBuf_kept hs, h.mem_kept hs⟩⟩
  · exact ⟨rfl, rfl, rfl, fun _ _ => ⟨rfl, rfl, rfl, rfl⟩, fun _ _ _ _ => ⟨rfl, rfl, rfl⟩,
      fun _ _ => ⟨rfl, rfl, rfl, rfl, rfl, rfl, rfl⟩, fun _ => ⟨fun _ _ _ => rfl, fun _ _ _ => rfl⟩⟩
  · exact ⟨rfl, rfl, rfl, fun _ _ => ⟨rfl, rfl, rfl, rfl⟩, fun _ _ _ _ => ⟨rfl, rfl, rfl⟩,
      fun _ _ => ⟨rfl, rfl, rfl, rfl, rfl, rfl, rfl⟩, fun _ => ⟨fun _ _ _ => rfl, fun _ _ _ => rfl⟩⟩

end Sys2Proof.Machine
end

/-! ### Admission of a region (R172, R253) -/

section
namespace Sys2Proof.Machine

/-- A region of no bytes is covered by any regions. -/
theorem coveredBy_zero (rs : List MemRegion) (a : Nat) : coveredBy rs a 0 = true := by
  induction rs generalizing a with
  | nil => rfl
  | cons r t ih => rw [coveredBy, Nat.zero_sub, ih, ih, ite_self]

/-- With the regions in ascending order, a region whose addresses each lie in one of them is covered (R253). -/
theorem coveredBy_of_held {rs : List MemRegion} {a len : Nat} (hord : rs.Pairwise fun q r => q.base + q.size ≤ r.base)
    (h : ∀ x, a ≤ x → x < a + len → ∃ r ∈ rs, r.base ≤ x ∧ x < r.base + r.size) : coveredBy rs a len = true := by
  induction rs generalizing a len with
  | nil =>
    by_contra hlen
    have hpos : 0 < len := Nat.pos_of_ne_zero fun h0 => hlen (by rw [h0, coveredBy_zero])
    obtain ⟨r, hr, -⟩ := h a (Nat.le_refl a) (by omega)
    cases hr
  | cons r t ih =>
    obtain ⟨hrt, ht⟩ := List.pairwise_cons.1 hord
    rw [coveredBy]
    split
    · -- `a` lies in `r`: the addresses at or above the end of `r` lie in the later regions.
      rename_i ha
      refine ih ht fun x hx1 hx2 => ?_
      obtain ⟨q, hq, hqx⟩ := h x (by omega) (by omega)
      rcases List.mem_cons.1 hq with rfl | hq
      · omega
      · exact ⟨q, hq, hqx⟩
    · -- `a` lies in a later region, so `r` ends below `a`.
      rename_i ha
      rcases Nat.eq_zero_or_pos len with rfl | hpos
      · exact coveredBy_zero t a
      obtain ⟨p, hp, hpa⟩ := h a (Nat.le_refl a) (by omega)
      have hbelow : r.base + r.size ≤ a := by
        rcases List.mem_cons.1 hp with rfl | hp
        · exact absurd hpa ha
        · have := hrt p hp
          omega
      refine ih ht fun x hx1 hx2 => ?_
      obtain ⟨q, hq, hqx⟩ := h x hx1 hx2
      rcases List.mem_cons.1 hq with rfl | hq
      · omega
      · exact ⟨q, hq, hqx⟩

theorem holds_iff (s : State) (x : Nat) : s.holds x = true ↔ ∃ r ∈ s.memMap, r.base ≤ x ∧ x < r.base + r.size := by
  simp only [State.holds, List.any_eq_true, Bool.and_eq_true, decide_eq_true_eq]

/-- Settles O17: a covered region is held in any order of the regions; the converse needs the order. -/
theorem admitMeansHeld : Obligations.AdmitMeansHeld := by
  intro s a len hord
  have haw : Config.cfg.aw = 32 := rfl
  refine ⟨fun h => ?_, fun ⟨ha, htop, hheld⟩ => ?_⟩
  · have hheld : ∀ x, a ≤ x → x < a + len → s.holds x = true := fun x => holds_of_admits h
    simp only [admits, Bool.and_eq_true, decide_eq_true_eq, haw] at h
    exact ⟨h.1.1, h.1.2, hheld⟩
  · simp only [admits, Bool.and_eq_true, decide_eq_true_eq, haw]
    exact ⟨⟨ha, htop⟩, coveredBy_of_held hord fun x h1 h2 => (holds_iff s x).1 (hheld x h1 h2)⟩

end Sys2Proof.Machine
end

/-! ### The packet-count law (R86, R150, R194) -/

section
namespace Sys2Proof.Machine

/-! #### Reading a part of a region -/

/-- A run of bytes inside a region that can be read is that part of what is read. -/
theorem readBytes_slice {s : State} {a n i k : Nat} {bs : List Byte} (h : s.readBytes a n = some bs) (hik : i + k ≤ n) :
    s.readBytes (a + i) k = some ((bs.drop i).take k) := by
  obtain ⟨r, rfl⟩ : ∃ r, n = i + (k + r) := ⟨n - (i + k), by omega⟩
  rw [readBytes_add, readBytes_add] at h
  cases hx : s.readBytes a i with
  | none => simp [hx] at h
  | some x =>
    cases hy : s.readBytes (a + i) k with
    | none => simp [hx, hy] at h
    | some y =>
      cases hz : s.readBytes (a + i + k) r with
      | none => simp [hx, hy, hz] at h
      | some z =>
        simp only [hx, hy, hz, Option.some.injEq] at h
        have hxl : x.length = i := (readBytes_some hx).1
        have hyl : y.length = k := (readBytes_some hy).1
        rw [← h, List.drop_left' hxl, List.take_left' hyl]

/-! #### One round -/

/-- Endpoint `ep` of `u` is ready for a round: the bus is up, its FIFO is free, no flag of it is set, and the memory is that
of `s`. -/
structure RoundReady (s : State) (ep : EpNum) (u : State) : Prop where
  phase : u.phase = .On
  connect : u.busConnect = true
  flags : u.inCsr.get ep = ⟨false, false, false⟩
  free : u.tx.get ep = []
  mem : u.mem = s.mem
  memMap : u.memMap = s.memMap

/-- Where INH makes a packet ready, the host takes it (R194): the round ends with what INH left, its endpoint ready again. -/
theorem inRound_of_inh {c : Cfg} {s u t : State} {ep : EpNum} (hep : ep ≠ 0) (hinh : inh ep u = .ok t)
    (hphase : t.phase = .On) (hconn : t.busConnect = true) (hflags : t.inCsr.get ep = ⟨true, false, false⟩)
    (hmem : t.mem = s.mem) (hmap : t.memMap = s.memMap) :
    ∃ v, inRound c ep u = some v ∧ RoundReady s ep v ∧ v.txLog = t.txLog ∧ v.upLog = t.upLog
      ∧ v.entry ep .IN = t.entry ep .IN := by
  have hstep : busStep c (.inTaken ep) t
      = .next (raiseIn ep (setInPktRdy ep false { t with tx := t.tx.put ep [] })) := by
    refine busStep_of_enabled ((busUp_iff t).2 ⟨hphase, hconn⟩) ?_
    simp only [BusMove.pre, hep, hflags, ne_eq, not_false_eq_true, decide_true, Bool.not_false, Bool.and_self]
  refine ⟨raiseIn ep (setInPktRdy ep false { t with tx := t.tx.put ep [] }), by simp only [inRound, hinh, hstep],
    ⟨hphase, hconn, ?_, ?_, hmem, hmap⟩, rfl, rfl, rfl⟩
  · simp [raiseIn, setInPktRdy, hflags]
  · simp [raiseIn, setInPktRdy]

/-- One round sends the next packet, the host takes it, and the endpoint is ready again; the transfer has advanced, or is
completed with its length (R150, R194). -/
theorem inRound_packet {c : Cfg} {s u : State} {ep : EpNum} {f : Entry} {a : Nat} {bs : List Byte} (hep : ep ≠ 0)
    (hready : RoundReady s ep u) (hf : u.entry ep .IN = some f) (hbuf : f.buf = .mem a) (hdma : f.usesDma = false)
    (hread : s.readBytes (a + f.prog) f.chunk = some bs) :
    ∃ v, inRound c ep u = some v ∧ RoundReady s ep v ∧ v.txLog = u.txLog ++ [⟨ep, bs, false⟩]
      ∧ (f.prog + f.chunk < f.len → v.upLog = u.upLog ∧ v.entry ep .IN = some { f with prog := f.prog + f.chunk })
      ∧ (f.len ≤ f.prog + f.chunk →
          v.upLog = u.upLog ++ [.onTransferComplete ep .IN 0 (f.prog + f.chunk)]
          ∧ v.entry ep .IN = some { f with buf := .none, len := 0, prog := 0 }) := by
  obtain ⟨hphase, hconn, hflags, hfree, hmem, hmap⟩ := hready
  have hinh := inh_packet hep hf hbuf hdma (by rw [hflags]) hfree (.inr (by rw [hflags]))
    ((readBytes_congr hmem hmap _ _).trans hread)
  unfold inhSent at hinh
  by_cases hdone : f.len ≤ f.prog + f.chunk
  · rw [if_pos hdone] at hinh
    obtain ⟨v, hv, hvready, hvtx, hvup, hventry⟩ := inRound_of_inh (c := c) (s := s) hep hinh hphase hconn
      (by simp [hflags]) hmem hmap
    exact ⟨v, hv, hvready, hvtx, fun h => absurd h (Nat.not_lt.2 hdone),
      fun _ => ⟨hvup, hventry.trans (Bank.get_put_self _ _ _)⟩⟩
  · rw [if_neg hdone] at hinh
    obtain ⟨v, hv, hvready, hvtx, hvup, hventry⟩ := inRound_of_inh (c := c) (s := s) hep hinh hphase hconn
      (by simp [hflags]) hmem hmap
    exact ⟨v, hv, hvready, hvtx, fun _ => ⟨hvup, hventry.trans (Bank.get_put_self _ _ _)⟩, fun h => absurd h hdone⟩

/-- The last of `k + 1` rounds. -/
theorem inRounds_succ {c : Cfg} {ep : EpNum} {k : Nat} {s u : State} (h : inRounds c ep k s = some u) :
    inRounds c ep (k + 1) s = inRound c ep u := by
  induction k generalizing s with
  | zero =>
    cases h
    cases hr : inRound c ep u <;> simp only [inRounds, hr]
  | succ k ih =>
    rw [inRounds] at h ⊢
    cases hr : inRound c ep s with
    | none => rw [hr] at h; cases h
    | some t =>
      rw [hr] at h
      exact ih h

/-! #### The rounds of a transfer -/

/-- Fewer than `⌈L/F⌉` packets of `F` bytes leave something of `L` (R86). -/
theorem lt_ceilDiv_iff {j L F : Nat} (hF : 0 < F) : j < (L + F - 1) / F ↔ j * F < L := by
  rw [← Nat.succ_le_iff, Nat.le_div_iff_mul_le hF, Nat.succ_mul]
  omega

/-- After `j` rounds of the transfer in `e`, `u` has sent `j` full packets of the bytes `bs` and the transfer is in flight. -/
structure SentFull (s : State) (ep : EpNum) (e : Entry) (bs : List Byte) (j : Nat) (u : State) : Prop where
  ready : RoundReady s ep u
  entry : u.entry ep .IN = some { e with prog := j * e.cap }
  upLog : u.upLog = s.upLog
  packets : ∃ l : List TxRecord, u.txLog = s.txLog ++ l ∧ l.length = j
    ∧ (∀ r ∈ l, (r.n = ep ∧ r.dataEnd = false) ∧ r.bytes.length = e.cap)
    ∧ (l.map TxRecord.bytes).flatten = bs.take (j * e.cap)

section
variable {c : Cfg} {s : State} {ep : EpNum} {e : Entry} {a : Nat} {bs : List Byte} (hep : ep ≠ 0)
  (hbuf : e.buf = .mem a) (hdma : e.usesDma = false) (hread : s.readBytes a e.len = some bs)
include hep hbuf hdma hread

/-- A round that does not reach the length sends one more full packet. -/
theorem SentFull.succ {j : Nat} {u : State} (h : SentFull s ep e bs j u) (hmore : (j + 1) * e.cap < e.len) :
    ∃ v, inRound c ep u = some v ∧ SentFull s ep e bs (j + 1) v := by
  obtain ⟨hready, hentry, hup, l, htx, hl, hfull, hflat⟩ := h
  have hsum : (j + 1) * e.cap = j * e.cap + e.cap := Nat.succ_mul j e.cap
  have hchunk : ({ e with prog := j * e.cap } : Entry).chunk = e.cap := by
    simp only [Entry.chunk, Entry.remaining]
    omega
  have hslice := readBytes_slice hread (i := j * e.cap) (k := e.cap) (by omega)
  obtain ⟨v, hv, hvready, hvtx, hvmore, -⟩ := inRound_packet (c := c) (f := { e with prog := j * e.cap }) hep hready hentry
    hbuf hdma (by rw [hchunk]; exact hslice)
  rw [hchunk] at hvmore
  obtain ⟨hvup, hventry⟩ := hvmore (by simp only; omega)
  refine ⟨v, hv, hvready, by rw [hventry, hsum], hvup.trans hup, l ++ [⟨ep, (bs.drop (j * e.cap)).take e.cap, false⟩],
    by rw [hvtx, htx, List.append_assoc], by rw [List.length_append, hl]; rfl, fun r hr => ?_, ?_⟩
  · rcases List.mem_append.1 hr with hr | hr
    · exact hfull r hr
    · rw [List.mem_singleton.1 hr]
      exact ⟨⟨rfl, rfl⟩, (readBytes_some hslice).1⟩
  · rw [List.map_append, List.flatten_append, hflat, hsum, List.take_add]
    simp

/-- After every number of rounds below `⌈L/F⌉` only full packets have been sent. -/
theorem inRounds_full (hcap : 0 < e.cap) (hstart : SentFull s ep e bs 0 s) {j : Nat} (hj : j < (e.len + e.cap - 1) / e.cap) :
    ∃ u, inRounds c ep j s = some u ∧ SentFull s ep e bs j u := by
  induction j with
  | zero => exact ⟨s, rfl, hstart⟩
  | succ j ih =>
    obtain ⟨u, hu, hsent⟩ := ih (by omega)
    obtain ⟨v, hv, hsent⟩ := hsent.succ (c := c) hep hbuf hdma hread ((lt_ceilDiv_iff hcap).1 hj)
    exact ⟨v, (inRounds_succ hu).trans hv, hsent⟩

/-- The round that reaches the length sends what is left and reports completion. -/
theorem SentFull.last {j : Nat} {u : State} (h : SentFull s ep e bs j u) (hleft : j * e.cap < e.len)
    (hlast : e.len ≤ (j + 1) * e.cap) :
    ∃ t l, inRound c ep u = some t ∧ t.txLog = s.txLog ++ l ∧ l.length = j + 1
      ∧ (∀ r ∈ l, r.n = ep ∧ r.dataEnd = false) ∧ (∀ r ∈ l.dropLast, r.bytes.length = e.cap)
      ∧ (l.map TxRecord.bytes).flatten = bs
      ∧ t.upLog = s.upLog ++ [.onTransferComplete ep .IN 0 e.len]
      ∧ t.entry ep .IN = some { e with buf := .none, len := 0, prog := 0 } := by
  obtain ⟨hready, hentry, hup, l, htx, hl, hfull, hflat⟩ := h
  have hsum : (j + 1) * e.cap = j * e.cap + e.cap := Nat.succ_mul j e.cap
  have hchunk : ({ e with prog := j * e.cap } : Entry).chunk = e.len - j * e.cap := by
    simp only [Entry.chunk, Entry.remaining]
    omega
  have hslice := readBytes_slice hread (i := j * e.cap) (k := e.len - j * e.cap) (by omega)
  obtain ⟨t, ht, -, httx, -, htdone⟩ := inRound_packet (c := c) (f := { e with prog := j * e.cap }) hep hready hentry
    hbuf hdma (by rw [hchunk]; exact hslice)
  have hend : j * e.cap + (e.len - j * e.cap) = e.len := by omega
  rw [hchunk] at htdone
  simp only [hend] at htdone
  obtain ⟨htup, htentry⟩ := htdone (Nat.le_refl _)
  refine ⟨t, l ++ [⟨ep, (bs.drop (j * e.cap)).take (e.len - j * e.cap), false⟩], ht,
    by rw [httx, htx, List.append_assoc], by rw [List.length_append, hl]; rfl, fun r hr => ?_, fun r hr => ?_, ?_,
    by rw [htup, hup], htentry⟩
  · rcases List.mem_append.1 hr with hr | hr
    · exact (hfull r hr).1
    · rw [List.mem_singleton.1 hr]
      exact ⟨rfl, rfl⟩
  · rw [List.dropLast_concat] at hr
    exact (hfull r hr).2
  · have hlen : bs.length = e.len := (readBytes_some hread).1
    have htake : (bs.drop (j * e.cap)).take (e.len - j * e.cap) = bs.drop (j * e.cap) :=
      List.take_of_length_le (by rw [List.length_drop, hlen])
    rw [List.map_append, List.flatten_append, hflat, htake]
    simp

end

/-- Settles O60: every round before the last sends one more full packet (`SentFull`), by induction on the rounds; the last
one sends what is left and completes. -/
theorem packetCountLaw : Obligations.PacketCountLaw := by
  intro c s ep e a bs hep he hbuf hdma hprog hlen hcap hstall hrdy hempty hphase hconn hsend hread
  have hflags : s.inCsr.get ep = ⟨false, false, false⟩ := by
    cases hf : s.inCsr.get ep
    simp_all
  have hstart : SentFull s ep e bs 0 s := by
    refine ⟨⟨hphase, hconn, hflags, hempty, rfl, rfl⟩, ?_, rfl, [], (List.append_nil _).symm, rfl, by simp, by simp⟩
    rw [he, Nat.zero_mul]
    cases e
    cases hprog
    rfl
  refine ⟨fun j hj => ?_, ?_⟩
  · obtain ⟨u, hu, hsent⟩ := inRounds_full (c := c) hep hbuf hdma hread hcap hstart hj
    exact ⟨u, hu, hsent.upLog, hsent.entry⟩
  · obtain ⟨m, hm⟩ : ∃ m, (e.len + e.cap - 1) / e.cap = m + 1 :=
      Nat.exists_eq_succ_of_ne_zero (Nat.pos_iff_ne_zero.1 ((lt_ceilDiv_iff hcap).2 (by omega)))
    obtain ⟨u, hu, hsent⟩ := inRounds_full (c := c) hep hbuf hdma hread hcap hstart (j := m) (by omega)
    have hleft : m * e.cap < e.len := (lt_ceilDiv_iff hcap).1 (by omega)
    have hlast : e.len ≤ (m + 1) * e.cap := Nat.not_lt.1 fun h => by
      have := (lt_ceilDiv_iff hcap).2 h
      omega
    obtain ⟨t, l, ht, hrest⟩ := hsent.last (c := c) hep hbuf hdma hread hleft hlast
    rw [hm]
    exact ⟨t, l, (inRounds_succ hu).trans ht, hrest⟩

end Sys2Proof.Machine
end

/-! ### The invariant of the table and of the FIFOs (R21 to R28, R34) -/

section
namespace Sys2Proof.Machine

/-! #### FIFOs by key -/

/-- The FIFO of the key `(n, d)`. -/
def State.fifo (s : State) (n : EpNum) (d : Dir) : List Byte :=
  match d with
  | .OUT => s.rx.get n
  | .IN => s.tx.get n

theorem fifosOk_iff {s : State} : FifosOk s ↔ ∀ n d, (s.fifo n d).length ≤ s.capOf n d :=
  ⟨fun h n d => by cases d; exacts [(h n).2, (h n).1], fun h n => ⟨h n .IN, h n .OUT⟩⟩

theorem capOf_of_entry {s : State} {n : EpNum} {d : Dir} {e : Entry} (h : s.entry n d = some e) : s.capOf n d = e.cap := by
  simp only [State.capOf, h]

theorem capOf_congr {s t : State} {n : EpNum} {d : Dir} (h : t.entry n d = s.entry n d) : t.capOf n d = s.capOf n d := by
  simp only [State.capOf, h]

theorem fifo_congr {s t : State} (htx : t.tx = s.tx) (hrx : t.rx = s.rx) (n : EpNum) (d : Dir) :
    t.fifo n d = s.fifo n d := by
  cases d
  · exact congrArg (·.get n) hrx
  · exact congrArg (·.get n) htx

theorem entry_congr {s t : State} (hOut : t.epOut = s.epOut) (hIn : t.epIn = s.epIn) (n : EpNum) (d : Dir) :
    t.entry n d = s.entry n d := by
  cases d
  · exact congrArg (·.get n) hOut
  · exact congrArg (·.get n) hIn

/-! #### What makes an entry good -/

section
variable {c : Cfg} {s : State} {n : EpNum} {d : Dir} {e : Entry}

theorem admits_congr {s t : State} (h : t.memMap = s.memMap) (a len : Nat) : admits c t a len = admits c s a len := by
  simp only [admits, h]

/-- What is good of an entry depends on the addresses that memory holds alone. -/
theorem EntryOk.congr {s t : State} (h : t.memMap = s.memMap) (k : EntryOk c s n d e) : EntryOk c t n d e := by
  unfold EntryOk BufOk at k ⊢
  simp only [admits_congr h]
  exact k

/-- An empty entry with a derived capacity is good (R28). -/
theorem entryOk_of_empty (hcap : CapDerived c e) (hlen : e.len = 0) (hprog : e.prog = 0)
    (hbuf : e.buf = if n = 0 ∧ d = .OUT then .ctrl else .none) : EntryOk c s n d e := by
  refine ⟨by omega, by rw [hlen]; exact Nat.two_pow_pos _, hcap, ?_⟩
  unfold BufOk
  by_cases hk : n = 0 ∧ d = .OUT
  · rw [hbuf, if_pos hk]
    exact ⟨Prod.ext hk.1 hk.2, hlen, hprog⟩
  · rw [hbuf, if_neg hk]
    exact ⟨fun h => hk (Prod.mk.inj h), hlen, hprog⟩

theorem EntryOk.clear (h : EntryOk c s n d e) : EntryOk c s n d (e.clear n d) := by
  obtain ⟨-, -, hcap, -⟩ := h
  exact entryOk_of_empty hcap rfl rfl rfl

/-- Progress up to the length keeps an entry good: an entry without a region has length 0 (R26, R27). -/
theorem EntryOk.advance (h : EntryOk c s n d e) {k : Nat} (hk : k ≤ e.len) : EntryOk c s n d { e with prog := k } := by
  obtain ⟨-, hlen, hcap, hbuf⟩ := h
  refine ⟨hk, hlen, hcap, ?_⟩
  unfold BufOk at hbuf ⊢
  cases hb : e.buf with
  | none => rw [hb] at hbuf; obtain ⟨hkey, h0, -⟩ := hbuf; exact ⟨hkey, h0, by simp only; omega⟩
  | ctrl => rw [hb] at hbuf; obtain ⟨hkey, h0, -⟩ := hbuf; exact ⟨hkey, h0, by simp only; omega⟩
  | mem a => rw [hb] at hbuf; exact hbuf

/-- What SEND and RECV record is good: the region was admitted (R172, R173). -/
theorem EntryOk.accept {buf len : Word} (h : EntryOk c s n d e) (hlw : c.lw = 32) (hkey : (n, d) ≠ (0, .OUT))
    (hnull : buf = 0 → len = 0) (hadmit : buf ≠ 0 → admits c s buf.toNat len.toNat = true) :
    EntryOk c s n d (e.accept buf len) := by
  obtain ⟨-, -, hcap, -⟩ := h
  refine ⟨Nat.zero_le _, by rw [hlw]; exact len.isLt, hcap, ?_⟩
  unfold BufOk Entry.accept bufOfWord
  by_cases hb : buf = 0
  · simp only [hb, if_true]
    exact ⟨hkey, by simp [hnull hb]⟩
  · simp only [hb, if_false]
    exact ⟨hkey, hadmit hb⟩

theorem chunk_le_len (h : e.prog ≤ e.len) : e.prog + e.chunk ≤ e.len := by
  simp only [Entry.chunk, Entry.remaining]
  omega

end

/-! #### The table and the FIFOs -/

/-- The part of the invariant that speaks of the table and of the FIFOs. -/
structure TableOk (c : Cfg) (s : State) : Prop where
  shape   : TableShape c s
  entries : EntriesOk c s
  fifos   : ∀ n d, (s.fifo n d).length ≤ s.capOf n d

section
variable {c : Cfg} {s t : State}

/-- Entries as they are and FIFOs within their capacities. -/
theorem TableOk.of_entries (h : TableOk c s) (hmap : t.memMap = s.memMap) (hentry : ∀ n d, t.entry n d = s.entry n d)
    (hfifo : ∀ n d, (t.fifo n d).length ≤ s.capOf n d) : TableOk c t where
  shape n := by rw [hentry, hentry]; exact h.shape n
  entries n d e he := (h.entries n d e (hentry n d ▸ he)).congr hmap
  fifos n d := capOf_congr (hentry n d) ▸ hfifo n d

/-- Table and FIFOs as they are. -/
theorem TableOk.congr (h : TableOk c s) (hmap : t.memMap = s.memMap) (hOut : t.epOut = s.epOut) (hIn : t.epIn = s.epIn)
    (htx : t.tx = s.tx) (hrx : t.rx = s.rx) : TableOk c t :=
  h.of_entries hmap (entry_congr hOut hIn) fun n d => fifo_congr htx hrx n d ▸ h.fifos n d

theorem TableOk.emit (h : TableOk c s) (x : Notification) : TableOk c (emit x s) := h.congr rfl rfl rfl rfl rfl

theorem TableOk.setOutPktRdy (h : TableOk c s) (n : EpNum) (b : Bool) : TableOk c (setOutPktRdy n b s) :=
  h.congr rfl rfl rfl rfl rfl

/-- One FIFO replaced by a packet that fits. -/
theorem TableOk.putFifo (h : TableOk c s) {n : EpNum} {d : Dir} {bs : List Byte} (hfit : bs.length ≤ s.capOf n d)
    (hmap : t.memMap = s.memMap) (hentry : ∀ n d, t.entry n d = s.entry n d)
    (hfifo : ∀ m d', t.fifo m d' = if n = m ∧ d = d' then bs else s.fifo m d') : TableOk c t := by
  refine h.of_entries hmap hentry fun m d' => ?_
  rw [hfifo]
  split
  · next hk => rw [← hk.1, ← hk.2]; exact hfit
  · exact h.fifos m d'

/-- One entry replaced by a good one of the same type whose capacity holds the packet in its FIFO. -/
theorem TableOk.putEntry {n : EpNum} {d : Dir} {e f : Entry} (h : TableOk c s) (he : s.entry n d = some e)
    (hf : EntryOk c s n d f) (htype : f.etype = e.etype) (hdma : f.usesDma = e.usesDma)
    (hfit : (s.fifo n d).length ≤ f.cap) : TableOk c (s.putEntry n d f) := by
  have hmap : (s.putEntry n d f).memMap = s.memMap := putEntry_memMap _ _ _ _
  have hfifo : ∀ m d', (s.putEntry n d f).fifo m d' = s.fifo m d' := fifo_congr (putEntry_tx _ _ _ _) (putEntry_rx _ _ _ _)
  have hkey : ∀ m d', ((s.putEntry n d f).entry m d').map (fun e => (e.etype, e.usesDma))
      = (s.entry m d').map (fun e => (e.etype, e.usesDma)) := by
    intro m d'
    rw [putEntry_entry]
    split
    · next hk => rw [← hk.1, ← hk.2, he, Option.map_some, Option.map_some, htype, hdma]
    · rfl
  refine ⟨fun m => ?_, fun m d' g hg => ?_, fun m d' => ?_⟩
  · rw [hkey, hkey]; exact h.shape m
  · rw [putEntry_entry] at hg
    split at hg
    · next hk => rw [← hk.1, ← hk.2, ← Option.some.inj hg]; exact hf.congr hmap
    · exact (h.entries m d' g hg).congr hmap
  · rw [hfifo]
    by_cases hk : n = m ∧ d = d'
    · rw [← hk.1, ← hk.2, capOf_of_entry (putEntry_entry_self _ _ _ _)]; exact hfit
    · rw [capOf_congr (s := s) (by rw [putEntry_entry, if_neg hk])]; exact h.fifos m d'

theorem TableOk.fits (h : TableOk c s) {n : EpNum} {d : Dir} {e : Entry} (he : s.entry n d = some e) :
    (s.fifo n d).length ≤ e.cap := capOf_of_entry he ▸ h.fifos n d

/-- The progress of an entry advanced. -/
theorem TableOk.advance (h : TableOk c s) {n : EpNum} {d : Dir} {e : Entry} (he : s.entry n d = some e) {k : Nat}
    (hk : k ≤ e.len) : TableOk c (s.putEntry n d { e with prog := k }) :=
  h.putEntry he ((h.entries n d e he).advance hk) rfl rfl (h.fits (e := e) he)

theorem TableOk.clearEntry (h : TableOk c s) (n : EpNum) (d : Dir) : TableOk c (clearEntry n d s) := by
  cases he : s.entry n d with
  | none => rwa [clearEntry_of_absent he]
  | some e =>
    simp only [Machine.clearEntry, he]
    exact h.putEntry he (h.entries n d e he).clear rfl rfl (h.fits (e := e) he)

/-- EP0 made Idle, its response discarded (R142). -/
theorem TableOk.ep0ToIdle (h : TableOk c s) : TableOk c (ep0ToIdle s) :=
  (h.congr (t := { s with ep0state := .Idle }) rfl rfl rfl rfl rfl).clearEntry 0 .IN

/-! #### The FIFO operations -/

/-- What FLUSH leaves in the FIFOs: an empty one for a data entry, the rest as they are (R133). -/
theorem flush_fifo (n : EpNum) (d : Dir) (s : State) (m : EpNum) (d' : Dir) :
    (flush n d s).fifo m d' = if (n = m ∧ d = d') ∧ (s.entry n d).any (fun e => decide (e.etype ≠ .control)) then []
      else s.fifo m d' := by
  cases he : s.entry n d with
  | none => rw [flush_of_absent he]; simp
  | some e =>
    rw [flush_of_entry he]
    by_cases ht : e.etype = .control
    · simp [ht]
    · cases d <;> cases d'
      all_goals simp [ht, State.fifo, flushAction, setInPktRdy, setOutPktRdy, Bank.get_put]

theorem TableOk.flush (h : TableOk c s) (n : EpNum) (d : Dir) : TableOk c (flush n d s) := by
  refine h.of_entries (flush_memMap _ _ _) (flush_entry _ _ _) fun m d' => ?_
  rw [flush_fifo]
  split
  · exact Nat.zero_le _
  · exact h.fifos m d'

/-- FILL checks the capacity before it appends (R132). -/
theorem TableOk.fill (h : TableOk c s) {ep : EpNum} {size : Nat} (hf : fill ep size s = .ok t) : TableOk c t := by
  obtain ⟨e, he, ⟨-, rfl⟩ | ⟨-, -, hroom, a, bs, -, hbs, rfl⟩⟩ := fill_ok hf
  · exact h
  · refine h.putFifo (n := ep) (d := .IN) (bs := s.tx.get ep ++ bs) ?_ rfl (fun _ _ => entry_congr rfl rfl _ _) fun m d' => ?_
    · rw [List.length_append, (readBytes_some hbs).1, capOf_of_entry he]
      exact hroom
    · cases d' <;> simp [State.fifo, Bank.get_put]

/-- DRAIN only takes from a FIFO (R131). -/
theorem TableOk.drain (h : TableOk c s) {ep : EpNum} {size : Nat} (hd : drain c ep size s = .ok t) : TableOk c t := by
  have hshort : ((s.rx.get ep).drop size).length ≤ s.capOf ep .OUT :=
    (by rw [List.length_drop]; exact Nat.sub_le _ _ : _ ≤ (s.rx.get ep).length).trans (h.fifos ep .OUT)
  have hput : TableOk c { s with rx := s.rx.put ep ((s.rx.get ep).drop size) } :=
    h.putFifo (n := ep) (d := .OUT) hshort rfl (fun _ _ => entry_congr rfl rfl _ _) fun m d' => by
      cases d' <;> simp [State.fifo, Bank.get_put]
  obtain ⟨e, -, -, ⟨-, -, rfl⟩ | ⟨a, -, hw⟩⟩ := drain_ok hd
  · exact hput.congr rfl rfl rfl rfl rfl
  · obtain ⟨m, rfl⟩ := writeBytes_only_mem hw
    exact hput.congr rfl rfl rfl rfl rfl

/-! #### The handlers -/

theorem TableOk.ep0Last (h : TableOk c s) : TableOk c (ep0Last s) :=
  (h.congr (t := commitPacket 0 true (signalEp0 true s)) rfl rfl rfl rfl rfl).ep0ToIdle

theorem TableOk.ep0send (h : TableOk c s) (hs : ep0send s = .ok t) : TableOk c t := by
  obtain ⟨e, he, ⟨-, rfl⟩ | ⟨-, s1, hfill, ht⟩⟩ := ep0send_ok hs
  · exact (h.congr (t := selectEp 0 s) rfl rfl rfl rfl rfl).ep0Last
  · have h1 : TableOk c s1 := (h.congr (t := selectEp 0 s) rfl rfl rfl rfl rfl).fill hfill
    have he1 : s1.entry 0 .IN = some e := by rw [fill_entry hfill, selectEp_entry, he]
    have h2 := h1.advance he1 (chunk_le_len (h.entries 0 .IN e he).1)
    obtain ⟨-, rfl⟩ | ⟨-, rfl⟩ := ht
    · exact h2.ep0Last
    · exact h2.congr rfl rfl rfl rfl rfl

theorem TableOk.ctrlh (h : TableOk c s) (hs : ctrlh c s = .ok t) : TableOk c t := by
  have hsel : TableOk c (selectEp 0 s) := h.congr rfl rfl rfl rfl rfl
  rcases ctrlh_ok hs with rfl | rfl | rfl | ⟨-, s1, hd, rfl⟩ | ⟨-, h2⟩
  · exact (hsel.congr (t := clearSentStall0 (selectEp 0 s)) rfl rfl rfl rfl rfl).ep0ToIdle
  · exact (hsel.congr (t := clearSetupEnd (selectEp 0 s)) rfl rfl rfl rfl rfl).ep0ToIdle
  · exact hsel
  · exact (hsel.drain hd).congr rfl rfl rfl rfl rfl
  · exact hsel.ep0send h2

theorem TableOk.inh (h : TableOk c s) {ep : EpNum} (hs : inh ep s = .ok t) : TableOk c t := by
  have hsel : TableOk c (selectEp ep s) := h.congr rfl rfl rfl rfl rfl
  rcases inh_ok hs with rfl | ⟨-, e, he, -, rfl | rfl | ⟨-, s1, hfill, rfl⟩⟩
  · exact h
  · exact hsel.congr rfl rfl rfl rfl rfl
  · exact hsel
  · have h1 : TableOk c (commitPacket ep false (setInPktRdy ep true s1)) := (hsel.fill hfill).congr rfl rfl rfl rfl rfl
    have he1 : (commitPacket ep false (setInPktRdy ep true s1)).entry ep .IN = some e := by
      rw [entry_congr (s := s1) (t := commitPacket ep false (setInPktRdy ep true s1)) rfl rfl, fill_entry hfill,
        selectEp_entry, he]
    have h2 := h1.advance he1 (chunk_le_len (h.entries ep .IN e he).1)
    unfold inhAfterFill
    simp only
    split
    · exact (h2.emit _).clearEntry ep .IN
    · exact h2

theorem TableOk.outh (h : TableOk c s) {ep : EpNum} (hs : outh c ep s = .ok t) : TableOk c t := by
  have hsel : TableOk c (selectEp ep s) := h.congr rfl rfl rfl rfl rfl
  rcases outh_ok hs with rfl | ⟨-, e, he, -, rfl | ⟨hfit, s1, hd, rfl⟩⟩
  · exact h
  · exact hsel.congr rfl rfl rfl rfl rfl
  · have he1 : s1.entry ep .OUT = some e := by rw [drain_entry hd, selectEp_entry, he]
    have hprog : e.prog + s.rxCount ep ≤ e.len := by
      have := (h.entries ep .OUT e he).1
      simp only [Entry.remaining] at hfit
      omega
    have h2 := ((hsel.drain hd).advance he1 hprog).setOutPktRdy ep false
    unfold outhAfterDrain
    simp only
    split
    · exact (h2.emit _).clearEntry ep .OUT
    · exact h2

/-! #### SEND and RECV -/

theorem TableOk.send (h : TableOk c s) (hlw : c.lw = 32) {ep : EpNum} {e : Entry} {buf len : Word}
    (he : s.entry ep .IN = some e) (hs : send c ep e buf len s = .ok t) : TableOk c t := by
  obtain ⟨-, -, -, rfl⟩ | ⟨hnull, hadmit, -, -, hk⟩ := send_ok hs
  · exact h
  · have hmask : TableOk c (setMask true s) := h.congr rfl rfl rfl rfl rfl
    have hq : TableOk c (sendQueued ep e buf len s) :=
      hmask.putEntry (e := e) (by simpa using he)
        ((hmask.entries ep .IN e (by simpa using he)).accept hlw (by simp) hnull hadmit) rfl rfl (h.fits (e := e) he)
    obtain ⟨u, rfl, ⟨-, hu⟩ | ⟨-, hu⟩⟩ := sendKick_ok hk
    · have h0 : TableOk c { sendQueued ep e buf len s with ep0state := .Transmitting } := hq.congr rfl rfl rfl rfl rfl
      exact (h0.ep0send hu).congr rfl rfl rfl rfl rfl
    · exact (hq.inh hu).congr rfl rfl rfl rfl rfl

theorem TableOk.recv (h : TableOk c s) (hlw : c.lw = 32) {ep : EpNum} {e : Entry} {buf len : Word}
    (he : s.entry ep .OUT = some e) (hs : recv c ep e buf len s = .ok t) : TableOk c t := by
  obtain ⟨-, -, -, rfl⟩ | ⟨hep, hnull, hadmit, -, rfl⟩ := recv_ok hs
  · exact h
  · have hmask : TableOk c (setMask true s) := h.congr rfl rfl rfl rfl rfl
    have hq : TableOk c ((setMask true s).putEntry ep .OUT (e.accept buf len)) :=
      hmask.putEntry (e := e) (by simpa using he)
        ((hmask.entries ep .OUT e (by simpa using he)).accept hlw (by simp [hep]) hnull hadmit) rfl rfl (h.fits (e := e) he)
    exact hq.congr rfl rfl rfl rfl rfl

/-! #### The loops over the table -/

theorem TableOk.cancelAll (h : TableOk c s) : TableOk c (cancelAll s) := by
  have hloop : TableOk c (forKeys tableOrder cancelEntry (setMask true s)) :=
    forKeys_induct (P := TableOk c) (fun n d _ hs => (hs.flush n d).clearEntry n d) _
      (h.congr rfl rfl rfl rfl rfl)
  rw [Machine.cancelAll]
  generalize forKeys tableOrder cancelEntry (setMask true s) = m at hloop
  exact hloop.congr rfl rfl rfl rfl rfl

/-- FLUSH reads the type of its entry alone, so it commutes with a write of the entry that keeps the type. -/
theorem flush_putEntry {n : EpNum} {d : Dir} {e f : Entry} (he : s.entry n d = some e) (htype : f.etype = e.etype) :
    Machine.flush n d (s.putEntry n d f) = (Machine.flush n d s).putEntry n d f := by
  rw [flush_of_entry (putEntry_entry_self n d f s), flush_of_entry he, htype]
  split
  · rfl
  · cases d <;> rfl

/-- A pass of the reset sequence: a control entry keeps its capacity, and a data entry's FIFO is emptied (R250). -/
theorem TableOk.resetEntry (h : TableOk c s) (n : EpNum) (d : Dir) : TableOk c (resetEntry c n d s) := by
  refine TableOk.clearEntry ?_ n d
  cases he : s.entry n d with
  | none => rw [rederiveCap_of_absent he]; exact h.flush n d
  | some e =>
    have hflush := h.flush n d
    have he' : (Machine.flush n d s).entry n d = some e := by rw [flush_entry, he]
    obtain ⟨hprog, hlen, hcap, hbuf⟩ := hflush.entries n d e he'
    have hr : EntryOk c (Machine.flush n d s) n d { e with cap := resetCap c s.hsMode e.etype } := by
      refine ⟨hprog, hlen, ?_, hbuf⟩
      cases hs : s.hsMode
      · exact .inr rfl
      · exact .inl rfl
    have hfit : ((Machine.flush n d s).fifo n d).length ≤ resetCap c s.hsMode e.etype := by
      by_cases ht : e.etype = .control
      · have hsame : resetCap c s.hsMode e.etype = e.cap := by
          rcases hcap with hcap | hcap
          all_goals rw [hcap, ht]; rfl
        exact hsame ▸ hflush.fits he'
      · rw [flush_fifo, if_pos (by simp [he, ht])]
        exact Nat.zero_le _
    simp only [rederiveCap, he]
    rw [flush_putEntry (f := { e with cap := resetCap c s.hsMode e.etype }) he rfl]
    exact hflush.putEntry he' hr rfl rfl hfit

theorem TableOk.resetSequence (h : TableOk c s) : TableOk c (resetSequence c s) := by
  have hloop : TableOk c (forKeys tableOrder (Machine.resetEntry c) { s with faddr := 0 }) :=
    forKeys_induct (P := TableOk c) (fun n d _ hs => hs.resetEntry n d) _ (h.congr rfl rfl rfl rfl rfl)
  rw [Machine.resetSequence]
  generalize forKeys tableOrder (Machine.resetEntry c) { s with faddr := 0 } = m at hloop
  exact hloop.congr rfl rfl rfl rfl rfl

end

end Sys2Proof.Machine
end

/-! ### The invariant of the machine (R21 to R34, R44, R46, R51) -/

section
namespace Sys2Proof.Machine

/-! #### The table under the bus events and the dispatcher -/

section
variable {c : Cfg} {s t : State}

theorem TableOk.usbEvents (h : TableOk c s) (u : UsbFlags) : TableOk c (usbEvents c u s) := by
  cases hr : u.reset with
  | false =>
    rw [usbEvents_of_no_reset c s hr]
    exact h.congr rfl rfl rfl rfl rfl
  | true =>
    have hreset := h.resetSequence
    rw [usbEvents_of_reset c s hr]
    generalize Machine.resetSequence c s = r at hreset
    exact hreset.congr rfl rfl rfl rfl rfl

/-! #### EP0's state goes with its response (R27, R30, R31) -/

/-- EP0's state depends on `ep0state` and on the buffer of `(0,IN)` alone. -/
theorem Ep0Ok.congr (h : Ep0Ok s) (hstate : t.ep0state = s.ep0state)
    (hbuf : (t.entry 0 .IN).map Entry.buf = (s.entry 0 .IN).map Entry.buf) : Ep0Ok t := by
  have key (u : State) : (∃ e, u.entry 0 .IN = some e ∧ e.buf ≠ .none) ↔ ∃ b, (u.entry 0 .IN).map Entry.buf = some b ∧ b ≠ .none := by
    simp only [Option.map_eq_some_iff]
    exact ⟨fun ⟨e, he, hb⟩ => ⟨_, ⟨e, he, rfl⟩, hb⟩, fun ⟨_, ⟨e, he, rfl⟩, hb⟩ => ⟨e, he, hb⟩⟩
  unfold Ep0Ok at h ⊢
  rw [key] at h ⊢
  rwa [hstate, hbuf]

/-- EP0 is good in Idle without a response. -/
theorem ep0Ok_of_idle (hidle : t.ep0state = .Idle) (hempty : ∀ e, t.entry 0 .IN = some e → e.buf = .none) : Ep0Ok t := by
  refine ⟨by simp [hidle], fun h => ?_, fun ⟨e, he, hb⟩ => absurd (hempty e he) hb⟩
  rw [hidle] at h
  cases h

/-- EP0 is good in Transmitting with a response. -/
theorem ep0Ok_of_transmitting {e : Entry} (htrans : t.ep0state = .Transmitting) (he : t.entry 0 .IN = some e)
    (hbuf : e.buf ≠ .none) : Ep0Ok t :=
  ⟨by simp [htrans], fun _ => ⟨e, he, hbuf⟩, fun _ => htrans⟩

theorem ep0Ok_ep0ToIdle (s : State) : Ep0Ok (ep0ToIdle s) := by
  refine ep0Ok_of_idle (ep0ToIdle_ep0state s) fun e he => ?_
  rw [ep0ToIdle_entry, if_pos ⟨rfl, rfl⟩] at he
  obtain ⟨f, -, rfl⟩ := Option.map_eq_some_iff.1 he
  rfl

theorem ep0Ok_resetSequence (c : Cfg) (s : State) : Ep0Ok (resetSequence c s) :=
  ep0Ok_of_idle (resetSequence_ep0state c s) fun _ he => (resetSequence_entry_empty he).2.2

theorem ep0Ok_cancelAll (s : State) : Ep0Ok (cancelAll s) := by
  refine ep0Ok_of_idle (cancelAll_ep0state s) fun e he => ?_
  rw [cancelAll_entry] at he
  obtain ⟨f, -, rfl⟩ := Option.map_eq_some_iff.1 he
  rfl

theorem Ep0Ok.ep0send (h : Ep0Ok s) (hs : ep0send s = .ok t) : Ep0Ok t := by
  obtain ⟨e, he, ⟨-, rfl⟩ | ⟨-, s1, hfill, ⟨-, rfl⟩ | ⟨-, rfl⟩⟩⟩ := ep0send_ok hs
  · exact ep0Ok_ep0ToIdle _
  · exact ep0Ok_ep0ToIdle _
  · refine h.congr ?_ ?_
    · obtain ⟨f, -, ⟨-, rfl⟩ | ⟨-, -, -, a, bs, -, -, rfl⟩⟩ := fill_ok hfill <;> rfl
    · have hput : (ep0More (s1.putEntry 0 .IN { e with prog := e.prog + e.chunk })).entry 0 .IN
          = some { e with prog := e.prog + e.chunk } := putEntry_entry_self 0 .IN { e with prog := e.prog + e.chunk } s1
      rw [hput, he]
      rfl

theorem drain_ep0state {ep : EpNum} {size : Nat} (h : drain c ep size s = .ok t) : t.ep0state = s.ep0state := by
  obtain ⟨e, -, -, ⟨-, -, rfl⟩ | ⟨a, -, hw⟩⟩ := drain_ok h
  · rfl
  · obtain ⟨m, rfl⟩ := writeBytes_only_mem hw
    rfl

theorem fill_ep0state {ep : EpNum} {size : Nat} (h : fill ep size s = .ok t) : t.ep0state = s.ep0state := by
  obtain ⟨e, -, ⟨-, rfl⟩ | ⟨-, -, -, a, bs, -, -, rfl⟩⟩ := fill_ok h <;> rfl

theorem Ep0Ok.ctrlh (h : Ep0Ok s) (hs : ctrlh c s = .ok t) : Ep0Ok t := by
  rcases ctrlh_ok hs with rfl | rfl | rfl | ⟨-, s1, hd, rfl⟩ | ⟨-, h2⟩
  · exact ep0Ok_ep0ToIdle _
  · exact ep0Ok_ep0ToIdle _
  · exact h.congr rfl rfl
  · exact (h.congr (t := s1) (drain_ep0state (s := selectEp 0 s) hd) (congrArg _ (drain_entry hd 0 .IN))).congr rfl rfl
  · exact (h.congr (t := selectEp 0 s) rfl rfl).ep0send h2

/-- INH works on another endpoint. -/
theorem Ep0Ok.inh (h : Ep0Ok s) {ep : EpNum} (hs : inh ep s = .ok t) : Ep0Ok t := by
  rcases inh_ok hs with rfl | ⟨hep, e, -, -, rfl | rfl | ⟨-, s1, hfill, rfl⟩⟩
  · exact h
  · exact h.congr rfl rfl
  · exact h.congr rfl rfl
  · have h1 : Ep0Ok s1 := h.congr (fill_ep0state (s := selectEp ep s) hfill) (by rw [fill_entry hfill, selectEp_entry])
    unfold inhAfterFill
    simp only
    split <;> exact h1.congr (by simp) (by simp [clearEntry_entry, putEntry_entry, hep])

/-- OUTH works on an OUT entry. -/
theorem Ep0Ok.outh (h : Ep0Ok s) {ep : EpNum} (hs : outh c ep s = .ok t) : Ep0Ok t := by
  rcases outh_ok hs with rfl | ⟨-, e, -, -, rfl | ⟨-, s1, hd, rfl⟩⟩
  · exact h
  · exact h.congr rfl rfl
  · have h1 : Ep0Ok s1 := h.congr (drain_ep0state (s := selectEp ep s) hd) (by rw [drain_entry hd, selectEp_entry])
    unfold outhAfterDrain
    simp only
    split <;> exact h1.congr (by simp) (by simp [clearEntry_entry, putEntry_entry])

theorem Ep0Ok.usbEvents (h : Ep0Ok s) (u : UsbFlags) : Ep0Ok (usbEvents c u s) := by
  cases hr : u.reset with
  | false =>
    rw [usbEvents_of_no_reset c s hr]
    exact h.congr rfl rfl
  | true =>
    have hreset := ep0Ok_resetSequence c s
    rw [usbEvents_of_reset c s hr]
    generalize Machine.resetSequence c s = r at hreset
    exact hreset.congr rfl rfl

/-- SEND on endpoint 0 records a response in Transmitting; on a data endpoint it leaves EP0 as it is (R172). -/
theorem Ep0Ok.send (h : Ep0Ok s) {ep : EpNum} {e : Entry} {buf len : Word} (hs : send c ep e buf len s = .ok t) :
    Ep0Ok t := by
  obtain ⟨-, -, -, rfl⟩ | ⟨-, -, -, hep0, hk⟩ := send_ok hs
  · exact h
  · obtain ⟨u, rfl, ⟨rfl, hu⟩ | ⟨hep, hu⟩⟩ := sendKick_ok hk
    · have hq : Ep0Ok (ep0Queued e buf len s) :=
        ep0Ok_of_transmitting rfl (ep0Queued_entry e buf len s) (by rw [accept_of_ne (hep0 rfl).2]; simp)
      exact (hq.ep0send hu).congr rfl rfl
    · have hq : Ep0Ok (sendQueued ep e buf len s) := h.congr rfl (by simp [sendQueued, putEntry_entry, hep])
      exact (hq.inh hu).congr rfl rfl

theorem Ep0Ok.recv (h : Ep0Ok s) {ep : EpNum} {e : Entry} {buf len : Word} (hs : recv c ep e buf len s = .ok t) :
    Ep0Ok t := by
  obtain ⟨-, -, -, rfl⟩ | ⟨-, -, -, -, rfl⟩ := recv_ok hs
  · exact h
  · exact h.congr rfl rfl

/-! #### IRQ -/

/-- What every handler and the bus events keep, an IRQ keeps (R160). -/
theorem irq_induct {P : State → Prop} (hctrlh : ∀ s t, P s → ctrlh c s = .ok t → P t)
    (hinh : ∀ n s t, P s → inh n s = .ok t → P t) (houth : ∀ n s t, P s → outh c n s = .ok t → P t)
    (husb : ∀ s u, P s → P (usbEvents c u s)) (hs : P (clearPending s)) (h : irq c s = .ok t) : P t :=
  irq_rel (R := fun s t => P s → P t) (fun _ => id) (fun h k => k ∘ h) (fun t h hs => hctrlh _ t hs h)
    (fun n s t h hs => hinh n s t hs h) (fun n s t h hs => houth n s t hs h) (fun s u => husb s u) h hs

theorem TableOk.irq (h : TableOk c s) (hs : irq c s = .ok t) : TableOk c t :=
  irq_induct (fun _ _ h => h.ctrlh) (fun _ _ _ h => h.inh) (fun _ _ _ h => h.outh) (fun _ u h => h.usbEvents u)
    (h.congr rfl rfl rfl rfl rfl) hs

theorem Ep0Ok.irq (h : Ep0Ok s) (hs : irq c s = .ok t) : Ep0Ok t :=
  irq_induct (fun _ _ h => h.ctrlh) (fun _ _ _ h => h.inh) (fun _ _ _ h => h.outh) (fun _ u h => h.usbEvents u)
    (h.congr rfl rfl) hs

end

/-! #### Every operation -/

/-- Every operation keeps the table and the FIFOs good. -/
theorem Completes.tableOk {i : Instr} {s t : State} (h : Completes i s t) (hs : TableOk Config.cfg s) :
    TableOk Config.cfg t := by
  cases h with
  | init hoff =>
    have hup : TableOk Config.cfg { powerUp Config.cfg s with phase := .On } :=
      hs.of_entries rfl (entry_congr rfl rfl) fun n d => by cases d <;> simp [State.fifo, powerUp]
    have hreset := hup.resetSequence
    unfold attach
    generalize Machine.resetSequence Config.cfg { powerUp Config.cfg s with phase := .On } = r at hreset
    exact hreset.congr rfl rfl rfl rfl rfl
  | shutdown hon => exact hs.congr rfl rfl rfl rfl rfl
  | send hon he h => exact hs.send rfl he h
  | recv hon he h => exact hs.recv rfl he h
  | cancelall hon => exact hs.cancelAll
  | stall hon => exact hs.congr (by simp) (by simp) (by simp) (by simp) (by simp)
  | isstalled hon => exact hs.congr rfl rfl rfl rfl rfl
  | portspeed hon => exact hs.congr rfl rfl rfl rfl rfl
  | connected hon => exact hs.congr rfl rfl rfl rfl rfl
  | irq h => exact hs.irq h
  | ctrlh h => exact hs.ctrlh h
  | inh h => exact hs.inh h
  | outh h => exact hs.outh h
  | reseth => exact hs.resetSequence.emit _
  | select => exact hs.congr rfl rfl rfl rfl rfl
  | drain h => exact hs.drain h
  | fill h => exact hs.fill h
  | flush => exact hs.flush _ _
  | ep0send h => exact hs.ep0send h
  | onctrlreq => exact hs.emit _
  | onxferdone => exact hs.emit _
  | onbusreset => exact hs.emit _
  | logev => exact hs.emit _

/-- Every operation keeps EP0's state good. -/
theorem Completes.ep0Ok {i : Instr} {s t : State} (h : Completes i s t) (hs : Ep0Ok s) : Ep0Ok t := by
  cases h with
  | init hoff =>
    have hreset := ep0Ok_resetSequence Config.cfg { powerUp Config.cfg s with phase := .On }
    unfold attach
    generalize Machine.resetSequence Config.cfg { powerUp Config.cfg s with phase := .On } = r at hreset
    exact hreset.congr rfl rfl
  | shutdown hon => exact hs.congr rfl rfl
  | send hon he h => exact hs.send h
  | recv hon he h => exact hs.recv h
  | cancelall hon => exact ep0Ok_cancelAll s
  | stall hon => exact hs.congr (by simp) (by simp)
  | isstalled hon => exact hs.congr rfl rfl
  | portspeed hon => exact hs.congr rfl rfl
  | connected hon => exact hs.congr rfl rfl
  | irq h => exact hs.irq h
  | ctrlh h => exact hs.ctrlh h
  | inh h => exact hs.inh h
  | outh h => exact hs.outh h
  | reseth =>
    have hreset := ep0Ok_resetSequence Config.cfg s
    unfold Machine.reseth
    generalize Machine.resetSequence Config.cfg s = r at hreset
    exact hreset.congr rfl rfl
  | select => exact hs.congr rfl rfl
  | drain h => exact hs.congr (drain_ep0state h) (by rw [drain_entry h])
  | fill h => exact hs.congr (fill_ep0state h) (by rw [fill_entry h])
  | flush => exact hs.congr (by simp) (by simp)
  | ep0send h => exact hs.ep0send h
  | onctrlreq => exact hs.congr rfl rfl
  | onxferdone => exact hs.congr rfl rfl
  | onbusreset => exact hs.congr rfl rfl
  | logev => exact hs.congr rfl rfl

theorem HandlerFrame.unmasked {s t : State} (h : HandlerFrame s t) (hs : s.irqMasked = false) : t.irqMasked = false :=
  h.irqMasked.trans hs

/-- Interrupts are unmasked after every operation (R44). -/
theorem Completes.unmasked {i : Instr} {s t : State} (h : Completes i s t) (hs : s.irqMasked = false) :
    t.irqMasked = false := by
  cases h with
  | init hoff =>
    unfold attach
    rw [resetSequence_eq]
    exact hs
  | shutdown hon => exact hs
  | send hon he h => exact (send_frame he h).2.2.2.2 hs
  | recv hon he h => exact (recv_frame he h).2.2.2.2 hs
  | cancelall hon => rw [cancelAll_eq]
  | stall hon => simpa using hs
  | isstalled hon => exact hs
  | portspeed hon => exact hs
  | connected hon => exact hs
  | irq h => rw [irq_eq h]; exact hs
  | ctrlh h => exact (frame_ctrlh h).unmasked hs
  | inh h => exact (frame_inh h).unmasked hs
  | outh h => exact (frame_outh h).unmasked hs
  | reseth =>
    unfold Machine.reseth emit
    rw [resetSequence_eq]
    exact hs
  | select => exact hs
  | drain h => exact (frame_drain h).unmasked hs
  | fill h => exact (frame_fill h).unmasked hs
  | flush => simpa using hs
  | ep0send h => exact (frame_ep0send h).unmasked hs
  | onctrlreq => exact hs
  | onxferdone => exact hs
  | onbusreset => exact hs
  | logev => exact hs

/-- The lifecycle signals and the DMA registers after INIT (R170). -/
theorem init_lifecycle (c : Cfg) (s : State) :
    LifecycleOk (attach (resetSequence c { powerUp c s with phase := .On }))
      ∧ (attach (resetSequence c { powerUp c s with phase := .On })).dmaCntl.length = c.ndma := by
  have h := resetSequence_eq c { powerUp c s with phase := .On }
  generalize resetSequence c { powerUp c s with phase := .On } = r at h
  rw [h]
  exact ⟨⟨⟨fun _ => rfl, fun _ => rfl⟩, fun _ => rfl, fun _ => rfl⟩, List.length_replicate⟩

/-- The lifecycle signals go with `phase`, and the DMA registers are all there, after every operation (R46). -/
theorem Completes.lifecycle {i : Instr} {s t : State} (h : Completes i s t) (hs : LifecycleOk s)
    (hdma : s.dmaCntl.length = Config.cfg.ndma) : LifecycleOk t ∧ t.dmaCntl.length = Config.cfg.ndma := by
  by_cases hinit : i = .init
  · subst hinit; cases h
    exact init_lifecycle Config.cfg s
  by_cases hshut : i = .shutdown
  · subst hshut; cases h
    exact ⟨⟨by simp [Machine.shutdown], by simp [Machine.shutdown]⟩, List.length_replicate⟩
  obtain ⟨-, -, -, hd, hp, hpower, hconn⟩ := h.lifecycle_kept hinit hshut
  unfold LifecycleOk
  rw [hd, hp, hpower, hconn]
  exact ⟨hs, hdma⟩

/-! #### The invariant -/

theorem Inv.tableOk {c : Cfg} {s : State} (h : Inv c s) : TableOk c s := ⟨h.shape, h.entries, fifosOk_iff.1 h.fifos⟩

theorem TableOk.inv {c : Cfg} {s : State} (h : TableOk c s) (hep0 : Ep0Ok s) (hmem : MemoryOk s) (hlife : LifecycleOk s)
    (hmask : s.irqMasked = false) (hdma : s.dmaCntl.length = c.ndma) : Inv c s :=
  ⟨h.shape, h.entries, hep0, fifosOk_iff.2 h.fifos, hmem, hlife, hmask, hdma⟩

/-- Writes of held addresses keep the memory good. -/
theorem Writes.memoryOk {W : Nat → Prop} {s t : State} (h : Writes W s t) (hs : MemoryOk s) : MemoryOk t := by
  obtain ⟨hwf, hheld⟩ := hs
  refine ⟨h.wf hwf, fun a b hab => ?_⟩
  rw [holds_congr h.memMap]
  exact (h.listed hwf a b hab).elim (hheld a b) id

/-- The marks, the program and the platform's input are no part of the invariant. -/
theorem Inv.withMarks {c : Cfg} {s : State} (h : Inv c s) (f : Option FaultReason) (r : Option RefusalReason)
    (p : List TopStep) (v : Bool) : Inv c { s with fault := f, refused := r, program := p, vbusSense := v } :=
  ⟨h.shape, h.entries, h.ep0, h.fifos, h.memory, h.lifecycle, h.unmasked, h.dma⟩

theorem Completes.inv {i : Instr} {s t : State} (h : Completes i s t) (hs : Inv Config.cfg s) : Inv Config.cfg t := by
  obtain ⟨hlife, hdma⟩ := h.lifecycle hs.lifecycle hs.dma
  exact (h.tableOk hs.tableOk).inv (h.ep0Ok hs.ep0) (h.writes.memoryOk hs.memory) hlife (h.unmasked hs.unmasked) hdma

/-- Every operation that answers a next state keeps the invariant. -/
theorem exec_keeps_inv {i : Instr} {s t : State} (h : exec i s = .next t) (hs : Inv Config.cfg s) : Inv Config.cfg t := by
  rcases exec_next h with h | ⟨f, rfl⟩ | ⟨f, rfl⟩
  · exact h.inv hs
  · exact hs.withMarks _ _ _ _
  · exact hs.withMarks _ _ _ _

/-! #### The moves of the bus agent -/

/-- The capacity of the control entry (0,OUT) of the default table (R23). -/
theorem TableOk.capOf_ep0_out {s : State} (h : TableOk Config.cfg s) : s.capOf 0 .OUT = Config.cfg.capCtrl := by
  obtain ⟨e, he, htype⟩ := Option.map_eq_some_iff.1
    ((shape_etype h.shape 0 .OUT).trans (rfl : _ = some EpType.control))
  obtain ⟨-, -, hcap, -⟩ := h.entries 0 .OUT e he
  rw [capOf_of_entry he]
  rcases hcap with hcap | hcap
  all_goals rw [hcap, htype]; rfl

/-- A packet put into a FIFO of the OUT side. -/
theorem TableOk.receive {c : Cfg} {s t : State} (h : TableOk c s) {n : EpNum} {bs : List Byte}
    (hfit : bs.length ≤ s.capOf n .OUT) (hmap : t.memMap = s.memMap) (hOut : t.epOut = s.epOut) (hIn : t.epIn = s.epIn)
    (htx : t.tx = s.tx) (hrx : t.rx = s.rx.put n bs) : TableOk c t :=
  h.putFifo (n := n) (d := .OUT) hfit hmap (entry_congr hOut hIn) fun m d' => by
    cases d' <;> simp [State.fifo, htx, hrx, Bank.get_put]

/-- A packet taken from a FIFO of the IN side. -/
theorem TableOk.take {c : Cfg} {s t : State} (h : TableOk c s) {n : EpNum} (hmap : t.memMap = s.memMap)
    (hOut : t.epOut = s.epOut) (hIn : t.epIn = s.epIn) (htx : t.tx = s.tx.put n []) (hrx : t.rx = s.rx) : TableOk c t :=
  h.putFifo (n := n) (d := .IN) (bs := []) (Nat.zero_le _) hmap (entry_congr hOut hIn) fun m d' => by
    cases d' <;> simp [State.fifo, htx, hrx, Bank.get_put]

theorem entry_of_dataEntry {s : State} {n : EpNum} {d : Dir} {e : Entry} (h : s.dataEntry n d = some e) :
    s.entry n d = some e := by
  unfold State.dataEntry at h
  split at h
  · cases h
  · exact h

/-- A packet of the bus agent fits in its FIFO (R191, R193). -/
theorem TableOk.apply {s : State} (h : TableOk Config.cfg s) {m : BusMove} (hpre : m.pre Config.cfg s = true) :
    TableOk Config.cfg (m.apply s) := by
  cases m with
  | setup bytes =>
    simp only [BusMove.pre, Bool.and_eq_true, decide_eq_true_eq] at hpre
    exact h.receive (h.capOf_ep0_out ▸ hpre.2) rfl rfl rfl rfl rfl
  | out n bytes =>
    simp only [BusMove.pre] at hpre
    cases he : s.dataEntry n .OUT with
    | none => rw [he] at hpre; cases hpre
    | some e =>
      simp only [he, Bool.and_eq_true, decide_eq_true_eq] at hpre
      exact h.receive (n := n) (capOf_of_entry (entry_of_dataEntry he) ▸ hpre.2) rfl rfl rfl rfl rfl
  | ep0Taken => exact h.take (n := 0) rfl rfl rfl rfl rfl
  | inTaken n => exact h.take (n := n) rfl rfl rfl rfl rfl
  | setupEnd => exact h.take (n := 0) rfl rfl rfl rfl rfl
  | stallSent n d =>
    simp only [BusMove.apply, stallSentMove]
    split
    · exact h.take (n := 0) rfl rfl rfl rfl rfl
    · cases d <;> exact h.congr rfl rfl rfl rfl rfl
  | ep0Irq => exact h.congr rfl rfl rfl rfl rfl
  | busReset hs =>
    exact h.of_entries rfl (entry_congr rfl rfl) fun n d => by cases d <;> simp [State.fifo, BusMove.apply, busResetMove]
  | suspend => exact h.congr rfl rfl rfl rfl rfl
  | resume => exact h.congr rfl rfl rfl rfl rfl

theorem Inv.apply {s : State} (h : Inv Config.cfg s) {m : BusMove} (hpre : m.pre Config.cfg s = true) :
    Inv Config.cfg (m.apply s) := by
  have htable := h.tableOk.apply hpre
  have heq := apply_eq m s
  generalize m.apply s = t at htable heq
  refine htable.inv ?_ ?_ ?_ ?_ ?_ <;> rw [heq]
  · exact h.ep0
  · exact h.memory
  · exact h.lifecycle
  · exact h.unmasked
  · exact h.dma

/-! #### The step -/

/-- Settles O56: an operation keeps each part of the invariant, a move of the bus agent writes FIFOs within their
capacities, and the rest of a step writes no part of it. -/
theorem stepKeepsTheInvariant : Obligations.StepKeepsTheInvariant := by
  intro s t hs h
  obtain ⟨-, h⟩ := step_next h
  cases h with
  | operation h => exact exec_keeps_inv h (hs.withMarks _ _ _ _)
  | idle => exact hs
  | refusal p r => exact hs.withMarks _ _ _ _
  | bus hup hpre => exact (hs.withMarks _ _ _ _).apply hpre
  | vbus b p => exact hs.withMarks _ _ _ _

/-! #### Reset -/

/-- The entries of the power-on table are empty, with the capacities of full speed (R52). -/
theorem powerOn_entry (c : Cfg) (n : EpNum) (d : Dir) : (State.powerOn c).entry n d = powerOnEntry c n d := by
  cases d <;> simp [State.powerOn, State.entry, Bank.get_ofFn]

theorem powerOnCap_eq (c : Cfg) (t : EpType) : powerOnCap c t = resetCap c false t := by
  cases t <;> rfl

/-- The power-on state of every configuration meets the invariant. -/
theorem powerOn_inv (c : Cfg) : Inv c (State.powerOn c) := by
  have hempty : ∀ n d e, (State.powerOn c).entry n d = some e → CapDerived c e ∧ e.len = 0 ∧ e.prog = 0
      ∧ e.buf = if n = 0 ∧ d = .OUT then .ctrl else .none := by
    intro n d e he
    rw [powerOn_entry] at he
    obtain ⟨k, -, rfl⟩ := Option.map_eq_some_iff.1 he
    exact ⟨.inr (powerOnCap_eq c k.etype), rfl, rfl, rfl⟩
  have hkey (n d) : ((State.powerOn c).entry n d).map (fun e => (e.etype, e.usesDma))
      = (c.entryAt n d).map (fun k => (k.etype, k.usesDma)) := by
    rw [powerOn_entry, powerOnEntry, Option.map_map]
    rfl
  have htable : TableOk c (State.powerOn c) := by
    refine ⟨fun n => ⟨hkey n .OUT, hkey n .IN⟩, fun n d e he => ?_, fun n d => ?_⟩
    · obtain ⟨hcap, hlen, hprog, hbuf⟩ := hempty n d e he
      exact entryOk_of_empty hcap hlen hprog hbuf
    · cases d <;> simp [State.fifo, State.powerOn]
  refine htable.inv (ep0Ok_of_idle rfl fun e he => (hempty 0 .IN e he).2.2.2) ⟨rfl, fun a b h => ?_⟩ ?_ rfl
    List.length_replicate
  · cases h
  · unfold LifecycleOk
    simp [State.powerOn]

/-- Settles O55: `powerOn_inv` at the default configuration. -/
theorem resetMeetsTheInvariant : Obligations.ResetMeetsTheInvariant := powerOn_inv Config.cfg

end Sys2Proof.Machine
end
